-- ==== Sys2Proof/Word.lean ====
section
/-! DEFINITION. The two word types of the CORE (spec/00_scope.md R7): bytes and 16-bit words. -/

namespace Sys2Proof

/-- `u8`: an unsigned 8-bit number (R7). -/
abbrev Byte := BitVec 8

/-- `u16`: an unsigned 16-bit number (R7); every address is one (R61). -/
abbrev Word := BitVec 16

end Sys2Proof
end

