-- ==== Sys2Proof/Config.lean ====
section
/-! DEFINITION. The parameters of spec/00_scope.md R5. `BUS` has no default and stays an argument: the two functions
`deviceRead` and `deviceWrite`, which nothing constrains, over the bus state `State.device`; the ranges of `State.claims` say
where they answer and where plain memory does. The others are fixed at their defaults: `SPREL_FLAGS` and `IRQ_READ_ORDER` here,
`CYCLES` in Machine/Cycles.lean, `STOP_POLICY` = `fault` in the meaning of STOP. -/

namespace Sys2Proof.Config

/-- `read` of the parameter `BUS` (R5, R60, R80), with the bus's own state coded as a number: the byte and the state after it, or
nothing where the bus answers `OutOfRange`. An argument of the model (log 26): it has no body. -/
opaque deviceRead : Nat → Word → Option (Byte × Nat)

/-- `write` of the parameter `BUS` (R5, R60): the bus's own state after it, or nothing where the bus answers `OutOfRange`. An
argument of the model (log 26): it has no body. -/
opaque deviceWrite : Nat → Word → Byte → Option Nat

/-- `SPREL_FLAGS` (R5, R250): which carry boundaries `ADD SP,e8` and `LD HL,SP+e8` report. -/
inductive SprelFlags
  /-- bit 11 and bit 15 of the two 16-bit addends: the source's text, the default (D11) -/
  | doc
  /-- bit 3 and bit 7 of the low byte and the unsigned offset byte -/
  | lr35902
  deriving DecidableEq, Repr

/-- `IRQ_READ_ORDER` (R5, R336): which of the two interrupt registers is read first. -/
inductive IrqReadOrder
  /-- `IE`, then `IF`: the default (D2) -/
  | ieFirst
  /-- `IF`, then `IE` -/
  | ifFirst
  deriving DecidableEq, Repr

/-- DESIGN CHOICE (log 4; unsafe): `SPREL_FLAGS` at its default `doc`. -/
def sprelFlags : SprelFlags := .doc

/-- DESIGN CHOICE (log 6; unsafe): `IRQ_READ_ORDER` at its default `ie_first`. -/
def irqReadOrder : IrqReadOrder := .ieFirst

end Sys2Proof.Config
end

