-- ==== Sys2Proof/Machine/Bits.lean ====
section
/-! DEFINITION. Byte order, extension and concatenation (spec/00_scope.md R6, R7). -/

namespace Sys2Proof.Machine

/-- The high byte of a 16-bit value: `w[15:8]` (R6). -/
def hiByte (w : Word) : Byte := w.extractLsb' 8 8

/-- The low byte of a 16-bit value: `w[7:0]` (R6). -/
def loByte (w : Word) : Byte := w.extractLsb' 0 8

/-- `{hi, lo}`: the 16-bit value `hi * 256 + lo` (R6). -/
def word (hi lo : Byte) : Word := hi ++ lo

/-- `zext_16` (R7). -/
def zext16 (b : Byte) : Word := b.setWidth 16

/-- `sext_16` (R7): bits 15..8 all equal `b[7]`. -/
def sext16 (b : Byte) : Word := b.signExtend 16

end Sys2Proof.Machine
end

