-- ==== Sys2Proof/Machine/Memory.lean ====
section
/-! DEFINITION. The bytes behind the bus: a list of (address, byte) in one canonical form. The CORE itself holds no memory
(spec/20_memory.md R63); this is the part of the bus that is plain memory (R80), DESIGN CHOICE, log 1. -/

namespace Sys2Proof.Machine

/-- The listed bytes of the address space. -/
abbrev Memory := List Host.Cell

namespace Memory

/-- What an address that is not listed reads as. DESIGN CHOICE (log 2; unsafe): 0x00; the spec gives no contents. -/
def unlisted (_a : Nat) : Byte := 0

/-- The byte at an address. -/
def read : Memory → Nat → Byte
  | [], a => unlisted a
  | (k, v) :: m, a => if k = a then v else read m a

/-- The list without the entry of an address. -/
def remove (a : Nat) : Memory → Memory
  | [] => []
  | (k, v) :: m => if k = a then remove a m else (k, v) :: remove a m

/-- The list with an entry put where its address belongs. -/
def insert (a : Nat) (v : Byte) : Memory → Memory
  | [] => [(a, v)]
  | (k, w) :: m => if a < k then (a, v) :: (k, w) :: m else (k, w) :: insert a v m

/-- Write one byte, keeping the canonical form: the value an unlisted address reads as is not listed. -/
def write (m : Memory) (a : Nat) (v : Byte) : Memory :=
  if v = unlisted a then remove a m else insert a v (remove a m)

/-- The canonical form: addresses strictly rising, all within 16 bits (R61), no entry equal to what an unlisted address
reads as. -/
abbrev wf (m : Memory) : Prop :=
  m.Pairwise (fun c d => c.1 < d.1) ∧ ∀ c ∈ m, c.1 < 65536 ∧ c.2 ≠ unlisted c.1

end Memory

end Sys2Proof.Machine
end

