-- ==== Sys2Proof/Machine/State.lean ====
section
/-! DEFINITION. The state of the machine (spec/10_state.md), its two fatal errors (spec/60_exceptions.md R330), and the
state after reset (R41). Plain data throughout. -/

namespace Sys2Proof.Machine

/-- The access kind an `OutOfRange` carries (R332). -/
inductive AccessKind | read | write
  deriving DecidableEq, Repr

/-- The two fatal errors (R330). Each ends the run (R333); nothing else of the machine is defined after one. -/
inductive Fault
  /-- Raised by the meanings of the eleven illegal bytes (R326, R331) and of byte 0x10 (R322): the byte and the address it
  was fetched from. Safe: the spec names this error for them. -/
  | invalidOpcode (opcode : Byte) (address : Word)
  /-- Raised by any bus operation at an address the bus does not claim for that kind of access (R332). Safe: the spec names
  this error. -/
  | outOfRange (address : Word) (kind : AccessKind)
  deriving DecidableEq, Repr

/-- Reasons to give no meaning. -/
inductive Refusal
  /-- The instruction of that mnemonic has no meaning yet. Raised by a refused arm of `exec` only; there is none: every
  row of the opcode table has its meaning. Safe. -/
  | notModelled (mnemonic : String)
  deriving DecidableEq, Repr

/-- One operation of the CORE on the bus (R60), as the bus sees it. -/
inductive BusOp
  /-- a read of `address` that returned `value` -/
  | read (address : Word) (value : Byte)
  /-- a write of `value` at `address` -/
  | write (address : Word) (value : Byte)
  deriving DecidableEq, Repr

/-- How a range of the bus answers a read (R62, R80). -/
inductive ReadRule
  /-- not claimed for reads: `OutOfRange` -/
  | refused
  /-- the byte of `mem`; the read changes nothing -/
  | memory
  /-- as the parameter `BUS` has it: any byte or `OutOfRange`, and any change of the bus's own state -/
  | device
  deriving DecidableEq, Repr

/-- How a range of the bus answers a write (R62). -/
inductive WriteRule
  /-- not claimed for writes: `OutOfRange` -/
  | refused
  /-- the byte is remembered in `mem` -/
  | memory
  /-- answered and not remembered -/
  | dropped
  /-- as the parameter `BUS` has it: taken or `OutOfRange`, and any change of the bus's own state -/
  | device
  deriving DecidableEq, Repr

/-- A range of addresses the bus claims (R62), from `first` to `last`, both included, and how it answers there (log 3). -/
structure Region where
  first : Word
  last : Word
  reads : ReadRule
  writes : WriteRule
  deriving DecidableEq, Repr

/-- What another agent may do to the bus between two steps (R75): change a byte of memory, change the bus's own state, or change
what is claimed and how it answers. -/
inductive BusEvent
  | store (address : Word) (value : Byte)
  | device (state : Nat)
  | remap (claims : List Region)
  deriving DecidableEq, Repr

/-- Everything the spec gives the machine. -/
structure State where
  /-- the accumulator (R20) -/
  a : Byte
  /-- the flags register: zf nf hf cf in bits 7..4, zeros below (R21) -/
  f : Byte
  /-- R20 -/
  b : Byte
  /-- R20 -/
  c : Byte
  /-- R20 -/
  d : Byte
  /-- R20 -/
  e : Byte
  /-- R20 -/
  h : Byte
  /-- R20 -/
  l : Byte
  /-- the stack pointer (R23) -/
  sp : Word
  /-- the program counter (R24) -/
  pc : Word
  /-- Halted rather than Running (R28) -/
  halted : Bool
  /-- the interrupt master enable (R29) -/
  ime : Bool
  /-- the one-shot action armed by `EI` (R30) -/
  deferredEnable : Bool
  /-- the one-shot suppression of the next opcode fetch's increment (R31) -/
  haltBugArmed : Bool
  /-- the running total of cycles (R32), unbounded as R32 allows (log 8) -/
  ticks : Nat
  /-- the latch of a fatal error (R33): a faulted machine takes no step (R333; log 9) -/
  fault : Option Fault
  /-- the bytes of the bus's plain memory, `IE` and `IF` among them where their addresses lie in it (R34 to R36; log 1) -/
  mem : Memory
  /-- the parameter `BUS`'s own state (R5), coded as a number; `Config.deviceRead` and `Config.deviceWrite` read and change it
  (log 26) -/
  device : Nat
  /-- which addresses the bus answers, and whether as plain memory or as the parameter `BUS` has it (R62; log 3) -/
  claims : List Region
  /-- the model's own: what other agents do to the bus before each of the coming steps (R75; log 12) -/
  env : List (List BusEvent)
  /-- the model's own: `addr` of R130, where byte 0 of the running instruction was fetched (log 10) -/
  opAddr : Word
  /-- the model's own: the CORE's bus operations since the last step began, newest first (R80; log 11) -/
  busLog : List BusOp
  deriving DecidableEq, Repr

/-- The outcome of a meaning or of a step. -/
abbrev Result := Host.Outcome State Fault Refusal

/-- Power-on (R41): all registers zero except `PC` = 0x0100. The run state is zero by the spec's decision D8 (log 13). The
bus is DESIGN CHOICE (logs 2, 3, 12, 26): every address claimed as plain memory, nothing listed, no agent acting on it. -/
def State.reset : State where
  a := 0
  f := 0
  b := 0
  c := 0
  d := 0
  e := 0
  h := 0
  l := 0
  sp := 0
  pc := 0x0100
  halted := false
  ime := false
  deferredEnable := false
  haltBugArmed := false
  ticks := 0
  fault := none
  mem := []
  device := 0
  claims := [⟨0x0000, 0xFFFF, .memory, .memory⟩]
  env := []
  opAddr := 0
  busLog := []

end Sys2Proof.Machine
end

