-- ==== Sys2Proof/Syntax.lean ====
section
/-! DEFINITION. The abstract syntax: operand codes (spec/10_state.md R25 to R27) and one constructor of `Instr` for
each of the 116 rows of spec/opcode_table.json. A decoded instruction is a name plus the fields of its opcode byte
(spec/30_encoding.md R103); operand bytes are read by the instruction's meaning while it runs (R90). -/

namespace Sys2Proof

/-- The seven registers an 8-bit operand code can name (R25): codes 0 to 5 and 7. Code 6 is `[HL]`. -/
inductive Reg8 | b | c | d | e | h | l | a
  deriving DecidableEq, Repr

/-- The 8-value operand enum of R25: a register, or the byte on the bus at address `HL` (code 6). -/
inductive Operand8
  | reg (r : Reg8)
  | hl
  deriving DecidableEq, Repr

/-- `r16[code]` (R26): `LD r16,d16`, `ADD HL,r16`, `INC r16`, `DEC r16`. -/
inductive R16 | bc | de | hl | sp
  deriving DecidableEq, Repr

/-- `r16stk[code]` (R26): `PUSH`, `POP`. -/
inductive R16Stk | bc | de | hl | af
  deriving DecidableEq, Repr

/-- The branch conditions (R27). -/
inductive Cond | nz | z | nc | c
  deriving DecidableEq, Repr

/-- The operation codes of the eight accumulator instructions (R97). -/
inductive AluOp | add | adc | sub | sbc | and | xor | or | cp
  deriving DecidableEq, Repr

/-- The operations of the prefixed space (R98): eight rotates and shifts, and three on bit `b`. -/
inductive CbOp
  | rlc | rrc | rl | rr | sla | sra | swap | srl
  | bit (b : BitVec 3)
  | res (b : BitVec 3)
  | set (b : BitVec 3)
  deriving DecidableEq, Repr

/-- What the byte after 0xCB decodes to: an operation and its `r8[z]` operand (R98, R106). -/
structure CbInstr where
  op : CbOp
  operand : Operand8
  deriving DecidableEq, Repr

/-- The instructions: one constructor per row of spec/opcode_table.json, in the table's order. The comment of each gives
the spec's spelling, the row's match/mask and its rule. -/
inductive Instr
  /-- `NOP` (0x00/0xFF; R320) -/
  | nop
  /-- `LD [a16],SP` (0x08/0xFF; R191) -/
  | ldA16Sp
  /-- `STOP` (0x10/0xFF, `undefined` row; R322) -/
  | stop
  /-- `JR e8` (0x18/0xFF; R294) -/
  | jrE8
  /-- `RLCA` (0x07/0xFF; R260) -/
  | rlca
  /-- `RRCA` (0x0F/0xFF; R261) -/
  | rrca
  /-- `RLA` (0x17/0xFF; R262) -/
  | rla
  /-- `RRA` (0x1F/0xFF; R263) -/
  | rra
  /-- `DAA` (0x27/0xFF; R232) -/
  | daa
  /-- `CPL` (0x2F/0xFF; R233) -/
  | cpl
  /-- `SCF` (0x37/0xFF; R234) -/
  | scf
  /-- `CCF` (0x3F/0xFF; R235) -/
  | ccf
  /-- `LD [BC],A` (0x02/0xFF; R167) -/
  | ldBcA
  /-- `LD [DE],A` (0x12/0xFF; R168) -/
  | ldDeA
  /-- `LD [HL+],A` (0x22/0xFF; R171) -/
  | ldHliA
  /-- `LD [HL-],A` (0x32/0xFF; R172) -/
  | ldHldA
  /-- `LD A,[BC]` (0x0A/0xFF; R165) -/
  | ldABc
  /-- `LD A,[DE]` (0x1A/0xFF; R166) -/
  | ldADe
  /-- `LD A,[HL+]` (0x2A/0xFF; R169) -/
  | ldAHli
  /-- `LD A,[HL-]` (0x3A/0xFF; R170) -/
  | ldAHld
  /-- `INC [HL]` (0x34/0xFF; R229) -/
  | incHl
  /-- `DEC [HL]` (0x35/0xFF; R231) -/
  | decHl
  /-- `LD [HL],d8` (0x36/0xFF; R164) -/
  | ldHlD8
  /-- `HALT` (0x76/0xFF; R321) -/
  | halt
  /-- `JP a16` (0xC3/0xFF; R291) -/
  | jpA16
  /-- `RET` (0xC9/0xFF; R298) -/
  | ret
  /-- `RETI` (0xD9/0xFF; R300) -/
  | reti
  /-- `JP HL` (0xE9/0xFF; R293) -/
  | jpHl
  /-- `LD SP,HL` (0xF9/0xFF; R192) -/
  | ldSpHl
  /-- `PREFIX CB` (0xCB/0xFF, `prefix` row; R325) -/
  | prefixCb
  /-- `CALL a16` (0xCD/0xFF; R296) -/
  | callA16
  /-- `LDH [a8],A` (0xE0/0xFF; R176) -/
  | ldhA8A
  /-- `LDH A,[a8]` (0xF0/0xFF; R175) -/
  | ldhAA8
  /-- `LDH [C],A` (0xE2/0xFF; R178) -/
  | ldhCA
  /-- `LDH A,[C]` (0xF2/0xFF; R177) -/
  | ldhAC
  /-- `ADD SP,e8` (0xE8/0xFF; R254) -/
  | addSpE8
  /-- `LD HL,SP+e8` (0xF8/0xFF; R193) -/
  | ldHlSpE8
  /-- `LD [a16],A` (0xEA/0xFF; R174) -/
  | ldA16A
  /-- `LD A,[a16]` (0xFA/0xFF; R173) -/
  | ldAA16
  /-- `DI` (0xF3/0xFF; R323) -/
  | di
  /-- `EI` (0xFB/0xFF; R324) -/
  | ei
  /-- `POP AF` (0xF1/0xFF; R196) -/
  | popAf
  /-- `ILLEGAL_D3` (0xD3/0xFF, `illegal` row; R326) -/
  | illegalD3
  /-- `ILLEGAL_DB` (0xDB/0xFF, `illegal` row; R326) -/
  | illegalDB
  /-- `ILLEGAL_DD` (0xDD/0xFF, `illegal` row; R326) -/
  | illegalDD
  /-- `ILLEGAL_E3` (0xE3/0xFF, `illegal` row; R326) -/
  | illegalE3
  /-- `ILLEGAL_E4` (0xE4/0xFF, `illegal` row; R326) -/
  | illegalE4
  /-- `ILLEGAL_EB` (0xEB/0xFF, `illegal` row; R326) -/
  | illegalEB
  /-- `ILLEGAL_EC` (0xEC/0xFF, `illegal` row; R326) -/
  | illegalEC
  /-- `ILLEGAL_ED` (0xED/0xFF, `illegal` row; R326) -/
  | illegalED
  /-- `ILLEGAL_F4` (0xF4/0xFF, `illegal` row; R326) -/
  | illegalF4
  /-- `ILLEGAL_FC` (0xFC/0xFF, `illegal` row; R326) -/
  | illegalFC
  /-- `ILLEGAL_FD` (0xFD/0xFF, `illegal` row; R326) -/
  | illegalFD
  /-- `ADD A,[HL]` (0x86/0xFF; R212) -/
  | addAHl
  /-- `ADC A,[HL]` (0x8E/0xFF; R214) -/
  | adcAHl
  /-- `SUB A,[HL]` (0x96/0xFF; R216) -/
  | subAHl
  /-- `SBC A,[HL]` (0x9E/0xFF; R218) -/
  | sbcAHl
  /-- `AND A,[HL]` (0xA6/0xFF; R220) -/
  | andAHl
  /-- `XOR A,[HL]` (0xAE/0xFF; R222) -/
  | xorAHl
  /-- `OR A,[HL]` (0xB6/0xFF; R224) -/
  | orAHl
  /-- `CP A,[HL]` (0xBE/0xFF; R226) -/
  | cpAHl
  /-- `ADD A,d8` (0xC6/0xFF; R213) -/
  | addAD8
  /-- `ADC A,d8` (0xCE/0xFF; R215) -/
  | adcAD8
  /-- `SUB A,d8` (0xD6/0xFF; R217) -/
  | subAD8
  /-- `SBC A,d8` (0xDE/0xFF; R219) -/
  | sbcAD8
  /-- `AND A,d8` (0xE6/0xFF; R221) -/
  | andAD8
  /-- `XOR A,d8` (0xEE/0xFF; R223) -/
  | xorAD8
  /-- `OR A,d8` (0xF6/0xFF; R225) -/
  | orAD8
  /-- `CP A,d8` (0xFE/0xFF; R227) -/
  | cpAD8
  /-- `JR cc,e8` (0x20/0xE7; R295) -/
  | jrCcE8 (cc : Cond)
  /-- `LD r16,d16` (0x01/0xCF; R190) -/
  | ldR16D16 (r : R16)
  /-- `ADD HL,r16` (0x09/0xCF; R251) -/
  | addHlR16 (r : R16)
  /-- `INC r16` (0x03/0xCF; R252) -/
  | incR16 (r : R16)
  /-- `DEC r16` (0x0B/0xCF; R253) -/
  | decR16 (r : R16)
  /-- `INC r8` (0x04/0xC7; R228) -/
  | incR8 (r : Reg8)
  /-- `DEC r8` (0x05/0xC7; R230) -/
  | decR8 (r : Reg8)
  /-- `LD r8,d8` (0x06/0xC7; R163) -/
  | ldR8D8 (r : Reg8)
  /-- `LD r8,[HL]` (0x46/0xC7; R161) -/
  | ldR8Hl (r : Reg8)
  /-- `LD [HL],r8` (0x70/0xF8; R162) -/
  | ldHlR8 (r : Reg8)
  /-- `LD r8,r8'` (0x40/0xC0; R160) -/
  | ldR8R8 (dst : Reg8) (r : Reg8)
  /-- `ADD A,r8` (0x80/0xF8; R212) -/
  | addAR8 (r : Reg8)
  /-- `ADC A,r8` (0x88/0xF8; R214) -/
  | adcAR8 (r : Reg8)
  /-- `SUB A,r8` (0x90/0xF8; R216) -/
  | subAR8 (r : Reg8)
  /-- `SBC A,r8` (0x98/0xF8; R218) -/
  | sbcAR8 (r : Reg8)
  /-- `AND A,r8` (0xA0/0xF8; R220) -/
  | andAR8 (r : Reg8)
  /-- `XOR A,r8` (0xA8/0xF8; R222) -/
  | xorAR8 (r : Reg8)
  /-- `OR A,r8` (0xB0/0xF8; R224) -/
  | orAR8 (r : Reg8)
  /-- `CP A,r8` (0xB8/0xF8; R226) -/
  | cpAR8 (r : Reg8)
  /-- `RET cc` (0xC0/0xE7; R299) -/
  | retCc (cc : Cond)
  /-- `JP cc,a16` (0xC2/0xE7; R292) -/
  | jpCcA16 (cc : Cond)
  /-- `CALL cc,a16` (0xC4/0xE7; R297) -/
  | callCcA16 (cc : Cond)
  /-- `POP r16` (0xC1/0xCF; R195) -/
  | popR16 (p : R16Stk)
  /-- `PUSH r16` (0xC5/0xCF; R194) -/
  | pushR16 (p : R16Stk)
  /-- `RST t` (0xC7/0xC7; R301) -/
  | rstT (t : BitVec 3)
  /-- `RLC [HL]` (0xCB space, 0x06/0xFF; R265) -/
  | rlcHl
  /-- `RRC [HL]` (0xCB space, 0x0E/0xFF; R266) -/
  | rrcHl
  /-- `RL [HL]` (0xCB space, 0x16/0xFF; R267) -/
  | rlHl
  /-- `RR [HL]` (0xCB space, 0x1E/0xFF; R268) -/
  | rrHl
  /-- `SLA [HL]` (0xCB space, 0x26/0xFF; R269) -/
  | slaHl
  /-- `SRA [HL]` (0xCB space, 0x2E/0xFF; R270) -/
  | sraHl
  /-- `SWAP [HL]` (0xCB space, 0x36/0xFF; R271) -/
  | swapHl
  /-- `SRL [HL]` (0xCB space, 0x3E/0xFF; R272) -/
  | srlHl
  /-- `RLC r8` (0xCB space, 0x00/0xF8; R265) -/
  | rlcR8 (r : Reg8)
  /-- `RRC r8` (0xCB space, 0x08/0xF8; R266) -/
  | rrcR8 (r : Reg8)
  /-- `RL r8` (0xCB space, 0x10/0xF8; R267) -/
  | rlR8 (r : Reg8)
  /-- `RR r8` (0xCB space, 0x18/0xF8; R268) -/
  | rrR8 (r : Reg8)
  /-- `SLA r8` (0xCB space, 0x20/0xF8; R269) -/
  | slaR8 (r : Reg8)
  /-- `SRA r8` (0xCB space, 0x28/0xF8; R270) -/
  | sraR8 (r : Reg8)
  /-- `SWAP r8` (0xCB space, 0x30/0xF8; R271) -/
  | swapR8 (r : Reg8)
  /-- `SRL r8` (0xCB space, 0x38/0xF8; R272) -/
  | srlR8 (r : Reg8)
  /-- `BIT b,[HL]` (0xCB space, 0x46/0xC7; R273) -/
  | bitHl (b : BitVec 3)
  /-- `BIT b,r8` (0xCB space, 0x40/0xC0; R273) -/
  | bitR8 (b : BitVec 3) (r : Reg8)
  /-- `RES b,[HL]` (0xCB space, 0x86/0xC7; R274) -/
  | resHl (b : BitVec 3)
  /-- `RES b,r8` (0xCB space, 0x80/0xC0; R274) -/
  | resR8 (b : BitVec 3) (r : Reg8)
  /-- `SET b,[HL]` (0xCB space, 0xC6/0xC7; R275) -/
  | setHl (b : BitVec 3)
  /-- `SET b,r8` (0xCB space, 0xC0/0xC0; R275) -/
  | setR8 (b : BitVec 3) (r : Reg8)
  deriving DecidableEq, Repr

end Sys2Proof
end

