-- ==== Sys2Proof/Machine/Flags.lean ====
section
/-! DEFINITION. The flags (spec/10_state.md R21), the carry and borrow helpers (spec/43_alu8.md R210, R211), and every
computation of a result with its flags. -/

namespace Sys2Proof.Machine

/-! ### Reading and writing the flags -/

/-- `zf`, bit 7 of `F` (R21). -/
def State.zf (s : State) : Bool := s.f.getLsbD 7

/-- `nf`, bit 6 of `F` (R21). -/
def State.nf (s : State) : Bool := s.f.getLsbD 6

/-- `hf`, bit 5 of `F` (R21). -/
def State.hf (s : State) : Bool := s.f.getLsbD 5

/-- `cf`, bit 4 of `F` (R21). -/
def State.cf (s : State) : Bool := s.f.getLsbD 4

/-- `Flags(z, n, h, c)` (R8): the byte with all four flags and zeros in bits 3..0. -/
def flags (z n h c : Bool) : Byte :=
  BitVec.ofBool z ++ BitVec.ofBool n ++ BitVec.ofBool h ++ BitVec.ofBool c ++ 0#4

/-- `F <- v`. -/
def State.setF (s : State) (v : Byte) : State := { s with f := v }

/-- `Cond(cc)` (R290). -/
def condHolds (cc : Cond) (s : State) : Bool :=
  match cc with
  | .nz => !s.zf
  | .z => s.zf
  | .nc => !s.cf
  | .c => s.cf

/-! ### Carry and borrow -/

/-- `CarryOut(n, a, b, ci)` (R210), as integers; `a & m` with `m = 2^(n+1) - 1` is `a` modulo `2^(n+1)`. -/
def carryOut (n a b ci : Nat) : Bool :=
  decide (a % 2 ^ (n + 1) + b % 2 ^ (n + 1) + ci > 2 ^ (n + 1) - 1)

/-- `BorrowOut(n, a, b, ci)` (R211), as integers. -/
def borrowOut (n a b ci : Nat) : Bool :=
  decide (a % 2 ^ (n + 1) < b % 2 ^ (n + 1) + ci)

/-! ### The accumulator operations (R212 to R227): new `A`, `F` -/

/-- `A + x + ci` with its flags (R212, R214). -/
def addFlags (a x : Byte) (ci : Bool) : Byte × Byte :=
  let r := a + x + (BitVec.ofBool ci).setWidth 8
  (r, flags (r == 0) false (carryOut 3 a.toNat x.toNat ci.toNat) (carryOut 7 a.toNat x.toNat ci.toNat))

/-- `A - x - ci` with its flags (R216, R218, R226). -/
def subFlags (a x : Byte) (ci : Bool) : Byte × Byte :=
  let r := a - x - (BitVec.ofBool ci).setWidth 8
  (r, flags (r == 0) true (borrowOut 3 a.toNat x.toNat ci.toNat) (borrowOut 7 a.toNat x.toNat ci.toNat))

/-- `A & x` with its flags (R220). -/
def andFlags (a x : Byte) : Byte × Byte :=
  (a &&& x, flags (a &&& x == 0) false true false)

/-- `A ^ x` with its flags (R222). -/
def xorFlags (a x : Byte) : Byte × Byte :=
  (a ^^^ x, flags (a ^^^ x == 0) false false false)

/-- `A | x` with its flags (R224). -/
def orFlags (a x : Byte) : Byte × Byte :=
  (a ||| x, flags (a ||| x == 0) false false false)

/-! ### Increment, decrement, decimal adjust -/

/-- `v + 1` with its flags (R228): `cf` is copied. -/
def incFlags (v : Byte) (cf : Bool) : Byte × Byte :=
  (v + 1, flags (v + 1 == 0) false (carryOut 3 v.toNat 1 0) cf)

/-- `v - 1` with its flags (R230): `cf` is copied. -/
def decFlags (v : Byte) (cf : Bool) : Byte × Byte :=
  (v - 1, flags (v - 1 == 0) true (borrowOut 3 v.toNat 1 0) cf)

/-- The addition-mode test of `DAA` on the low nibble (R232). -/
def daaAddsSix (a : Byte) (h : Bool) : Bool := h || decide ((a &&& 0x0F).toNat > 9)

/-- The addition-mode test of `DAA` on the value (R232): the entry value of `A`, the spec's decision D12. -/
def daaAddsSixty (a : Byte) (c : Bool) : Bool := c || decide (a.toNat > 0x99)

/-- The amount `DAA` corrects by (R232). -/
def daaAdjust (six sixty : Bool) : Byte := (if six then 0x06 else 0) + (if sixty then 0x60 else 0)

/-- `DAA` (R232): the corrected value and the flags, from the entry values of `A`, `nf`, `hf`, `cf`. -/
def daaFlags (a : Byte) (n h c : Bool) : Byte × Byte :=
  if n then
    let r := a - daaAdjust h c
    (r, flags (r == 0) n false c)
  else
    let r := a + daaAdjust (daaAddsSix a h) (daaAddsSixty a c)
    (r, flags (r == 0) n false (daaAddsSixty a c))

/-! ### 16-bit arithmetic -/

/-- The `F` of `ADD HL,r16` (R251): bits 11 and 15, `zf` copied. -/
def addHlFlags (z : Bool) (a b : Word) : Byte :=
  flags z false (carryOut 11 a.toNat b.toNat 0) (carryOut 15 a.toNat b.toNat 0)

/-- `SpRel(sp, e)` (R250) for either value of `SPREL_FLAGS`: the sum and the `F` it leaves. -/
def spRel (p : Config.SprelFlags) (sp : Word) (e : Byte) : Word × Byte :=
  let off := sext16 e
  match p with
  | .doc => (sp + off, flags false false (carryOut 11 sp.toNat off.toNat 0) (carryOut 15 sp.toNat off.toNat 0))
  | .lr35902 =>
    (sp + off, flags false false (carryOut 3 (loByte sp).toNat e.toNat 0) (carryOut 7 (loByte sp).toNat e.toNat 0))

/-! ### Rotates and shifts (R260 to R272): the result and the bit moved out -/

/-- Rotate left (R260, R265). -/
def rotLeft (v : Byte) (_cf : Bool) : Byte × Bool := (v.extractLsb' 0 7 ++ v.extractLsb' 7 1, v.getLsbD 7)

/-- Rotate right (R261, R266). -/
def rotRight (v : Byte) (_cf : Bool) : Byte × Bool := (v.extractLsb' 0 1 ++ v.extractLsb' 1 7, v.getLsbD 0)

/-- Rotate left through the carry (R262, R267). -/
def rotLeftCarry (v : Byte) (cf : Bool) : Byte × Bool := (v.extractLsb' 0 7 ++ BitVec.ofBool cf, v.getLsbD 7)

/-- Rotate right through the carry (R263, R268). -/
def rotRightCarry (v : Byte) (cf : Bool) : Byte × Bool := (BitVec.ofBool cf ++ v.extractLsb' 1 7, v.getLsbD 0)

/-- Shift left (R269). -/
def shiftLeft (v : Byte) (_cf : Bool) : Byte × Bool := (v.extractLsb' 0 7 ++ 0#1, v.getLsbD 7)

/-- Arithmetic shift right, bit 7 kept (R270). -/
def shiftRightArith (v : Byte) (_cf : Bool) : Byte × Bool := (v.extractLsb' 7 1 ++ v.extractLsb' 1 7, v.getLsbD 0)

/-- Exchange the nibbles (R271); nothing is moved out. -/
def swapNibbles (v : Byte) (_cf : Bool) : Byte × Bool := (v.extractLsb' 0 4 ++ v.extractLsb' 4 4, false)

/-- Logical shift right (R272). -/
def shiftRightLogic (v : Byte) (_cf : Bool) : Byte × Bool := (0#1 ++ v.extractLsb' 1 7, v.getLsbD 0)

/-- The `F` of an accumulator rotate (R260 to R263): `zf` is cleared, `cf` is the bit moved out. -/
def accRotFlags (p : Byte × Bool) : Byte := flags false false false p.2

/-- The `F` of a prefixed rotate, shift or `SWAP` (R265 to R272). -/
def rotFlags (p : Byte × Bool) : Byte := flags (p.1 == 0) false false p.2

/-- The `F` of `BIT b` (R273): `zf` is the tested bit inverted, `cf` is copied. -/
def bitFlags (b : BitVec 3) (v : Byte) (cf : Bool) : Byte := flags (!v.getLsbD b.toNat) false true cf

/-- `RES b` (R274): `v & ~(1 << b)`. -/
def resBit (b : BitVec 3) (v : Byte) : Byte := v &&& ~~~(1#8 <<< b.toNat)

/-- `SET b` (R275): `v | (1 << b)`. -/
def setBit (b : BitVec 3) (v : Byte) : Byte := v ||| (1#8 <<< b.toNat)

end Sys2Proof.Machine
end

