-- ==== Sys2Proof/Machine/Operands.lean ====
section
/-! DEFINITION. The registers an instruction names: the 8-bit file, the 16-bit views (spec/10_state.md R22), the operand
tables (R25, R26). No register is hard-wired (R20). The memory operands (`[HL]`, immediates, the stack) are bus operations:
Ops.lean. -/

namespace Sys2Proof.Machine

/-- `AF = {A, F}` (R22). -/
def State.af (s : State) : Word := word s.a s.f

/-- `BC = {B, C}` (R22). -/
def State.bc (s : State) : Word := word s.b s.c

/-- `DE = {D, E}` (R22). -/
def State.de (s : State) : Word := word s.d s.e

/-- `HL = {H, L}` (R22). -/
def State.hl (s : State) : Word := word s.h s.l

/-- `r8[code]` as a source, for a register code (R25, R135). -/
def State.reg (s : State) : Reg8 → Byte
  | .b => s.b
  | .c => s.c
  | .d => s.d
  | .e => s.e
  | .h => s.h
  | .l => s.l
  | .a => s.a

/-- `r8[code] <- v`, for a register code (R25, R136). -/
def State.setReg (s : State) (r : Reg8) (v : Byte) : State :=
  match r with
  | .b => { s with b := v }
  | .c => { s with c := v }
  | .d => { s with d := v }
  | .e => { s with e := v }
  | .h => { s with h := v }
  | .l => { s with l := v }
  | .a => { s with a := v }

/-- `HL <- w` (R22). -/
def State.setHl (s : State) (w : Word) : State := { s with h := hiByte w, l := loByte w }

/-- `r16[code]` (R26). -/
def State.reg16 (s : State) : R16 → Word
  | .bc => s.bc
  | .de => s.de
  | .hl => s.hl
  | .sp => s.sp

/-- `r16[code] <- w` (R26): a view writes its two halves (R22). -/
def State.setReg16 (s : State) (r : R16) (w : Word) : State :=
  match r with
  | .bc => { s with b := hiByte w, c := loByte w }
  | .de => { s with d := hiByte w, e := loByte w }
  | .hl => s.setHl w
  | .sp => { s with sp := w }

/-- `r16stk[code]` (R26). -/
def State.regStk (s : State) : R16Stk → Word
  | .bc => s.bc
  | .de => s.de
  | .hl => s.hl
  | .af => s.af

/-- `r16stk[code] <- w` (R26): a write to `AF` writes `F <- w[7:0] & 0xF0` (R22). -/
def State.setRegStk (s : State) (p : R16Stk) (w : Word) : State :=
  match p with
  | .bc => { s with b := hiByte w, c := loByte w }
  | .de => { s with d := hiByte w, e := loByte w }
  | .hl => s.setHl w
  | .af => { s with a := hiByte w, f := loByte w &&& 0xF0 }

end Sys2Proof.Machine
end

