-- ==== Sys2Proof/Machine/Ops.lean ====
section
/-! DEFINITION. The shared operations: the bus (spec/20_memory.md R60 to R62), operand fetch and stack (spec/40_step_engine.md
R135 to R140), cycle accounting (R141), the interrupt registers, the taking of an interrupt and the return from one
(spec/60_exceptions.md R334 to R343). Each operation that touches the bus takes what follows it as its last argument, so
that a meaning reads in the order of the rule's pseudocode and stops at the first bus operation that fails. -/

namespace Sys2Proof.Machine

/-! ### The bus -/

/-- The address lies in the range. -/
def Region.covers (r : Region) (addr : Word) : Bool := decide (r.first ≤ addr) && decide (addr ≤ r.last)

/-- How a list of ranges answers a read: as the first range that covers the address and claims it for reads (R62). -/
def readRuleIn (addr : Word) : List Region → ReadRule
  | [] => .refused
  | r :: rs => if r.covers addr && r.reads != .refused then r.reads else readRuleIn addr rs

/-- How a list of ranges answers a write (R62). -/
def writeRuleIn (addr : Word) : List Region → WriteRule
  | [] => .refused
  | r :: rs => if r.covers addr && r.writes != .refused then r.writes else writeRuleIn addr rs

/-- How the bus answers a read of the address. -/
def State.readRule (s : State) (addr : Word) : ReadRule := readRuleIn addr s.claims

/-- How the bus answers a write to the address. -/
def State.writeRule (s : State) (addr : Word) : WriteRule := writeRuleIn addr s.claims

/-- The byte of plain memory at an address. -/
def State.memAt (s : State) (addr : Word) : Byte := s.mem.read addr.toNat

/-- The byte of plain memory changes, whatever the bus claims. -/
def State.store (s : State) (addr : Word) (v : Byte) : State := { s with mem := s.mem.write addr.toNat v }

/-- `read` (R60): the byte, and the bus's own state after it; nothing where the bus does not answer. -/
def State.readAnswer (s : State) (addr : Word) : Option (Byte × Nat) :=
  match s.readRule addr with
  | .refused => none
  | .memory => some (s.memAt addr, s.device)
  | .device => Config.deviceRead s.device addr

/-- `write` (R60): the plain memory and the bus's own state after it; nothing where the bus does not answer. -/
def State.writeAnswer (s : State) (addr : Word) (v : Byte) : Option (Memory × Nat) :=
  match s.writeRule addr with
  | .refused => none
  | .memory => some (s.mem.write addr.toNat v, s.device)
  | .dropped => some (s.mem, s.device)
  | .device => (Config.deviceWrite s.device addr v).map fun d => (s.mem, d)

/-- The bus answers a read of the address now (R62). -/
def State.canRead (s : State) (addr : Word) : Bool := (s.readAnswer addr).isSome

/-- The bus takes a write of the byte at the address now (R62). -/
def State.canWrite (s : State) (addr : Word) (v : Byte) : Bool := (s.writeAnswer addr v).isSome

/-- The byte the bus answers a read of the address with now; of no meaning where it does not answer. -/
def State.byteAt (s : State) (addr : Word) : Byte := ((s.readAnswer addr).getD (0, 0)).1

/-- The state after a read of the address: what the read did to the bus (R80), and the operation recorded. -/
def State.afterRead (s : State) (addr : Word) : State :=
  { s with
    device := ((s.readAnswer addr).getD (0, s.device)).2
    busLog := .read addr (s.byteAt addr) :: s.busLog }

/-- The state after a write of a byte at the address: what the write did to the bus, and the operation recorded. -/
def State.afterWrite (s : State) (addr : Word) (v : Byte) : State :=
  { s with
    mem := ((s.writeAnswer addr v).getD (s.mem, s.device)).1
    device := ((s.writeAnswer addr v).getD (s.mem, s.device)).2
    busLog := .write addr v :: s.busLog }

/-- `MemRead(addr, 1)` (R60, R332). -/
def busRead (addr : Word) (s : State) (k : Byte → State → Result) : Result :=
  if s.canRead addr then k (s.byteAt addr) (s.afterRead addr) else .fault (.outOfRange addr .read)

/-- `MemWrite(addr, 1, v)` (R60, R332). -/
def busWrite (addr : Word) (v : Byte) (s : State) (k : State → Result) : Result :=
  if s.canWrite addr v then k (s.afterWrite addr v) else .fault (.outOfRange addr .write)

/-! ### Cycle accounting -/

/-- `cycles n` (R141): the cost is added to `ticks`. -/
def State.charge (s : State) (n : Nat) : State := { s with ticks := s.ticks + n }

/-- The end of a rule: `cycles n`. -/
def finish (n : Nat) (s : State) : Result := .next (s.charge n)

/-! ### Operand fetch -/

/-- `PC <- PC + 1`, modulo 65536 (R24, R69). -/
def State.advancePc (s : State) : State := { s with pc := s.pc + 1 }

/-- `PC <- target`. -/
def State.jump (s : State) (target : Word) : State := { s with pc := target }

/-- `Imm8()` (R137). -/
def imm8 (s : State) (k : Byte → State → Result) : Result :=
  busRead s.pc s fun b s => k b s.advancePc

/-- `Imm16()` (R138): low byte first. -/
def imm16 (s : State) (k : Word → State → Result) : Result :=
  imm8 s fun lo s => imm8 s fun hi s => k (word hi lo) s

/-! ### The stack -/

/-- `SP <- w` (R23). -/
def State.setSp (s : State) (w : Word) : State := { s with sp := w }

/-- `Push16(w)` (R139): high byte first, each at a freshly decremented address. -/
def push16 (w : Word) (s : State) (k : State → Result) : Result :=
  busWrite (s.sp - 1) (hiByte w) (s.setSp (s.sp - 1)) fun s => busWrite (s.sp - 1) (loByte w) (s.setSp (s.sp - 1)) k

/-- `Pop16()` (R140): low byte first, then `SP + 2`. -/
def pop16 (s : State) (k : Word → State → Result) : Result :=
  busRead s.sp s fun lo s => busRead (s.sp + 1) s fun hi s => k (word hi lo) (s.setSp (s.sp + 2))

/-! ### Interrupts -/

/-- The address of `IE` (R34). -/
def ieAddr : Word := 0xFFFF

/-- The address of `IF` (R35). -/
def ifAddr : Word := 0xFF0F

/-- `ReadIrqRegs()` (R336) in either order. -/
def readIrqRegsIn (o : Config.IrqReadOrder) (s : State) (k : Byte → Byte → State → Result) : Result :=
  match o with
  | .ieFirst => busRead ieAddr s fun ie s => busRead ifAddr s fun iff s => k ie iff s
  | .ifFirst => busRead ifAddr s fun iff s => busRead ieAddr s fun ie s => k ie iff s

/-- `ReadIrqRegs()` (R336). -/
def readIrqRegs (s : State) (k : Byte → Byte → State → Result) : Result := readIrqRegsIn Config.irqReadOrder s k

/-- `v = IE & IF & 0x1F` (R335). -/
def pendingOf (ie iff : Byte) : Byte := ie &&& iff &&& 0x1F

/-- The lowest set bit of `v` among bits 0 to 4 (R340: bit 0 is the highest priority). Used for `v` other than 0 only. -/
def lowestBit (v : Byte) : Nat :=
  if v.getLsbD 0 then 0
  else if v.getLsbD 1 then 1
  else if v.getLsbD 2 then 2
  else if v.getLsbD 3 then 3
  else 4

/-- `Vector(k)` (R334). -/
def vectorOf (k : Nat) : Word := 0x0040 + 8 * BitVec.ofNat 16 k

/-- `if & ~(1 << k)` (R340): the byte read, with the taken bit cleared (the spec's decision D4). -/
def clearRequest (iff : Byte) (k : Nat) : Byte := iff &&& ~~~(1#8 <<< k)

/-- `Dispatch(if, v)` (R340), the one way an interrupt is taken: clear the request in `IF`, push `PC`, go to the source's
vector, clear `IME`; 5 cycles. The order of the bus writes is the spec's decision D5. -/
def takeInterrupt (iff v : Byte) (s : State) : Result :=
  busWrite ifAddr (clearRequest iff (lowestBit v)) s fun s =>
    push16 s.pc s fun s => finish 5 { s with pc := vectorOf (lowestBit v), ime := false }

/-- The return from an interrupt (R300, R343): pop `PC`, set `IME` at once; 4 cycles. -/
def returnFromInterrupt (s : State) : Result :=
  pop16 s fun w s => finish 4 { s with pc := w, ime := true }

end Sys2Proof.Machine
end

