-- ==== Sys2Proof/Machine/Alu16.lean ====
section
/-! DEFINITION. 16-bit arithmetic (spec/44_alu16.md R250 to R254). -/

namespace Sys2Proof.Machine

/-- R251 `ADD HL,r16`: both addends are old values. -/
def execAddHlR16 (r : R16) (s : State) : Result :=
  finish 2 ((s.setHl (s.hl + s.reg16 r)).setF (addHlFlags s.zf s.hl (s.reg16 r)))

/-- R252 `INC r16`: no flag. -/
def execIncR16 (r : R16) (s : State) : Result := finish 2 (s.setReg16 r (s.reg16 r + 1))

/-- R253 `DEC r16`: no flag. -/
def execDecR16 (r : R16) (s : State) : Result := finish 2 (s.setReg16 r (s.reg16 r - 1))

/-- R254 `ADD SP,e8` with the flags of a given `SPREL_FLAGS`. -/
def addSpE8 (p : Config.SprelFlags) (s : State) : Result :=
  imm8 s fun e s => finish 4 { s with sp := (spRel p s.sp e).1, f := (spRel p s.sp e).2 }

/-- R254 `ADD SP,e8`. -/
def execAddSpE8 (s : State) : Result := addSpE8 Config.sprelFlags s

end Sys2Proof.Machine
end

