-- ==== Sys2Proof/Machine/Alu8.lean ====
section
/-! DEFINITION. 8-bit arithmetic and logic (spec/43_alu8.md R212 to R236). The operand of an accumulator operation is
evaluated once, before any register is written (R236). -/

namespace Sys2Proof.Machine

/-! ### The eight accumulator operations on an operand byte -/

/-- `A` and `F` both written. -/
def State.setAF (s : State) (p : Byte × Byte) : State := { s with a := p.1, f := p.2 }

/-- `ADD` (R212). -/
def aluAdd (x : Byte) (s : State) : State := s.setAF (addFlags s.a x false)

/-- `ADC` (R214): the old `cf` enters the sum and both carry tests. -/
def aluAdc (x : Byte) (s : State) : State := s.setAF (addFlags s.a x s.cf)

/-- `SUB` (R216). -/
def aluSub (x : Byte) (s : State) : State := s.setAF (subFlags s.a x false)

/-- `SBC` (R218): the old `cf` enters the difference and both borrow tests. -/
def aluSbc (x : Byte) (s : State) : State := s.setAF (subFlags s.a x s.cf)

/-- `AND` (R220). -/
def aluAnd (x : Byte) (s : State) : State := s.setAF (andFlags s.a x)

/-- `XOR` (R222). -/
def aluXor (x : Byte) (s : State) : State := s.setAF (xorFlags s.a x)

/-- `OR` (R224). -/
def aluOr (x : Byte) (s : State) : State := s.setAF (orFlags s.a x)

/-- `CP` (R226): the flags of `SUB`; `A` is not written. -/
def aluCp (x : Byte) (s : State) : State := s.setF (subFlags s.a x false).2

/-! ### The three operand forms -/

/-- `x = r8[z]`, a register: 1 cycle. -/
def aluReg (op : Byte → State → State) (r : Reg8) (s : State) : Result := finish 1 (op (s.reg r) s)

/-- `x = [HL]`: one read, 2 cycles. -/
def aluHl (op : Byte → State → State) (s : State) : Result := busRead s.hl s fun x s => finish 2 (op x s)

/-- `x = d8`: 2 cycles. -/
def aluImm (op : Byte → State → State) (s : State) : Result := imm8 s fun x s => finish 2 (op x s)

/-- R212 `ADD A,r8`. -/
def execAddAR8 (r : Reg8) (s : State) : Result := aluReg aluAdd r s

/-- R212 `ADD A,[HL]`. -/
def execAddAHl (s : State) : Result := aluHl aluAdd s

/-- R213 `ADD A,d8`. -/
def execAddAD8 (s : State) : Result := aluImm aluAdd s

/-- R214 `ADC A,r8`. -/
def execAdcAR8 (r : Reg8) (s : State) : Result := aluReg aluAdc r s

/-- R214 `ADC A,[HL]`. -/
def execAdcAHl (s : State) : Result := aluHl aluAdc s

/-- R215 `ADC A,d8`. -/
def execAdcAD8 (s : State) : Result := aluImm aluAdc s

/-- R216 `SUB A,r8`. -/
def execSubAR8 (r : Reg8) (s : State) : Result := aluReg aluSub r s

/-- R216 `SUB A,[HL]`. -/
def execSubAHl (s : State) : Result := aluHl aluSub s

/-- R217 `SUB A,d8`. -/
def execSubAD8 (s : State) : Result := aluImm aluSub s

/-- R218 `SBC A,r8`. -/
def execSbcAR8 (r : Reg8) (s : State) : Result := aluReg aluSbc r s

/-- R218 `SBC A,[HL]`. -/
def execSbcAHl (s : State) : Result := aluHl aluSbc s

/-- R219 `SBC A,d8`. -/
def execSbcAD8 (s : State) : Result := aluImm aluSbc s

/-- R220 `AND A,r8`. -/
def execAndAR8 (r : Reg8) (s : State) : Result := aluReg aluAnd r s

/-- R220 `AND A,[HL]`. -/
def execAndAHl (s : State) : Result := aluHl aluAnd s

/-- R221 `AND A,d8`. -/
def execAndAD8 (s : State) : Result := aluImm aluAnd s

/-- R222 `XOR A,r8`. -/
def execXorAR8 (r : Reg8) (s : State) : Result := aluReg aluXor r s

/-- R222 `XOR A,[HL]`. -/
def execXorAHl (s : State) : Result := aluHl aluXor s

/-- R223 `XOR A,d8`. -/
def execXorAD8 (s : State) : Result := aluImm aluXor s

/-- R224 `OR A,r8`. -/
def execOrAR8 (r : Reg8) (s : State) : Result := aluReg aluOr r s

/-- R224 `OR A,[HL]`. -/
def execOrAHl (s : State) : Result := aluHl aluOr s

/-- R225 `OR A,d8`. -/
def execOrAD8 (s : State) : Result := aluImm aluOr s

/-- R226 `CP A,r8`. -/
def execCpAR8 (r : Reg8) (s : State) : Result := aluReg aluCp r s

/-- R226 `CP A,[HL]`. -/
def execCpAHl (s : State) : Result := aluHl aluCp s

/-- R227 `CP A,d8`. -/
def execCpAD8 (s : State) : Result := aluImm aluCp s

/-! ### Increment and decrement -/

/-- `r8[y] <- op(r8[y])` with the flags; 1 cycle. -/
def stepReg (op : Byte → Bool → Byte × Byte) (r : Reg8) (s : State) : Result :=
  finish 1 ((s.setF (op (s.reg r) s.cf).2).setReg r (op (s.reg r) s.cf).1)

/-- `[HL] <- op([HL])` with the flags: one read, one write, 3 cycles. -/
def stepHl (op : Byte → Bool → Byte × Byte) (s : State) : Result :=
  busRead s.hl s fun v s =>
    busWrite s.hl (op v s.cf).1 (s.setF (op v s.cf).2) (finish 3)

/-- R228 `INC r8`. -/
def execIncR8 (r : Reg8) (s : State) : Result := stepReg incFlags r s

/-- R229 `INC [HL]`. -/
def execIncHl (s : State) : Result := stepHl incFlags s

/-- R230 `DEC r8`. -/
def execDecR8 (r : Reg8) (s : State) : Result := stepReg decFlags r s

/-- R231 `DEC [HL]`. -/
def execDecHl (s : State) : Result := stepHl decFlags s

/-! ### Accumulator and flag operations -/

/-- R232 `DAA`. -/
def execDaa (s : State) : Result := finish 1 (s.setAF (daaFlags s.a s.nf s.hf s.cf))

/-- R233 `CPL`. -/
def execCpl (s : State) : Result := finish 1 { s with a := ~~~s.a, f := flags s.zf true true s.cf }

/-- R234 `SCF`. -/
def execScf (s : State) : Result := finish 1 (s.setF (flags s.zf false false true))

/-- R235 `CCF`. -/
def execCcf (s : State) : Result := finish 1 (s.setF (flags s.zf false false (!s.cf)))

end Sys2Proof.Machine
end

