-- ==== Sys2Proof/Machine/ControlFlow.lean ====
section
/-! DEFINITION. Control transfer (spec/46_control_flow.md R290 to R302). A condition is read from the flags before any operand
byte (R290); the operand bytes of a branch not taken are read all the same (the spec's decision D13). -/

namespace Sys2Proof.Machine

/-- `Push16(PC); PC <- a` (R296, R301). -/
def callTo (a : Word) (n : Nat) (s : State) : Result := push16 s.pc s fun s => finish n (s.jump a)

/-- `PC <- Pop16()` (R298). -/
def returnWith (n : Nat) (s : State) : Result := pop16 s fun w s => finish n (s.jump w)

/-- R291 `JP a16`. -/
def execJpA16 (s : State) : Result := imm16 s fun a s => finish 4 (s.jump a)

/-- R292 `JP cc,a16`. -/
def execJpCcA16 (cc : Cond) (s : State) : Result :=
  let t := condHolds cc s
  imm16 s fun a s => if t then finish 4 (s.jump a) else finish 3 s

/-- R293 `JP HL`. -/
def execJpHl (s : State) : Result := finish 1 (s.jump s.hl)

/-- R294 `JR e8`: from the address after the instruction. -/
def execJrE8 (s : State) : Result := imm8 s fun e s => finish 3 (s.jump (s.pc + sext16 e))

/-- R295 `JR cc,e8`. -/
def execJrCcE8 (cc : Cond) (s : State) : Result :=
  let t := condHolds cc s
  imm8 s fun e s => if t then finish 3 (s.jump (s.pc + sext16 e)) else finish 2 s

/-- R296 `CALL a16`. -/
def execCallA16 (s : State) : Result := imm16 s fun a s => callTo a 6 s

/-- R297 `CALL cc,a16`. -/
def execCallCcA16 (cc : Cond) (s : State) : Result :=
  let t := condHolds cc s
  imm16 s fun a s => if t then callTo a 6 s else finish 3 s

/-- R298 `RET`. -/
def execRet (s : State) : Result := returnWith 4 s

/-- R299 `RET cc`: not taken, it reads nothing. -/
def execRetCc (cc : Cond) (s : State) : Result := if condHolds cc s then returnWith 5 s else finish 2 s

/-- R300 `RETI`. -/
def execReti (s : State) : Result := returnFromInterrupt s

/-- R301 `RST t`: a call to `t * 8`. -/
def execRstT (t : BitVec 3) (s : State) : Result := callTo (t.setWidth 16 * 8) 4 s

end Sys2Proof.Machine
end

