-- ==== Sys2Proof/Machine/CpuControl.lean ====
section
/-! DEFINITION. CPU control (spec/47_cpu_control.md R320 to R326). The prefix row is in Prefixed.lean. -/

namespace Sys2Proof.Machine

/-- R320 `NOP`. -/
def execNop (s : State) : Result := finish 1 s

/-- R321 `HALT`: `IE` and `IF` are read again (the spec's decision D3); pending with `IME` = 0 is the halt bug. -/
def execHalt (s : State) : Result :=
  readIrqRegs s fun ie iff s =>
    if pendingOf ie iff != 0 && !s.ime then finish 1 { s with haltBugArmed := true }
    else finish 1 { s with halted := true }

/-- R323 `DI`. -/
def execDi (s : State) : Result := finish 1 { s with ime := false }

/-- R324 `EI`: one instruction late. -/
def execEi (s : State) : Result := finish 1 { s with deferredEnable := true }

/-- `raise InvalidOpcode(op, addr)` (R331): `addr` is where byte 0 was fetched. -/
def raiseInvalidOpcode (op : Byte) (s : State) : Result := .fault (.invalidOpcode op s.opAddr)

/-- R322 `STOP`, byte 0x10, under `STOP_POLICY` = `fault` (log 5). -/
def execStop (s : State) : Result := raiseInvalidOpcode 0x10 s

/-- R326, the illegal byte 0xD3. -/
def execIllegalD3 (s : State) : Result := raiseInvalidOpcode 0xD3 s

/-- R326, the illegal byte 0xDB. -/
def execIllegalDB (s : State) : Result := raiseInvalidOpcode 0xDB s

/-- R326, the illegal byte 0xDD. -/
def execIllegalDD (s : State) : Result := raiseInvalidOpcode 0xDD s

/-- R326, the illegal byte 0xE3. -/
def execIllegalE3 (s : State) : Result := raiseInvalidOpcode 0xE3 s

/-- R326, the illegal byte 0xE4. -/
def execIllegalE4 (s : State) : Result := raiseInvalidOpcode 0xE4 s

/-- R326, the illegal byte 0xEB. -/
def execIllegalEB (s : State) : Result := raiseInvalidOpcode 0xEB s

/-- R326, the illegal byte 0xEC. -/
def execIllegalEC (s : State) : Result := raiseInvalidOpcode 0xEC s

/-- R326, the illegal byte 0xED. -/
def execIllegalED (s : State) : Result := raiseInvalidOpcode 0xED s

/-- R326, the illegal byte 0xF4. -/
def execIllegalF4 (s : State) : Result := raiseInvalidOpcode 0xF4 s

/-- R326, the illegal byte 0xFC. -/
def execIllegalFC (s : State) : Result := raiseInvalidOpcode 0xFC s

/-- R326, the illegal byte 0xFD. -/
def execIllegalFD (s : State) : Result := raiseInvalidOpcode 0xFD s

end Sys2Proof.Machine
end

