-- ==== Sys2Proof/Machine/Load16.lean ====
section
/-! DEFINITION. 16-bit loads and the stack (spec/42_load16_stack.md R190 to R196). -/

namespace Sys2Proof.Machine

/-- R190 `LD r16,d16`. -/
def execLdR16D16 (r : R16) (s : State) : Result := imm16 s fun w s => finish 3 (s.setReg16 r w)

/-- R191 `LD [a16],SP`: low byte first (the spec's decision D17). -/
def execLdA16Sp (s : State) : Result :=
  imm16 s fun a s => busWrite a (loByte s.sp) s fun s => busWrite (a + 1) (hiByte s.sp) s (finish 5)

/-- R192 `LD SP,HL`. -/
def execLdSpHl (s : State) : Result := finish 2 { s with sp := s.hl }

/-- R193 `LD HL,SP+e8` with the flags of a given `SPREL_FLAGS`. -/
def ldHlSpE8 (p : Config.SprelFlags) (s : State) : Result :=
  imm8 s fun e s => finish 3 { s.setHl (spRel p s.sp e).1 with f := (spRel p s.sp e).2 }

/-- R193 `LD HL,SP+e8`. -/
def execLdHlSpE8 (s : State) : Result := ldHlSpE8 Config.sprelFlags s

/-- R194 `PUSH r16`. -/
def execPushR16 (p : R16Stk) (s : State) : Result := push16 (s.regStk p) s (finish 4)

/-- R195 `POP r16`. -/
def execPopR16 (p : R16Stk) (s : State) : Result := pop16 s fun w s => finish 3 (s.setRegStk p w)

/-- R196 `POP AF`: bits 3..0 of the popped flags are dropped (the spec's decision D21). -/
def execPopAf (s : State) : Result := pop16 s fun w s => finish 3 (s.setRegStk .af w)

end Sys2Proof.Machine
end

