-- ==== Sys2Proof/Machine/Load8.lean ====
section
/-! DEFINITION. 8-bit loads and stores (spec/41_load8.md R160 to R178). None reads or writes `F`. -/

namespace Sys2Proof.Machine

/-- The high-page address `0xFF00 + zext_16(x)` (20_memory.md R71). -/
def highPage (x : Byte) : Word := 0xFF00 + zext16 x

/-- `A <- MemRead(addr, 1)`, then what follows. -/
def loadA (addr : Word) (s : State) (k : State → Result) : Result :=
  busRead addr s fun v s => k { s with a := v }

/-- R160 `LD r8,r8'`. -/
def execLdR8R8 (dst r : Reg8) (s : State) : Result := finish 1 (s.setReg dst (s.reg r))

/-- R161 `LD r8,[HL]`: the address is formed before the register is written. -/
def execLdR8Hl (r : Reg8) (s : State) : Result := busRead s.hl s fun v s => finish 2 (s.setReg r v)

/-- R162 `LD [HL],r8`. -/
def execLdHlR8 (r : Reg8) (s : State) : Result := busWrite s.hl (s.reg r) s (finish 2)

/-- R163 `LD r8,d8`. -/
def execLdR8D8 (r : Reg8) (s : State) : Result := imm8 s fun v s => finish 2 (s.setReg r v)

/-- R164 `LD [HL],d8`: the operand is read before the write. -/
def execLdHlD8 (s : State) : Result := imm8 s fun v s => busWrite s.hl v s (finish 3)

/-- R165 `LD A,[BC]`. -/
def execLdABc (s : State) : Result := loadA s.bc s (finish 2)

/-- R166 `LD A,[DE]`. -/
def execLdADe (s : State) : Result := loadA s.de s (finish 2)

/-- R167 `LD [BC],A`. -/
def execLdBcA (s : State) : Result := busWrite s.bc s.a s (finish 2)

/-- R168 `LD [DE],A`. -/
def execLdDeA (s : State) : Result := busWrite s.de s.a s (finish 2)

/-- R169 `LD A,[HL+]`. -/
def execLdAHli (s : State) : Result := loadA s.hl s fun s => finish 2 (s.setHl (s.hl + 1))

/-- R170 `LD A,[HL-]`. -/
def execLdAHld (s : State) : Result := loadA s.hl s fun s => finish 2 (s.setHl (s.hl - 1))

/-- R171 `LD [HL+],A`. -/
def execLdHliA (s : State) : Result := busWrite s.hl s.a s fun s => finish 2 (s.setHl (s.hl + 1))

/-- R172 `LD [HL-],A`. -/
def execLdHldA (s : State) : Result := busWrite s.hl s.a s fun s => finish 2 (s.setHl (s.hl - 1))

/-- R173 `LD A,[a16]`. -/
def execLdAA16 (s : State) : Result := imm16 s fun a s => loadA a s (finish 4)

/-- R174 `LD [a16],A`. -/
def execLdA16A (s : State) : Result := imm16 s fun a s => busWrite a s.a s (finish 4)

/-- R175 `LDH A,[a8]`. -/
def execLdhAA8 (s : State) : Result := imm8 s fun n s => loadA (highPage n) s (finish 3)

/-- R176 `LDH [a8],A`. -/
def execLdhA8A (s : State) : Result := imm8 s fun n s => busWrite (highPage n) s.a s (finish 3)

/-- R177 `LDH A,[C]`: `C` is the register. -/
def execLdhAC (s : State) : Result := loadA (highPage s.c) s (finish 2)

/-- R178 `LDH [C],A`. -/
def execLdhCA (s : State) : Result := busWrite (highPage s.c) s.a s (finish 2)

end Sys2Proof.Machine
end

