-- ==== Sys2Proof/WellFormed.lean ====
section
/-! DEFINITION. Which terms of `Instr` are instructions. The operand types already exclude code 6 from the register rows;
the one constraint of spec/opcode_table.json they leave is that of `POP_r16` (r16stk != 3): `POP AF` is a row of its own
(spec/30_encoding.md R104). -/

namespace Sys2Proof

/-- The constraints of the opcode table that the types of the fields do not enforce. -/
def Instr.wellFormed : Instr → Bool
  | .popR16 p => p != .af
  | _ => true

/-- `i` is an instruction the decoder can give. -/
abbrev WellFormed (i : Instr) : Prop := i.wellFormed = true

end Sys2Proof
end

