-- ==== Sys2Proof/Decode.lean ====
section
/-! DEFINITION. The decoder, total on every byte, and the encoder (spec/30_encoding.md). Decoding is a function of the
opcode byte alone (R103): `decodeOpcode` is the bare table of R105, `decodePrefixed` the prefixed table of R106, `decode`
reads the front of a byte list. The illegal bytes (R107) and byte 0x10 (R108) decode to rows of their own, whose meanings
raise; `decodeLegal` is the source's `decode(byte) -> Option<Instruction>`, which gives nothing for them. -/

namespace Sys2Proof

/-! ### The fields of an opcode byte (R91) -/

/-- `x`, bits 7:6: the block. -/
def fieldX (b : Byte) : BitVec 2 := b.extractLsb' 6 2

/-- `y`, bits 5:3. -/
def fieldY (b : Byte) : BitVec 3 := b.extractLsb' 3 3

/-- `z`, bits 2:0. -/
def fieldZ (b : Byte) : BitVec 3 := b.extractLsb' 0 3

/-- `p`, bits 5:4. -/
def fieldP (b : Byte) : BitVec 2 := b.extractLsb' 4 2

/-- `q`, bit 3. -/
def fieldQ (b : Byte) : BitVec 1 := b.extractLsb' 3 1

/-- `cc`, bits 4:3. -/
def fieldCc (b : Byte) : BitVec 2 := b.extractLsb' 3 2

/-! ### The operand codes (10_state.md R25 to R27; R97, R98) -/

/-- R25: code to operand. -/
def Operand8.ofCode (c : BitVec 3) : Operand8 :=
  match c.toNat with
  | 0 => .reg .b
  | 1 => .reg .c
  | 2 => .reg .d
  | 3 => .reg .e
  | 4 => .reg .h
  | 5 => .reg .l
  | 6 => .hl
  | _ => .reg .a

/-- R25: register to code. -/
def Reg8.code : Reg8 → BitVec 3
  | .b => 0
  | .c => 1
  | .d => 2
  | .e => 3
  | .h => 4
  | .l => 5
  | .a => 7

/-- R25: operand to code; `[HL]` is code 6. -/
def Operand8.code : Operand8 → BitVec 3
  | .reg r => r.code
  | .hl => 6

/-- R26, table `r16`. -/
def R16.ofCode (c : BitVec 2) : R16 :=
  match c.toNat with
  | 0 => .bc
  | 1 => .de
  | 2 => .hl
  | _ => .sp

/-- R26, table `r16`, read backwards. -/
def R16.code : R16 → BitVec 2
  | .bc => 0
  | .de => 1
  | .hl => 2
  | .sp => 3

/-- R26, table `r16stk`. -/
def R16Stk.ofCode (c : BitVec 2) : R16Stk :=
  match c.toNat with
  | 0 => .bc
  | 1 => .de
  | 2 => .hl
  | _ => .af

/-- R26, table `r16stk`, read backwards. -/
def R16Stk.code : R16Stk → BitVec 2
  | .bc => 0
  | .de => 1
  | .hl => 2
  | .af => 3

/-- R27: code to condition. -/
def Cond.ofCode (c : BitVec 2) : Cond :=
  match c.toNat with
  | 0 => .nz
  | 1 => .z
  | 2 => .nc
  | _ => .c

/-- R27: condition to code. -/
def Cond.code : Cond → BitVec 2
  | .nz => 0
  | .z => 1
  | .nc => 2
  | .c => 3

/-- R97: code to operation. -/
def AluOp.ofCode (c : BitVec 3) : AluOp :=
  match c.toNat with
  | 0 => .add
  | 1 => .adc
  | 2 => .sub
  | 3 => .sbc
  | 4 => .and
  | 5 => .xor
  | 6 => .or
  | _ => .cp

/-! ### Rows chosen by an operation and an operand -/

/-- The row `ALU[o] A,r8` (R97). -/
def aluRegRow : AluOp → Reg8 → Instr
  | .add, r => .addAR8 r
  | .adc, r => .adcAR8 r
  | .sub, r => .subAR8 r
  | .sbc, r => .sbcAR8 r
  | .and, r => .andAR8 r
  | .xor, r => .xorAR8 r
  | .or, r => .orAR8 r
  | .cp, r => .cpAR8 r

/-- The row `ALU[o] A,[HL]` (R97). -/
def aluHlRow : AluOp → Instr
  | .add => .addAHl
  | .adc => .adcAHl
  | .sub => .subAHl
  | .sbc => .sbcAHl
  | .and => .andAHl
  | .xor => .xorAHl
  | .or => .orAHl
  | .cp => .cpAHl

/-- The row `ALU[o] A,d8` (R97). -/
def aluImmRow : AluOp → Instr
  | .add => .addAD8
  | .adc => .adcAD8
  | .sub => .subAD8
  | .sbc => .sbcAD8
  | .and => .andAD8
  | .xor => .xorAD8
  | .or => .orAD8
  | .cp => .cpAD8

/-- The row of opcode_table.json a prefixed instruction is: register and `[HL]` operands have rows of their own. -/
def CbInstr.toInstr (i : CbInstr) : Instr :=
  match i.op, i.operand with
  | .rlc, .reg r => .rlcR8 r
  | .rlc, .hl => .rlcHl
  | .rrc, .reg r => .rrcR8 r
  | .rrc, .hl => .rrcHl
  | .rl, .reg r => .rlR8 r
  | .rl, .hl => .rlHl
  | .rr, .reg r => .rrR8 r
  | .rr, .hl => .rrHl
  | .sla, .reg r => .slaR8 r
  | .sla, .hl => .slaHl
  | .sra, .reg r => .sraR8 r
  | .sra, .hl => .sraHl
  | .swap, .reg r => .swapR8 r
  | .swap, .hl => .swapHl
  | .srl, .reg r => .srlR8 r
  | .srl, .hl => .srlHl
  | .bit b, .reg r => .bitR8 b r
  | .bit b, .hl => .bitHl b
  | .res b, .reg r => .resR8 b r
  | .res b, .hl => .resHl b
  | .set b, .reg r => .setR8 b r
  | .set b, .hl => .setHl b

/-! ### The two tables -/

/-- R98: the rotate or shift of code `y`. -/
def CbOp.ofRotCode (c : BitVec 3) : CbOp :=
  match c.toNat with
  | 0 => .rlc
  | 1 => .rrc
  | 2 => .rl
  | 3 => .rr
  | 4 => .sla
  | 5 => .sra
  | 6 => .swap
  | _ => .srl

/-- The prefixed table (R106): total. -/
def decodePrefixed (b : Byte) : CbInstr :=
  match (fieldX b).toNat with
  | 0 => ⟨CbOp.ofRotCode (fieldY b), Operand8.ofCode (fieldZ b)⟩
  | 1 => ⟨.bit (fieldY b), Operand8.ofCode (fieldZ b)⟩
  | 2 => ⟨.res (fieldY b), Operand8.ofCode (fieldZ b)⟩
  | _ => ⟨.set (fieldY b), Operand8.ofCode (fieldZ b)⟩

/-- Block `x = 0` of the bare table (R105), by column `z`. -/
def decodeBlock0 (b : Byte) : Instr :=
  match (fieldZ b).toNat with
  | 0 =>
    match (fieldY b).toNat with
    | 0 => .nop
    | 1 => .ldA16Sp
    | 2 => .stop
    | 3 => .jrE8
    | _ => .jrCcE8 (Cond.ofCode (fieldCc b))
  | 1 => if fieldQ b = 0 then .ldR16D16 (R16.ofCode (fieldP b)) else .addHlR16 (R16.ofCode (fieldP b))
  | 2 =>
    match (fieldY b).toNat with
    | 0 => .ldBcA
    | 1 => .ldABc
    | 2 => .ldDeA
    | 3 => .ldADe
    | 4 => .ldHliA
    | 5 => .ldAHli
    | 6 => .ldHldA
    | _ => .ldAHld
  | 3 => if fieldQ b = 0 then .incR16 (R16.ofCode (fieldP b)) else .decR16 (R16.ofCode (fieldP b))
  | 4 =>
    match Operand8.ofCode (fieldY b) with
    | .reg r => .incR8 r
    | .hl => .incHl
  | 5 =>
    match Operand8.ofCode (fieldY b) with
    | .reg r => .decR8 r
    | .hl => .decHl
  | 6 =>
    match Operand8.ofCode (fieldY b) with
    | .reg r => .ldR8D8 r
    | .hl => .ldHlD8
  | _ =>
    match (fieldY b).toNat with
    | 0 => .rlca
    | 1 => .rrca
    | 2 => .rla
    | 3 => .rra
    | 4 => .daa
    | 5 => .cpl
    | 6 => .scf
    | _ => .ccf

/-- Block `x = 1`: the register loads, with `HALT` in the slot `y = z = 6` (R104). -/
def decodeBlock1 (b : Byte) : Instr :=
  match Operand8.ofCode (fieldY b), Operand8.ofCode (fieldZ b) with
  | .hl, .hl => .halt
  | .hl, .reg r => .ldHlR8 r
  | .reg r, .hl => .ldR8Hl r
  | .reg dst, .reg r => .ldR8R8 dst r

/-- Block `x = 2`: the accumulator operations (R97). -/
def decodeBlock2 (b : Byte) : Instr :=
  match Operand8.ofCode (fieldZ b) with
  | .reg r => aluRegRow (AluOp.ofCode (fieldY b)) r
  | .hl => aluHlRow (AluOp.ofCode (fieldY b))

/-- Block `x = 3`, by column `z`; the gaps are the eleven bytes of R107. -/
def decodeBlock3 (b : Byte) : Instr :=
  match (fieldZ b).toNat with
  | 0 =>
    match (fieldY b).toNat with
    | 4 => .ldhA8A
    | 5 => .addSpE8
    | 6 => .ldhAA8
    | 7 => .ldHlSpE8
    | _ => .retCc (Cond.ofCode (fieldCc b))
  | 1 =>
    match (fieldY b).toNat with
    | 0 => .popR16 .bc
    | 1 => .ret
    | 2 => .popR16 .de
    | 3 => .reti
    | 4 => .popR16 .hl
    | 5 => .jpHl
    | 6 => .popAf
    | _ => .ldSpHl
  | 2 =>
    match (fieldY b).toNat with
    | 4 => .ldhCA
    | 5 => .ldA16A
    | 6 => .ldhAC
    | 7 => .ldAA16
    | _ => .jpCcA16 (Cond.ofCode (fieldCc b))
  | 3 =>
    match (fieldY b).toNat with
    | 0 => .jpA16
    | 1 => .prefixCb
    | 2 => .illegalD3
    | 3 => .illegalDB
    | 4 => .illegalE3
    | 5 => .illegalEB
    | 6 => .di
    | _ => .ei
  | 4 =>
    match (fieldY b).toNat with
    | 4 => .illegalE4
    | 5 => .illegalEC
    | 6 => .illegalF4
    | 7 => .illegalFC
    | _ => .callCcA16 (Cond.ofCode (fieldCc b))
  | 5 =>
    match (fieldY b).toNat with
    | 1 => .callA16
    | 3 => .illegalDD
    | 5 => .illegalED
    | 7 => .illegalFD
    | _ => .pushR16 (R16Stk.ofCode (fieldP b))
  | 6 => aluImmRow (AluOp.ofCode (fieldY b))
  | _ => .rstT (fieldY b)

/-- The bare table (R105): the row of each of the 256 first bytes. -/
def decodeOpcode (b : Byte) : Instr :=
  match (fieldX b).toNat with
  | 0 => decodeBlock0 b
  | 1 => decodeBlock1 b
  | 2 => decodeBlock2 b
  | _ => decodeBlock3 b

/-- The rows of kind `illegal` (R107). -/
def Instr.isIllegal : Instr → Bool
  | .illegalD3 | .illegalDB | .illegalDD | .illegalE3 | .illegalE4 | .illegalEB | .illegalEC | .illegalED
  | .illegalF4 | .illegalFC | .illegalFD => true
  | _ => false

/-- The source's `decode(byte) -> Option<Instruction>` (R103, R107): nothing for the eleven illegal bytes. -/
def decodeLegal (b : Byte) : Option Instr :=
  if (decodeOpcode b).isIllegal then none else some (decodeOpcode b)

/-- Read one instruction's opcode from the front of a byte list, with the bytes after it. A 0xCB followed by a byte is the
prefixed instruction of that byte (R106, R142); a 0xCB with nothing after it is the prefix row itself (R325). -/
def decode : List Byte → Option (Instr × List Byte)
  | [] => none
  | [b] => some (decodeOpcode b, [])
  | b :: b' :: rest =>
    match decodeOpcode b with
    | .prefixCb => some ((decodePrefixed b').toInstr, rest)
    | i => some (i, b' :: rest)

/-! ### The table word the host numbers -/

/-- Byte `k` of a word whose bit 0 is the least significant bit of the first byte. -/
def byteOf (w k : Nat) : Byte := BitVec.ofNat 8 (w >>> (8 * k))

/-- The bytes the word gives: as many as `nbits` counts (one at least), the bits above `nbits` zero. -/
def tableBytes (nbits w : Nat) : List Byte :=
  (List.range (max 1 ((nbits + 7) / 8))).map (byteOf (w % 2 ^ nbits))

/-- The instruction the decoder reads from a table word. -/
def decodeTableWord (nbits w : Nat) : Option Instr :=
  (decode (tableBytes nbits w)).map Prod.fst

/-! ### The encoder -/

/-- An opcode byte from its fields `x`, `y`, `z` (R91). -/
def opcodeXyz (x : BitVec 2) (y z : BitVec 3) : Byte := x ++ y ++ z

/-- An opcode byte from its fields `x`, `p`, `q`, `z` (R91: `y` is `p` above `q`). -/
def opcodeXpqz (x p : BitVec 2) (q : BitVec 1) (z : BitVec 3) : Byte := x ++ p ++ q ++ z

/-- The opcode byte of an instruction: byte 0 of a bare row, byte 1 of a 0xCB row (the pattern lists of R105 and R106). -/
def opcodeByte : Instr → Byte
  | .nop => 0x00
  | .ldA16Sp => 0x08
  | .stop => 0x10
  | .jrE8 => 0x18
  | .rlca => 0x07
  | .rrca => 0x0F
  | .rla => 0x17
  | .rra => 0x1F
  | .daa => 0x27
  | .cpl => 0x2F
  | .scf => 0x37
  | .ccf => 0x3F
  | .ldBcA => 0x02
  | .ldDeA => 0x12
  | .ldHliA => 0x22
  | .ldHldA => 0x32
  | .ldABc => 0x0A
  | .ldADe => 0x1A
  | .ldAHli => 0x2A
  | .ldAHld => 0x3A
  | .incHl => 0x34
  | .decHl => 0x35
  | .ldHlD8 => 0x36
  | .halt => 0x76
  | .jpA16 => 0xC3
  | .ret => 0xC9
  | .reti => 0xD9
  | .jpHl => 0xE9
  | .ldSpHl => 0xF9
  | .prefixCb => 0xCB
  | .callA16 => 0xCD
  | .ldhA8A => 0xE0
  | .ldhAA8 => 0xF0
  | .ldhCA => 0xE2
  | .ldhAC => 0xF2
  | .addSpE8 => 0xE8
  | .ldHlSpE8 => 0xF8
  | .ldA16A => 0xEA
  | .ldAA16 => 0xFA
  | .di => 0xF3
  | .ei => 0xFB
  | .popAf => 0xF1
  | .illegalD3 => 0xD3
  | .illegalDB => 0xDB
  | .illegalDD => 0xDD
  | .illegalE3 => 0xE3
  | .illegalE4 => 0xE4
  | .illegalEB => 0xEB
  | .illegalEC => 0xEC
  | .illegalED => 0xED
  | .illegalF4 => 0xF4
  | .illegalFC => 0xFC
  | .illegalFD => 0xFD
  | .addAHl => 0x86
  | .adcAHl => 0x8E
  | .subAHl => 0x96
  | .sbcAHl => 0x9E
  | .andAHl => 0xA6
  | .xorAHl => 0xAE
  | .orAHl => 0xB6
  | .cpAHl => 0xBE
  | .addAD8 => 0xC6
  | .adcAD8 => 0xCE
  | .subAD8 => 0xD6
  | .sbcAD8 => 0xDE
  | .andAD8 => 0xE6
  | .xorAD8 => 0xEE
  | .orAD8 => 0xF6
  | .cpAD8 => 0xFE
  | .jrCcE8 cc => (0b001#3 ++ cc.code ++ 0b000#3 : BitVec 8)
  | .ldR16D16 r => opcodeXpqz 0 r.code 0 1
  | .addHlR16 r => opcodeXpqz 0 r.code 1 1
  | .incR16 r => opcodeXpqz 0 r.code 0 3
  | .decR16 r => opcodeXpqz 0 r.code 1 3
  | .incR8 r => opcodeXyz 0 r.code 4
  | .decR8 r => opcodeXyz 0 r.code 5
  | .ldR8D8 r => opcodeXyz 0 r.code 6
  | .ldR8Hl r => opcodeXyz 1 r.code 6
  | .ldHlR8 r => opcodeXyz 1 6 r.code
  | .ldR8R8 dst r => opcodeXyz 1 dst.code r.code
  | .addAR8 r => opcodeXyz 2 0 r.code
  | .adcAR8 r => opcodeXyz 2 1 r.code
  | .subAR8 r => opcodeXyz 2 2 r.code
  | .sbcAR8 r => opcodeXyz 2 3 r.code
  | .andAR8 r => opcodeXyz 2 4 r.code
  | .xorAR8 r => opcodeXyz 2 5 r.code
  | .orAR8 r => opcodeXyz 2 6 r.code
  | .cpAR8 r => opcodeXyz 2 7 r.code
  | .retCc cc => (0b110#3 ++ cc.code ++ 0b000#3 : BitVec 8)
  | .jpCcA16 cc => (0b110#3 ++ cc.code ++ 0b010#3 : BitVec 8)
  | .callCcA16 cc => (0b110#3 ++ cc.code ++ 0b100#3 : BitVec 8)
  | .popR16 p => opcodeXpqz 3 p.code 0 1
  | .pushR16 p => opcodeXpqz 3 p.code 0 5
  | .rstT t => opcodeXyz 3 t 7
  | .rlcHl => 0x06
  | .rrcHl => 0x0E
  | .rlHl => 0x16
  | .rrHl => 0x1E
  | .slaHl => 0x26
  | .sraHl => 0x2E
  | .swapHl => 0x36
  | .srlHl => 0x3E
  | .rlcR8 r => opcodeXyz 0 0 r.code
  | .rrcR8 r => opcodeXyz 0 1 r.code
  | .rlR8 r => opcodeXyz 0 2 r.code
  | .rrR8 r => opcodeXyz 0 3 r.code
  | .slaR8 r => opcodeXyz 0 4 r.code
  | .sraR8 r => opcodeXyz 0 5 r.code
  | .swapR8 r => opcodeXyz 0 6 r.code
  | .srlR8 r => opcodeXyz 0 7 r.code
  | .bitHl b => opcodeXyz 1 b 6
  | .bitR8 b r => opcodeXyz 1 b r.code
  | .resHl b => opcodeXyz 2 b 6
  | .resR8 b r => opcodeXyz 2 b r.code
  | .setHl b => opcodeXyz 3 b 6
  | .setR8 b r => opcodeXyz 3 b r.code

/-- The rows of the 0xCB space. -/
def Instr.isPrefixed : Instr → Bool
  | .rlcHl | .rrcHl | .rlHl | .rrHl | .slaHl | .sraHl | .swapHl | .srlHl
  | .rlcR8 _ | .rrcR8 _ | .rlR8 _ | .rrR8 _ | .slaR8 _ | .sraR8 _ | .swapR8 _ | .srlR8 _
  | .bitHl _ | .bitR8 _ _ | .resHl _ | .resR8 _ _ | .setHl _ | .setR8 _ _ => true
  | _ => false

/-- The opcode bytes of an instruction (R90, R92): 0xCB first in the prefixed space. Operand bytes follow them in memory
and are no part of `Instr` (R103). -/
def encode (i : Instr) : List Byte :=
  if i.isPrefixed then [0xCB, opcodeByte i] else [opcodeByte i]

/-- How many operand bytes the instruction's meaning reads at `PC` (the formats of R92); the prefix row reads the second
opcode byte as one. -/
def Instr.operandBytes : Instr → Nat
  | .ldA16Sp | .jpA16 | .callA16 | .ldA16A | .ldAA16 | .ldR16D16 _ | .jpCcA16 _ | .callCcA16 _ => 2
  | .jrE8 | .jrCcE8 _ | .ldHlD8 | .ldR8D8 _ | .ldhA8A | .ldhAA8 | .addSpE8 | .ldHlSpE8 | .prefixCb
  | .addAD8 | .adcAD8 | .subAD8 | .sbcAD8 | .andAD8 | .xorAD8 | .orAD8 | .cpAD8 => 1
  | _ => 0

/-- The length in bytes (R90, R110): opcode bytes and operand bytes; the prefix row counts its second byte. -/
def Instr.length (i : Instr) : Nat := (encode i).length + i.operandBytes

/-- The `mask` of the instruction's row in spec/opcode_table.json (of byte 0, or of byte 1 in the 0xCB space). -/
def Instr.rowMask : Instr → Byte
  | .nop => 0xFF#8
  | .ldA16Sp => 0xFF#8
  | .stop => 0xFF#8
  | .jrE8 => 0xFF#8
  | .rlca => 0xFF#8
  | .rrca => 0xFF#8
  | .rla => 0xFF#8
  | .rra => 0xFF#8
  | .daa => 0xFF#8
  | .cpl => 0xFF#8
  | .scf => 0xFF#8
  | .ccf => 0xFF#8
  | .ldBcA => 0xFF#8
  | .ldDeA => 0xFF#8
  | .ldHliA => 0xFF#8
  | .ldHldA => 0xFF#8
  | .ldABc => 0xFF#8
  | .ldADe => 0xFF#8
  | .ldAHli => 0xFF#8
  | .ldAHld => 0xFF#8
  | .incHl => 0xFF#8
  | .decHl => 0xFF#8
  | .ldHlD8 => 0xFF#8
  | .halt => 0xFF#8
  | .jpA16 => 0xFF#8
  | .ret => 0xFF#8
  | .reti => 0xFF#8
  | .jpHl => 0xFF#8
  | .ldSpHl => 0xFF#8
  | .prefixCb => 0xFF#8
  | .callA16 => 0xFF#8
  | .ldhA8A => 0xFF#8
  | .ldhAA8 => 0xFF#8
  | .ldhCA => 0xFF#8
  | .ldhAC => 0xFF#8
  | .addSpE8 => 0xFF#8
  | .ldHlSpE8 => 0xFF#8
  | .ldA16A => 0xFF#8
  | .ldAA16 => 0xFF#8
  | .di => 0xFF#8
  | .ei => 0xFF#8
  | .popAf => 0xFF#8
  | .illegalD3 => 0xFF#8
  | .illegalDB => 0xFF#8
  | .illegalDD => 0xFF#8
  | .illegalE3 => 0xFF#8
  | .illegalE4 => 0xFF#8
  | .illegalEB => 0xFF#8
  | .illegalEC => 0xFF#8
  | .illegalED => 0xFF#8
  | .illegalF4 => 0xFF#8
  | .illegalFC => 0xFF#8
  | .illegalFD => 0xFF#8
  | .addAHl => 0xFF#8
  | .adcAHl => 0xFF#8
  | .subAHl => 0xFF#8
  | .sbcAHl => 0xFF#8
  | .andAHl => 0xFF#8
  | .xorAHl => 0xFF#8
  | .orAHl => 0xFF#8
  | .cpAHl => 0xFF#8
  | .addAD8 => 0xFF#8
  | .adcAD8 => 0xFF#8
  | .subAD8 => 0xFF#8
  | .sbcAD8 => 0xFF#8
  | .andAD8 => 0xFF#8
  | .xorAD8 => 0xFF#8
  | .orAD8 => 0xFF#8
  | .cpAD8 => 0xFF#8
  | .jrCcE8 _ => 0xE7#8
  | .ldR16D16 _ => 0xCF#8
  | .addHlR16 _ => 0xCF#8
  | .incR16 _ => 0xCF#8
  | .decR16 _ => 0xCF#8
  | .incR8 _ => 0xC7#8
  | .decR8 _ => 0xC7#8
  | .ldR8D8 _ => 0xC7#8
  | .ldR8Hl _ => 0xC7#8
  | .ldHlR8 _ => 0xF8#8
  | .ldR8R8 _ _ => 0xC0#8
  | .addAR8 _ => 0xF8#8
  | .adcAR8 _ => 0xF8#8
  | .subAR8 _ => 0xF8#8
  | .sbcAR8 _ => 0xF8#8
  | .andAR8 _ => 0xF8#8
  | .xorAR8 _ => 0xF8#8
  | .orAR8 _ => 0xF8#8
  | .cpAR8 _ => 0xF8#8
  | .retCc _ => 0xE7#8
  | .jpCcA16 _ => 0xE7#8
  | .callCcA16 _ => 0xE7#8
  | .popR16 _ => 0xCF#8
  | .pushR16 _ => 0xCF#8
  | .rstT _ => 0xC7#8
  | .rlcHl => 0xFF#8
  | .rrcHl => 0xFF#8
  | .rlHl => 0xFF#8
  | .rrHl => 0xFF#8
  | .slaHl => 0xFF#8
  | .sraHl => 0xFF#8
  | .swapHl => 0xFF#8
  | .srlHl => 0xFF#8
  | .rlcR8 _ => 0xF8#8
  | .rrcR8 _ => 0xF8#8
  | .rlR8 _ => 0xF8#8
  | .rrR8 _ => 0xF8#8
  | .slaR8 _ => 0xF8#8
  | .sraR8 _ => 0xF8#8
  | .swapR8 _ => 0xF8#8
  | .srlR8 _ => 0xF8#8
  | .bitHl _ => 0xC7#8
  | .bitR8 _ _ => 0xC0#8
  | .resHl _ => 0xC7#8
  | .resR8 _ _ => 0xC0#8
  | .setHl _ => 0xC7#8
  | .setR8 _ _ => 0xC0#8

/-- The `match` of the instruction's row in spec/opcode_table.json. -/
def Instr.rowMatch : Instr → Byte
  | .nop => 0x00#8
  | .ldA16Sp => 0x08#8
  | .stop => 0x10#8
  | .jrE8 => 0x18#8
  | .rlca => 0x07#8
  | .rrca => 0x0F#8
  | .rla => 0x17#8
  | .rra => 0x1F#8
  | .daa => 0x27#8
  | .cpl => 0x2F#8
  | .scf => 0x37#8
  | .ccf => 0x3F#8
  | .ldBcA => 0x02#8
  | .ldDeA => 0x12#8
  | .ldHliA => 0x22#8
  | .ldHldA => 0x32#8
  | .ldABc => 0x0A#8
  | .ldADe => 0x1A#8
  | .ldAHli => 0x2A#8
  | .ldAHld => 0x3A#8
  | .incHl => 0x34#8
  | .decHl => 0x35#8
  | .ldHlD8 => 0x36#8
  | .halt => 0x76#8
  | .jpA16 => 0xC3#8
  | .ret => 0xC9#8
  | .reti => 0xD9#8
  | .jpHl => 0xE9#8
  | .ldSpHl => 0xF9#8
  | .prefixCb => 0xCB#8
  | .callA16 => 0xCD#8
  | .ldhA8A => 0xE0#8
  | .ldhAA8 => 0xF0#8
  | .ldhCA => 0xE2#8
  | .ldhAC => 0xF2#8
  | .addSpE8 => 0xE8#8
  | .ldHlSpE8 => 0xF8#8
  | .ldA16A => 0xEA#8
  | .ldAA16 => 0xFA#8
  | .di => 0xF3#8
  | .ei => 0xFB#8
  | .popAf => 0xF1#8
  | .illegalD3 => 0xD3#8
  | .illegalDB => 0xDB#8
  | .illegalDD => 0xDD#8
  | .illegalE3 => 0xE3#8
  | .illegalE4 => 0xE4#8
  | .illegalEB => 0xEB#8
  | .illegalEC => 0xEC#8
  | .illegalED => 0xED#8
  | .illegalF4 => 0xF4#8
  | .illegalFC => 0xFC#8
  | .illegalFD => 0xFD#8
  | .addAHl => 0x86#8
  | .adcAHl => 0x8E#8
  | .subAHl => 0x96#8
  | .sbcAHl => 0x9E#8
  | .andAHl => 0xA6#8
  | .xorAHl => 0xAE#8
  | .orAHl => 0xB6#8
  | .cpAHl => 0xBE#8
  | .addAD8 => 0xC6#8
  | .adcAD8 => 0xCE#8
  | .subAD8 => 0xD6#8
  | .sbcAD8 => 0xDE#8
  | .andAD8 => 0xE6#8
  | .xorAD8 => 0xEE#8
  | .orAD8 => 0xF6#8
  | .cpAD8 => 0xFE#8
  | .jrCcE8 _ => 0x20#8
  | .ldR16D16 _ => 0x01#8
  | .addHlR16 _ => 0x09#8
  | .incR16 _ => 0x03#8
  | .decR16 _ => 0x0B#8
  | .incR8 _ => 0x04#8
  | .decR8 _ => 0x05#8
  | .ldR8D8 _ => 0x06#8
  | .ldR8Hl _ => 0x46#8
  | .ldHlR8 _ => 0x70#8
  | .ldR8R8 _ _ => 0x40#8
  | .addAR8 _ => 0x80#8
  | .adcAR8 _ => 0x88#8
  | .subAR8 _ => 0x90#8
  | .sbcAR8 _ => 0x98#8
  | .andAR8 _ => 0xA0#8
  | .xorAR8 _ => 0xA8#8
  | .orAR8 _ => 0xB0#8
  | .cpAR8 _ => 0xB8#8
  | .retCc _ => 0xC0#8
  | .jpCcA16 _ => 0xC2#8
  | .callCcA16 _ => 0xC4#8
  | .popR16 _ => 0xC1#8
  | .pushR16 _ => 0xC5#8
  | .rstT _ => 0xC7#8
  | .rlcHl => 0x06#8
  | .rrcHl => 0x0E#8
  | .rlHl => 0x16#8
  | .rrHl => 0x1E#8
  | .slaHl => 0x26#8
  | .sraHl => 0x2E#8
  | .swapHl => 0x36#8
  | .srlHl => 0x3E#8
  | .rlcR8 _ => 0x00#8
  | .rrcR8 _ => 0x08#8
  | .rlR8 _ => 0x10#8
  | .rrR8 _ => 0x18#8
  | .slaR8 _ => 0x20#8
  | .sraR8 _ => 0x28#8
  | .swapR8 _ => 0x30#8
  | .srlR8 _ => 0x38#8
  | .bitHl _ => 0x46#8
  | .bitR8 _ _ => 0x40#8
  | .resHl _ => 0x86#8
  | .resR8 _ _ => 0x80#8
  | .setHl _ => 0xC6#8
  | .setR8 _ _ => 0xC0#8

end Sys2Proof
end

