-- ==== Sys2Proof/Machine/RotateShiftBit.lean ====
section
/-! DEFINITION. Rotates, shifts and bit operations (spec/45_rotate_shift_bit.md R260 to R275). -/

namespace Sys2Proof.Machine

/-! ### Accumulator rotates -/

/-- An accumulator rotate: `zf` is always cleared; 1 cycle. -/
def rotAcc (op : Byte → Bool → Byte × Bool) (s : State) : Result :=
  finish 1 { s with a := (op s.a s.cf).1, f := accRotFlags (op s.a s.cf) }

/-- R260 `RLCA`. -/
def execRlca (s : State) : Result := rotAcc rotLeft s

/-- R261 `RRCA`. -/
def execRrca (s : State) : Result := rotAcc rotRight s

/-- R262 `RLA`. -/
def execRla (s : State) : Result := rotAcc rotLeftCarry s

/-- R263 `RRA`. -/
def execRra (s : State) : Result := rotAcc rotRightCarry s

/-! ### The common frame of the prefixed instructions (R264) -/

/-- A prefixed rotate or shift of a register: 2 cycles. -/
def rotReg (op : Byte → Bool → Byte × Bool) (r : Reg8) (s : State) : Result :=
  finish 2 ((s.setF (rotFlags (op (s.reg r) s.cf))).setReg r (op (s.reg r) s.cf).1)

/-- A prefixed rotate or shift of `[HL]`: one read, one write, 4 cycles. -/
def rotHl (op : Byte → Bool → Byte × Bool) (s : State) : Result :=
  busRead s.hl s fun v s => busWrite s.hl (op v s.cf).1 (s.setF (rotFlags (op v s.cf))) (finish 4)

/-- `RES` or `SET` of a register: no flag, 2 cycles. -/
def bitOpReg (op : Byte → Byte) (r : Reg8) (s : State) : Result := finish 2 (s.setReg r (op (s.reg r)))

/-- `RES` or `SET` of `[HL]`: no flag, one read, one write, 4 cycles. -/
def bitOpHl (op : Byte → Byte) (s : State) : Result := busRead s.hl s fun v s => busWrite s.hl (op v) s (finish 4)

/-! ### The instructions -/

/-- R265 `RLC r8`. -/
def execRlcR8 (r : Reg8) (s : State) : Result := rotReg rotLeft r s

/-- R265 `RLC [HL]`. -/
def execRlcHl (s : State) : Result := rotHl rotLeft s

/-- R266 `RRC r8`. -/
def execRrcR8 (r : Reg8) (s : State) : Result := rotReg rotRight r s

/-- R266 `RRC [HL]`. -/
def execRrcHl (s : State) : Result := rotHl rotRight s

/-- R267 `RL r8`. -/
def execRlR8 (r : Reg8) (s : State) : Result := rotReg rotLeftCarry r s

/-- R267 `RL [HL]`. -/
def execRlHl (s : State) : Result := rotHl rotLeftCarry s

/-- R268 `RR r8`. -/
def execRrR8 (r : Reg8) (s : State) : Result := rotReg rotRightCarry r s

/-- R268 `RR [HL]`. -/
def execRrHl (s : State) : Result := rotHl rotRightCarry s

/-- R269 `SLA r8`. -/
def execSlaR8 (r : Reg8) (s : State) : Result := rotReg shiftLeft r s

/-- R269 `SLA [HL]`. -/
def execSlaHl (s : State) : Result := rotHl shiftLeft s

/-- R270 `SRA r8`. -/
def execSraR8 (r : Reg8) (s : State) : Result := rotReg shiftRightArith r s

/-- R270 `SRA [HL]`. -/
def execSraHl (s : State) : Result := rotHl shiftRightArith s

/-- R271 `SWAP r8`. -/
def execSwapR8 (r : Reg8) (s : State) : Result := rotReg swapNibbles r s

/-- R271 `SWAP [HL]`. -/
def execSwapHl (s : State) : Result := rotHl swapNibbles s

/-- R272 `SRL r8`. -/
def execSrlR8 (r : Reg8) (s : State) : Result := rotReg shiftRightLogic r s

/-- R272 `SRL [HL]`. -/
def execSrlHl (s : State) : Result := rotHl shiftRightLogic s

/-- R273 `BIT b,r8`: no write-back. -/
def execBitR8 (b : BitVec 3) (r : Reg8) (s : State) : Result := finish 2 (s.setF (bitFlags b (s.reg r) s.cf))

/-- R273 `BIT b,[HL]`: one read, no write-back, 3 cycles. -/
def execBitHl (b : BitVec 3) (s : State) : Result := busRead s.hl s fun v s => finish 3 (s.setF (bitFlags b v s.cf))

/-- R274 `RES b,r8`. -/
def execResR8 (b : BitVec 3) (r : Reg8) (s : State) : Result := bitOpReg (resBit b) r s

/-- R274 `RES b,[HL]`: writes back also when the bit was 0. -/
def execResHl (b : BitVec 3) (s : State) : Result := bitOpHl (resBit b) s

/-- R275 `SET b,r8`. -/
def execSetR8 (b : BitVec 3) (r : Reg8) (s : State) : Result := bitOpReg (setBit b) r s

/-- R275 `SET b,[HL]`. -/
def execSetHl (b : BitVec 3) (s : State) : Result := bitOpHl (setBit b) s

end Sys2Proof.Machine
end

