-- ==== Sys2Proof/Machine/Prefixed.lean ====
section
/-! DEFINITION. The prefix row 0xCB (spec/40_step_engine.md R142, spec/47_cpu_control.md R325): its meaning reads the second
opcode byte and runs the prefixed instruction in the same step. -/

namespace Sys2Proof.Machine

/-- The handler of a prefixed instruction (R106). -/
def execPrefixed (i : CbInstr) (s : State) : Result :=
  match i.op, i.operand with
  | .rlc, .reg r => execRlcR8 r s
  | .rlc, .hl => execRlcHl s
  | .rrc, .reg r => execRrcR8 r s
  | .rrc, .hl => execRrcHl s
  | .rl, .reg r => execRlR8 r s
  | .rl, .hl => execRlHl s
  | .rr, .reg r => execRrR8 r s
  | .rr, .hl => execRrHl s
  | .sla, .reg r => execSlaR8 r s
  | .sla, .hl => execSlaHl s
  | .sra, .reg r => execSraR8 r s
  | .sra, .hl => execSraHl s
  | .swap, .reg r => execSwapR8 r s
  | .swap, .hl => execSwapHl s
  | .srl, .reg r => execSrlR8 r s
  | .srl, .hl => execSrlHl s
  | .bit b, .reg r => execBitR8 b r s
  | .bit b, .hl => execBitHl b s
  | .res b, .reg r => execResR8 b r s
  | .res b, .hl => execResHl b s
  | .set b, .reg r => execSetR8 b r s
  | .set b, .hl => execSetHl b s

/-- R142: `op2 <- Imm8()`, then the prefixed instruction; the cost is that of the two bytes together. -/
def execPrefixCb (s : State) : Result := imm8 s fun op2 s => execPrefixed (decodePrefixed op2) s

end Sys2Proof.Machine
end

