-- ==== Sys2Proof/Machine/Dispatch.lean ====
section
/-! DEFINITION. The dispatch of an instruction to its meaning (spec/40_step_engine.md R134): one arm per row of
spec/opcode_table.json. The state is that after the opcode fetch: `PC` stands at the byte after byte 0 (at byte 0 itself
after a halt bug). -/

namespace Sys2Proof.Machine

def exec (i : Instr) (s : State) : Host.Outcome State Fault Refusal :=
  match i with
  | .nop => Sys2Proof.Machine.execNop s
  | .ldA16Sp => Sys2Proof.Machine.execLdA16Sp s
  | .stop => Sys2Proof.Machine.execStop s
  | .jrE8 => Sys2Proof.Machine.execJrE8 s
  | .rlca => Sys2Proof.Machine.execRlca s
  | .rrca => Sys2Proof.Machine.execRrca s
  | .rla => Sys2Proof.Machine.execRla s
  | .rra => Sys2Proof.Machine.execRra s
  | .daa => Sys2Proof.Machine.execDaa s
  | .cpl => Sys2Proof.Machine.execCpl s
  | .scf => Sys2Proof.Machine.execScf s
  | .ccf => Sys2Proof.Machine.execCcf s
  | .ldBcA => Sys2Proof.Machine.execLdBcA s
  | .ldDeA => Sys2Proof.Machine.execLdDeA s
  | .ldHliA => Sys2Proof.Machine.execLdHliA s
  | .ldHldA => Sys2Proof.Machine.execLdHldA s
  | .ldABc => Sys2Proof.Machine.execLdABc s
  | .ldADe => Sys2Proof.Machine.execLdADe s
  | .ldAHli => Sys2Proof.Machine.execLdAHli s
  | .ldAHld => Sys2Proof.Machine.execLdAHld s
  | .incHl => Sys2Proof.Machine.execIncHl s
  | .decHl => Sys2Proof.Machine.execDecHl s
  | .ldHlD8 => Sys2Proof.Machine.execLdHlD8 s
  | .halt => Sys2Proof.Machine.execHalt s
  | .jpA16 => Sys2Proof.Machine.execJpA16 s
  | .ret => Sys2Proof.Machine.execRet s
  | .reti => Sys2Proof.Machine.execReti s
  | .jpHl => Sys2Proof.Machine.execJpHl s
  | .ldSpHl => Sys2Proof.Machine.execLdSpHl s
  | .prefixCb => Sys2Proof.Machine.execPrefixCb s
  | .callA16 => Sys2Proof.Machine.execCallA16 s
  | .ldhA8A => Sys2Proof.Machine.execLdhA8A s
  | .ldhAA8 => Sys2Proof.Machine.execLdhAA8 s
  | .ldhCA => Sys2Proof.Machine.execLdhCA s
  | .ldhAC => Sys2Proof.Machine.execLdhAC s
  | .addSpE8 => Sys2Proof.Machine.execAddSpE8 s
  | .ldHlSpE8 => Sys2Proof.Machine.execLdHlSpE8 s
  | .ldA16A => Sys2Proof.Machine.execLdA16A s
  | .ldAA16 => Sys2Proof.Machine.execLdAA16 s
  | .di => Sys2Proof.Machine.execDi s
  | .ei => Sys2Proof.Machine.execEi s
  | .popAf => Sys2Proof.Machine.execPopAf s
  | .illegalD3 => Sys2Proof.Machine.execIllegalD3 s
  | .illegalDB => Sys2Proof.Machine.execIllegalDB s
  | .illegalDD => Sys2Proof.Machine.execIllegalDD s
  | .illegalE3 => Sys2Proof.Machine.execIllegalE3 s
  | .illegalE4 => Sys2Proof.Machine.execIllegalE4 s
  | .illegalEB => Sys2Proof.Machine.execIllegalEB s
  | .illegalEC => Sys2Proof.Machine.execIllegalEC s
  | .illegalED => Sys2Proof.Machine.execIllegalED s
  | .illegalF4 => Sys2Proof.Machine.execIllegalF4 s
  | .illegalFC => Sys2Proof.Machine.execIllegalFC s
  | .illegalFD => Sys2Proof.Machine.execIllegalFD s
  | .addAHl => Sys2Proof.Machine.execAddAHl s
  | .adcAHl => Sys2Proof.Machine.execAdcAHl s
  | .subAHl => Sys2Proof.Machine.execSubAHl s
  | .sbcAHl => Sys2Proof.Machine.execSbcAHl s
  | .andAHl => Sys2Proof.Machine.execAndAHl s
  | .xorAHl => Sys2Proof.Machine.execXorAHl s
  | .orAHl => Sys2Proof.Machine.execOrAHl s
  | .cpAHl => Sys2Proof.Machine.execCpAHl s
  | .addAD8 => Sys2Proof.Machine.execAddAD8 s
  | .adcAD8 => Sys2Proof.Machine.execAdcAD8 s
  | .subAD8 => Sys2Proof.Machine.execSubAD8 s
  | .sbcAD8 => Sys2Proof.Machine.execSbcAD8 s
  | .andAD8 => Sys2Proof.Machine.execAndAD8 s
  | .xorAD8 => Sys2Proof.Machine.execXorAD8 s
  | .orAD8 => Sys2Proof.Machine.execOrAD8 s
  | .cpAD8 => Sys2Proof.Machine.execCpAD8 s
  | .jrCcE8 cc => Sys2Proof.Machine.execJrCcE8 cc s
  | .ldR16D16 r => Sys2Proof.Machine.execLdR16D16 r s
  | .addHlR16 r => Sys2Proof.Machine.execAddHlR16 r s
  | .incR16 r => Sys2Proof.Machine.execIncR16 r s
  | .decR16 r => Sys2Proof.Machine.execDecR16 r s
  | .incR8 r => Sys2Proof.Machine.execIncR8 r s
  | .decR8 r => Sys2Proof.Machine.execDecR8 r s
  | .ldR8D8 r => Sys2Proof.Machine.execLdR8D8 r s
  | .ldR8Hl r => Sys2Proof.Machine.execLdR8Hl r s
  | .ldHlR8 r => Sys2Proof.Machine.execLdHlR8 r s
  | .ldR8R8 dst r => Sys2Proof.Machine.execLdR8R8 dst r s
  | .addAR8 r => Sys2Proof.Machine.execAddAR8 r s
  | .adcAR8 r => Sys2Proof.Machine.execAdcAR8 r s
  | .subAR8 r => Sys2Proof.Machine.execSubAR8 r s
  | .sbcAR8 r => Sys2Proof.Machine.execSbcAR8 r s
  | .andAR8 r => Sys2Proof.Machine.execAndAR8 r s
  | .xorAR8 r => Sys2Proof.Machine.execXorAR8 r s
  | .orAR8 r => Sys2Proof.Machine.execOrAR8 r s
  | .cpAR8 r => Sys2Proof.Machine.execCpAR8 r s
  | .retCc cc => Sys2Proof.Machine.execRetCc cc s
  | .jpCcA16 cc => Sys2Proof.Machine.execJpCcA16 cc s
  | .callCcA16 cc => Sys2Proof.Machine.execCallCcA16 cc s
  | .popR16 p => Sys2Proof.Machine.execPopR16 p s
  | .pushR16 p => Sys2Proof.Machine.execPushR16 p s
  | .rstT t => Sys2Proof.Machine.execRstT t s
  | .rlcHl => Sys2Proof.Machine.execRlcHl s
  | .rrcHl => Sys2Proof.Machine.execRrcHl s
  | .rlHl => Sys2Proof.Machine.execRlHl s
  | .rrHl => Sys2Proof.Machine.execRrHl s
  | .slaHl => Sys2Proof.Machine.execSlaHl s
  | .sraHl => Sys2Proof.Machine.execSraHl s
  | .swapHl => Sys2Proof.Machine.execSwapHl s
  | .srlHl => Sys2Proof.Machine.execSrlHl s
  | .rlcR8 r => Sys2Proof.Machine.execRlcR8 r s
  | .rrcR8 r => Sys2Proof.Machine.execRrcR8 r s
  | .rlR8 r => Sys2Proof.Machine.execRlR8 r s
  | .rrR8 r => Sys2Proof.Machine.execRrR8 r s
  | .slaR8 r => Sys2Proof.Machine.execSlaR8 r s
  | .sraR8 r => Sys2Proof.Machine.execSraR8 r s
  | .swapR8 r => Sys2Proof.Machine.execSwapR8 r s
  | .srlR8 r => Sys2Proof.Machine.execSrlR8 r s
  | .bitHl b => Sys2Proof.Machine.execBitHl b s
  | .bitR8 b r => Sys2Proof.Machine.execBitR8 b r s
  | .resHl b => Sys2Proof.Machine.execResHl b s
  | .resR8 b r => Sys2Proof.Machine.execResR8 b r s
  | .setHl b => Sys2Proof.Machine.execSetHl b s
  | .setR8 b r => Sys2Proof.Machine.execSetR8 b r s

end Sys2Proof.Machine
end

