-- ==== Sys2Proof/Machine/Engine.lean ====
section
/-! DEFINITION. The step engine (spec/40_step_engine.md R130 to R133), over any executor of instructions: Step.lean gives it
`exec`. -/

namespace Sys2Proof.Machine

/-! ### What happens between two steps -/

/-- One act of another agent on the bus (20_memory.md R75). -/
def State.onEvent (s : State) : BusEvent → State
  | .store addr v => s.store addr v
  | .device n => { s with device := n }
  | .remap cs => { s with claims := cs }

/-- The acts of the other agents before this step, in order, and the queue moved on (R75). -/
def State.environment (s : State) : State :=
  match s.env with
  | [] => s
  | es :: rest => es.foldl State.onEvent { s with env := rest }

/-- The start of a step: what the other agents did lies behind, and the record of bus operations begins anew. -/
def State.begun (s : State) : State := { s.environment with busLog := [] }

/-! ### Fetch (R130 parts 2 and 3) -/

/-- After the opcode byte is read: `PC` advances unless the halt bug is armed, once (R132); then the deferred enable fires
(R133). -/
def State.fetched (s : State) : State :=
  { s with
    opAddr := s.pc
    pc := if s.haltBugArmed then s.pc else s.pc + 1
    haltBugArmed := false
    ime := s.ime || s.deferredEnable
    deferredEnable := false }

/-- Fetch, decode and execute one instruction (R130 parts 2 to 5; R134). -/
def fetchExecute (run : Instr → State → Result) (s : State) : Result :=
  busRead s.pc s fun op s => run (decodeOpcode op) s.fetched

/-! ### The interrupt and halt decision (R130 part 1; 60_exceptions.md R337, R338) -/

/-- Halted to Running (R28). -/
def State.wake (s : State) : State := { s with halted := false }

/-- What the step does once `IE` and `IF` are read. -/
def afterIrqRead (run : Instr → State → Result) (ie iff : Byte) (s : State) : Result :=
  let v := pendingOf ie iff
  if s.halted then
    if v = 0 then finish 1 s
    else if s.ime then takeInterrupt iff v s.wake
    else fetchExecute run s.wake
  else if v != 0 && s.ime then takeInterrupt iff v s
  else fetchExecute run s

/-- One step of a machine that is not faulted. -/
def stepBody (run : Instr → State → Result) (s : State) : Result :=
  readIrqRegs s.begun (afterIrqRead run)

/-- `Step` (R130): a faulted machine has no step (R333); its latched error is the answer. -/
def engine (run : Instr → State → Result) (s : State) : Result :=
  match s.fault with
  | some e => .fault e
  | none => stepBody run s

/-! ### Placing an instruction at the fetch -/

/-- Claim an address for reads of plain memory. -/
def State.claimRead (s : State) (addr : Word) : State :=
  { s with claims := ⟨addr, addr, .memory, .refused⟩ :: s.claims }

/-- A byte in plain memory, read from there. -/
def State.place (s : State) (addr : Word) (v : Byte) : State :=
  (if s.readRule addr = .memory then s else s.claimRead addr).store addr v

/-- The two reads of R336 answered, by plain memory where the bus does not answer them. -/
def State.answerIrqReads (s : State) : State :=
  let s := if s.canRead ieAddr then s else s.claimRead ieAddr
  if (s.afterRead ieAddr).canRead ifAddr then s else s.claimRead ifAddr

/-- A state whose next step fetches the three bytes at `PC` with no halt, no halt bug, no dispatch, no latched error, no other
agent acting first, and the fetch and the interrupt registers answered. Whatever already holds is left alone. -/
def State.readyToFetch (s : State) (b0 b1 b2 : Byte) : State :=
  let s := (((s.place s.pc b0).place (s.pc + 1) b1).place (s.pc + 2) b2).answerIrqReads
  { s with
    halted := false
    haltBugArmed := false
    ime := s.ime && (pendingOf (s.byteAt ieAddr) ((s.afterRead ieAddr).byteAt ifAddr) == 0)
    fault := none
    env := [] }

end Sys2Proof.Machine
end

