-- ==== Sys2Proof/Machine/Step.lean ====
section
/-! DEFINITION. One step of the machine: the engine over `exec`; and the placing of an instruction where the next step
fetches. -/

namespace Sys2Proof.Machine

/-- `Step` (spec/40_step_engine.md R130). -/
def step (s : State) : Host.Outcome State Fault Refusal := engine exec s

/-- `s` with the instruction of a table word stored where `step` fetches next (log 16). -/
def State.withFetchWord (s : State) (nbits w : Nat) : State :=
  s.readyToFetch (byteOf (w % 2 ^ nbits) 0) (byteOf (w % 2 ^ nbits) 1) (byteOf (w % 2 ^ nbits) 2)

end Sys2Proof.Machine
end

