-- ==== Sys2Proof/Machine/Cycles.lean ====
section
/-! DEFINITION. The parameter `CYCLES` at its default: the table of spec/70_reset_and_hazards.md R378, in M-cycles. The
meanings carry the count of their own rules; that the two agree is a statement (R378: "the three must agree"). -/

namespace Sys2Proof.Machine

/-- The condition of a conditional row. -/
def conditionOf : Instr → Option Cond
  | .jrCcE8 cc | .jpCcA16 cc | .callCcA16 cc | .retCc cc => some cc
  | _ => none

/-- Whether the row is taken in the state: rows without a condition always are. -/
def takenIn (i : Instr) (s : State) : Bool :=
  match conditionOf i with
  | some cc => condHolds cc s
  | none => true

/-- The cost of an idle Halted step (R378). -/
def idleCycles : Nat := 1

/-- The cost of an interrupt dispatch (R378). -/
def dispatchCycles : Nat := 5

/-- The cost of an instruction, taken or not (R378). The prefix row, `STOP` and the illegal bytes have none of their own. -/
def cycles : Instr → Bool → Nat
  | .nop, _ | .halt, _ | .di, _ | .ei, _ => 1
  | .ldR8R8 _ _, _ => 1
  | .ldR8Hl _, _ | .ldHlR8 _, _ => 2
  | .ldR8D8 _, _ => 2
  | .ldHlD8, _ => 3
  | .ldABc, _ | .ldADe, _ | .ldBcA, _ | .ldDeA, _ | .ldAHli, _ | .ldAHld, _ | .ldHliA, _ | .ldHldA, _ => 2
  | .ldAA16, _ | .ldA16A, _ => 4
  | .ldhAA8, _ | .ldhA8A, _ => 3
  | .ldhAC, _ | .ldhCA, _ => 2
  | .ldR16D16 _, _ => 3
  | .ldA16Sp, _ => 5
  | .ldSpHl, _ => 2
  | .ldHlSpE8, _ => 3
  | .pushR16 _, _ => 4
  | .popR16 _, _ | .popAf, _ => 3
  | .addAR8 _, _ | .adcAR8 _, _ | .subAR8 _, _ | .sbcAR8 _, _ => 1
  | .andAR8 _, _ | .xorAR8 _, _ | .orAR8 _, _ | .cpAR8 _, _ => 1
  | .addAHl, _ | .adcAHl, _ | .subAHl, _ | .sbcAHl, _ | .andAHl, _ | .xorAHl, _ | .orAHl, _ | .cpAHl, _ => 2
  | .addAD8, _ | .adcAD8, _ | .subAD8, _ | .sbcAD8, _ | .andAD8, _ | .xorAD8, _ | .orAD8, _ | .cpAD8, _ => 2
  | .incR8 _, _ | .decR8 _, _ => 1
  | .incHl, _ | .decHl, _ => 3
  | .daa, _ | .cpl, _ | .scf, _ | .ccf, _ => 1
  | .addHlR16 _, _ => 2
  | .incR16 _, _ | .decR16 _, _ => 2
  | .addSpE8, _ => 4
  | .rlca, _ | .rrca, _ | .rla, _ | .rra, _ => 1
  | .rlcR8 _, _ | .rrcR8 _, _ | .rlR8 _, _ | .rrR8 _, _ | .slaR8 _, _ | .sraR8 _, _ | .swapR8 _, _ | .srlR8 _, _ => 2
  | .resR8 _ _, _ | .setR8 _ _, _ => 2
  | .rlcHl, _ | .rrcHl, _ | .rlHl, _ | .rrHl, _ | .slaHl, _ | .sraHl, _ | .swapHl, _ | .srlHl, _ => 4
  | .resHl _, _ | .setHl _, _ => 4
  | .bitR8 _ _, _ => 2
  | .bitHl _, _ => 3
  | .jpA16, _ => 4
  | .jpCcA16 _, t => if t then 4 else 3
  | .jpHl, _ => 1
  | .jrE8, _ => 3
  | .jrCcE8 _, t => if t then 3 else 2
  | .callA16, _ => 6
  | .callCcA16 _, t => if t then 6 else 3
  | .ret, _ => 4
  | .retCc _, t => if t then 5 else 2
  | .reti, _ => 4
  | .rstT _, _ => 4
  | .prefixCb, _ | .stop, _ => 0
  | .illegalD3, _ | .illegalDB, _ | .illegalDD, _ | .illegalE3, _ | .illegalE4, _ | .illegalEB, _ => 0
  | .illegalEC, _ | .illegalED, _ | .illegalF4, _ | .illegalFC, _ | .illegalFD, _ => 0

end Sys2Proof.Machine
end

