-- ==== Sys2Proof/Machine/Inspect.lean ====
section
/-! DEFINITION. What the host may read and seed (spec/60_exceptions.md R352, spec/10_state.md R42). -/

namespace Sys2Proof.Machine

/-- The fields of `getRegisterState()` (R352); `halted` is read beside it (the spec's decision D26). -/
structure Snapshot where
  af : Word
  bc : Word
  de : Word
  hl : Word
  sp : Word
  pc : Word
  ime : Bool
  deriving DecidableEq, Repr

/-- `getRegisterState()` (R352): read-only. -/
def State.snapshot (s : State) : Snapshot := ⟨s.af, s.bc, s.de, s.hl, s.sp, s.pc, s.ime⟩

/-- `create(bus)` (R41, R42): the reset state on a given bus. -/
def State.create (mem : Memory) (device : Nat) (claims : List Region) : State :=
  { State.reset with mem := mem, device := device, claims := claims }

/-- `createWithState(bus, state)` (R352): the snapshot seeded, the rest of the run state at reset (the spec's decision D19). -/
def State.createWithState (mem : Memory) (device : Nat) (claims : List Region) (r : Snapshot) : State :=
  { (((((State.create mem device claims).setRegStk .af r.af).setReg16 .bc r.bc).setReg16 .de r.de).setReg16 .hl r.hl) with
    sp := r.sp, pc := r.pc, ime := r.ime }

/-- The count `step` returned, between two states (R141): what `ticks` grew by. -/
def returnedCount (s t : State) : Nat := t.ticks - s.ticks

end Sys2Proof.Machine
end

