-- ==== Sys2Proof/Safety.lean ====
section
/-! DEFINITION. The terms claims use: the invariant of the machine, when the bus answers, which instructions touch what
(spec/10_state.md R38, R39; spec/60_exceptions.md R344), and the shapes several instructions share. Nothing here is part of the
machine: `step` does not use it. -/

namespace Sys2Proof.Machine

/-! ### Safe states -/

/-- What holds of every state the machine reaches: memory in its canonical form; the low nibble of `F` zero (R21); no
one-shot flag armed in Halted (R338, R353); an armed halt bug only with `IME` = 0 (R340); no error latched (R333). -/
structure State.Inv (s : State) : Prop where
  memory : Memory.wf s.mem
  flagsLow : s.f &&& 0x0F = 0
  haltedQuiet : s.halted = true → s.deferredEnable = false ∧ s.haltBugArmed = false
  haltBugMasked : s.haltBugArmed = true → s.ime = false ∧ s.deferredEnable = false
  notFaulted : s.fault = none

/-- The bus answers every read and every write, and goes on doing so whatever becomes of its own state. -/
def State.BusAnswers (s : State) : Prop :=
  ∀ (d : Nat) (addr : Word), ({ s with device := d } : State).canRead addr = true ∧
    ∀ v, ({ s with device := d } : State).canWrite addr v = true

/-- A safe state: its step ends in a next state. -/
def State.Safe (s : State) : Prop := ∃ t, step s = .next t

/-! ### Bus operations in sequence -/

/-- One bus operation, made by the CORE (R60). -/
def State.perform (s : State) : BusOp → State
  | .read addr _ => s.afterRead addr
  | .write addr v => s.afterWrite addr v

/-- After the operand byte at `PC` (R137). -/
def State.pastImm8 (s : State) : State := { s.afterRead s.pc with pc := s.pc + 1 }

/-- After the two operand bytes at `PC` (R138). -/
def State.pastImm16 (s : State) : State := { (s.afterRead s.pc).afterRead (s.pc + 1) with pc := s.pc + 2 }

/-- Both operand bytes can be read, one after the other. -/
def State.Operands16 (s : State) : Prop := s.canRead s.pc = true ∧ (s.afterRead s.pc).canRead (s.pc + 1) = true

/-- The operand word at `PC`: low byte first (R138). -/
def State.operand16 (s : State) : Word := (s.afterRead s.pc).byteAt (s.pc + 1) ++ s.byteAt s.pc

/-- Both bytes of the stack top can be read, the low byte first. -/
def State.StackReadable (s : State) : Prop := s.canRead s.sp = true ∧ (s.afterRead s.sp).canRead (s.sp + 1) = true

/-- The word on top of the stack: low byte first (R140). -/
def State.stackTop (s : State) : Word := (s.afterRead s.sp).byteAt (s.sp + 1) ++ s.byteAt s.sp

/-- After a pop (R140): the two reads and `SP`. -/
def State.popped (s : State) : State := { (s.afterRead s.sp).afterRead (s.sp + 1) with sp := s.sp + 2 }

/-- Both bytes of a push of `w` can be written, the high byte first. -/
def State.StackWritable (s : State) (w : Word) : Prop :=
  s.canWrite (s.sp - 1) (hiByte w) = true ∧ (s.afterWrite (s.sp - 1) (hiByte w)).canWrite (s.sp - 2) (loByte w) = true

/-- After a push of `w` (R139): the two writes, high byte first, and `SP`. -/
def State.pushed (s : State) (w : Word) : State :=
  { (s.afterWrite (s.sp - 1) (hiByte w)).afterWrite (s.sp - 2) (loByte w) with sp := s.sp - 2 }

/-- The two reads of R336 are answered, `IE` first. -/
def State.IrqReadable (s : State) : Prop := s.canRead 0xFFFF = true ∧ (s.afterRead 0xFFFF).canRead 0xFF0F = true

/-- The byte of `IF` those reads give. -/
def State.ifRead (s : State) : Byte := (s.afterRead 0xFFFF).byteAt 0xFF0F

/-- `IE & IF & 0x1F` as those reads give it (R335). -/
def State.pending (s : State) : Byte := s.byteAt 0xFFFF &&& s.ifRead &&& 0x1F

/-- After those reads. -/
def State.irqRead (s : State) : State := (s.afterRead 0xFFFF).afterRead 0xFF0F

/-! ### Which instruction runs, and what it may touch -/

/-- The instruction that runs: for the prefix row, the one the byte at `PC` selects (R142). -/
def effective (i : Instr) (s : State) : Instr :=
  match i with
  | .prefixCb => (decodePrefixed (s.byteAt s.pc)).toInstr
  | i => i

/-- The rows whose meaning raises `InvalidOpcode` (R322, R326). -/
def raises : Instr → Bool
  | .stop => true
  | i => i.isIllegal

/-- The rows of the flag table that write `F` (R39). -/
def writesFlags : Instr → Bool
  | .addAR8 _ | .adcAR8 _ | .subAR8 _ | .sbcAR8 _ | .andAR8 _ | .xorAR8 _ | .orAR8 _ | .cpAR8 _
  | .addAHl | .adcAHl | .subAHl | .sbcAHl | .andAHl | .xorAHl | .orAHl | .cpAHl
  | .addAD8 | .adcAD8 | .subAD8 | .sbcAD8 | .andAD8 | .xorAD8 | .orAD8 | .cpAD8
  | .incR8 _ | .incHl | .decR8 _ | .decHl | .daa | .cpl | .scf | .ccf
  | .addHlR16 _ | .addSpE8 | .ldHlSpE8 | .rlca | .rrca | .rla | .rra
  | .rlcR8 _ | .rrcR8 _ | .rlR8 _ | .rrR8 _ | .slaR8 _ | .sraR8 _ | .swapR8 _ | .srlR8 _
  | .rlcHl | .rrcHl | .rlHl | .rrHl | .slaHl | .sraHl | .swapHl | .srlHl
  | .bitR8 _ _ | .bitHl _ | .popAf => true
  | .popR16 p => p == .af
  | _ => false

/-- The registers of the 8-bit file an instruction may write (R38 and the instruction rules); `F` apart. -/
def mayWriteReg (i : Instr) (r : Reg8) : Bool :=
  match i with
  | .ldR8R8 dst _ | .ldR8Hl dst | .ldR8D8 dst | .incR8 dst | .decR8 dst => r == dst
  | .rlcR8 dst | .rrcR8 dst | .rlR8 dst | .rrR8 dst | .slaR8 dst | .sraR8 dst | .swapR8 dst | .srlR8 dst => r == dst
  | .resR8 _ dst | .setR8 _ dst => r == dst
  | .addAR8 _ | .adcAR8 _ | .subAR8 _ | .sbcAR8 _ | .andAR8 _ | .xorAR8 _ | .orAR8 _
  | .addAHl | .adcAHl | .subAHl | .sbcAHl | .andAHl | .xorAHl | .orAHl
  | .addAD8 | .adcAD8 | .subAD8 | .sbcAD8 | .andAD8 | .xorAD8 | .orAD8
  | .daa | .cpl | .rlca | .rrca | .rla | .rra | .popAf
  | .ldABc | .ldADe | .ldAA16 | .ldhAA8 | .ldhAC => r == .a
  | .ldAHli | .ldAHld => r == .a || r == .h || r == .l
  | .ldHliA | .ldHldA | .ldHlSpE8 | .addHlR16 _ => r == .h || r == .l
  | .ldR16D16 p | .incR16 p | .decR16 p =>
    match p with
    | .bc => r == .b || r == .c
    | .de => r == .d || r == .e
    | .hl => r == .h || r == .l
    | .sp => false
  | .popR16 p =>
    match p with
    | .bc => r == .b || r == .c
    | .de => r == .d || r == .e
    | .hl => r == .h || r == .l
    | .af => r == .a
  | _ => false

/-- The rows that may write `SP` (R23). -/
def mayWriteSp : Instr → Bool
  | .ldR16D16 r | .incR16 r | .decR16 r => r == .sp
  | .ldSpHl | .addSpE8 | .pushR16 _ | .popR16 _ | .popAf | .callA16 | .callCcA16 _ | .ret | .retCc _ | .reti | .rstT _ => true
  | _ => false

/-- The rows that transfer control (R24: `JP`, `JR`, `CALL`, `RET`, `RETI`, `RST`). -/
def transfersControl : Instr → Bool
  | .jpA16 | .jpCcA16 _ | .jpHl | .jrE8 | .jrCcE8 _ | .callA16 | .callCcA16 _ | .ret | .retCc _ | .reti | .rstT _ => true
  | _ => false

/-- The rows that move the interrupt and halt machine (R344). -/
def movesRunState : Instr → Bool
  | .halt | .ei | .di | .reti => true
  | _ => false

/-- The addresses an instruction stores to when it completes, in the order of the stores. -/
def storesTo (i : Instr) (s : State) : List Word :=
  match i with
  | .ldHlR8 _ | .ldHlD8 | .ldHliA | .ldHldA | .incHl | .decHl
  | .rlcHl | .rrcHl | .rlHl | .rrHl | .slaHl | .sraHl | .swapHl | .srlHl | .resHl _ | .setHl _ => [s.hl]
  | .ldBcA => [s.bc]
  | .ldDeA => [s.de]
  | .ldA16A => [s.operand16]
  | .ldhA8A => [highPage (s.byteAt s.pc)]
  | .ldhCA => [highPage s.c]
  | .ldA16Sp => [s.operand16, s.operand16 + 1]
  | .pushR16 _ | .callA16 | .rstT _ => [s.sp - 1, s.sp - 2]
  | .callCcA16 cc => if condHolds cc s then [s.sp - 1, s.sp - 2] else []
  | _ => []

/-- The internal-delay cases of R378, for a row and whether it is taken; and `HALT`, whose two reads cost nothing. -/
def hasInternalDelay : Instr → Bool → Bool
  | .addHlR16 _, _ | .incR16 _, _ | .decR16 _, _ | .ldSpHl, _ | .addSpE8, _ | .ldHlSpE8, _ | .pushR16 _, _ | .rstT _, _ => true
  | .ret, _ | .reti, _ | .retCc _, _ | .halt, _ => true
  | .jpA16, _ | .jrE8, _ | .callA16, _ => true
  | .jpCcA16 _, taken | .jrCcE8 _, taken | .callCcA16 _, taken => taken
  | _, _ => false

/-! ### Shapes several instructions share -/

/-- The three operand forms of an accumulator operation: `opReg` the byte of the form with register code 0, `opImm` that of the
immediate form, `eff x s` the state `s` after the operation on the operand `x`, cycles and bus operations apart. -/
structure AluForms (reg : Reg8 → Instr) (hl imm : Instr) (opReg opImm : Byte) (eff : Byte → State → State) : Prop where
  encodeReg : ∀ r, encode (reg r) = [opReg + r.code.setWidth 8]
  encodeHl : encode hl = [opReg + 6]
  encodeImm : encode imm = [opImm]
  onReg : ∀ s r, exec (reg r) s = .next ((eff (s.reg r) s).charge 1)
  onHl : ∀ s, s.canRead s.hl = true → exec hl s = .next ((eff (s.byteAt s.hl) (s.afterRead s.hl)).charge 2)
  onImm : ∀ s, s.canRead s.pc = true → exec imm s = .next ((eff (s.byteAt s.pc) s.pastImm8).charge 2)
  failHl : ∀ s, s.canRead s.hl = false → exec hl s = .fault (.outOfRange s.hl .read)
  failImm : ∀ s, s.canRead s.pc = false → exec imm s = .fault (.outOfRange s.pc .read)

/-- The two operand forms of a prefixed rotate or shift (R264): `op2` the second byte of the form with register code 0, `res v c`
and `out v c` the result and the bit moved out, of the operand `v` and the old `cf` `c`. -/
structure RotForms (reg : Reg8 → Instr) (hl : Instr) (op2 : Byte) (res : Byte → Bool → Byte) (out : Byte → Bool → Bool) :
    Prop where
  encodeReg : ∀ r, encode (reg r) = [0xCB, op2 + r.code.setWidth 8]
  encodeHl : encode hl = [0xCB, op2 + 6]
  onReg : ∀ s r, exec (reg r) s = .next
    (({ s with f := flags (res (s.reg r) s.cf == 0) false false (out (s.reg r) s.cf) }.setReg r (res (s.reg r) s.cf)).charge 2)
  onHl : ∀ s, s.canRead s.hl = true → (s.afterRead s.hl).canWrite s.hl (res (s.byteAt s.hl) s.cf) = true → exec hl s = .next
    ({ (s.afterRead s.hl).afterWrite s.hl (res (s.byteAt s.hl) s.cf) with
       f := flags (res (s.byteAt s.hl) s.cf == 0) false false (out (s.byteAt s.hl) s.cf) }.charge 4)
  failRead : ∀ s, s.canRead s.hl = false → exec hl s = .fault (.outOfRange s.hl .read)
  failWrite : ∀ s, s.canRead s.hl = true → (s.afterRead s.hl).canWrite s.hl (res (s.byteAt s.hl) s.cf) = false →
    exec hl s = .fault (.outOfRange s.hl .write)

/-- A load of `A` from an address: `pre` is the reading of the operand bytes, possible where `ready` holds; `upd` is what else the
instruction updates. -/
structure LoadsA (i : Instr) (addr : State → Word) (ready : State → Prop) (pre upd : State → State) (n : Nat) : Prop where
  loads : ∀ s, ready s → (pre s).canRead (addr s) = true →
    exec i s = .next ({ upd ((pre s).afterRead (addr s)) with a := (pre s).byteAt (addr s) }.charge n)
  fails : ∀ s, ready s → (pre s).canRead (addr s) = false → exec i s = .fault (.outOfRange (addr s) .read)

/-- A store of the byte `v s` at an address, in the same terms. -/
structure StoresByte (i : Instr) (addr : State → Word) (v : State → Byte) (ready : State → Prop) (pre upd : State → State)
    (n : Nat) : Prop where
  stores : ∀ s, ready s → (pre s).canWrite (addr s) (v s) = true →
    exec i s = .next ((upd ((pre s).afterWrite (addr s) (v s))).charge n)
  fails : ∀ s, ready s → (pre s).canWrite (addr s) (v s) = false → exec i s = .fault (.outOfRange (addr s) .write)

/-- The operand fetch of an instruction with two operand bytes: a failing read is the error, wherever it is. -/
structure Fetches16 (i : Instr) : Prop where
  failFirst : ∀ s, s.canRead s.pc = false → exec i s = .fault (.outOfRange s.pc .read)
  failSecond : ∀ s, s.canRead s.pc = true → (s.afterRead s.pc).canRead (s.pc + 1) = false →
    exec i s = .fault (.outOfRange (s.pc + 1) .read)

/-- A push of `w s` that fails names the first address that cannot be written (R139); `pre` as above. -/
structure PushFails (i : Instr) (ready : State → Prop) (pre : State → State) (w : State → Word) : Prop where
  failFirst : ∀ s, ready s → (pre s).canWrite (s.sp - 1) (hiByte (w s)) = false →
    exec i s = .fault (.outOfRange (s.sp - 1) .write)
  failSecond : ∀ s, ready s → (pre s).canWrite (s.sp - 1) (hiByte (w s)) = true →
    ((pre s).afterWrite (s.sp - 1) (hiByte (w s))).canWrite (s.sp - 2) (loByte (w s)) = false →
    exec i s = .fault (.outOfRange (s.sp - 2) .write)

/-- A pop that fails names the first address that cannot be read (R140). -/
structure PopFails (i : Instr) (ready : State → Prop) : Prop where
  failFirst : ∀ s, ready s → s.canRead s.sp = false → exec i s = .fault (.outOfRange s.sp .read)
  failSecond : ∀ s, ready s → s.canRead s.sp = true → (s.afterRead s.sp).canRead (s.sp + 1) = false →
    exec i s = .fault (.outOfRange (s.sp + 1) .read)

/-! ### Packed decimals -/

/-- Both nibbles are decimal digits. -/
def isBcd (v : Byte) : Prop := v.toNat / 16 ≤ 9 ∧ v.toNat % 16 ≤ 9

/-- The number a packed decimal stands for. -/
def bcdValue (v : Byte) : Nat := 10 * (v.toNat / 16) + v.toNat % 16

end Sys2Proof.Machine
end

