-- ==== Sys2Proof/Certificates/Slice0/Obligations.lean ====
section
/-! DEFINITION. The statements for the provers, one per `def Obligations.<Name> : Prop`. Titles, rules and quotes are in
OBLIGATIONS.json. `s.charge n` is `s` after `n` cycles; `s.afterRead a` and `s.afterWrite a v` are `s` after that operation on the
bus: on plain memory (log 1) the read changes nothing but the record of bus operations, and the write that byte of `mem`; where the
bus is the parameter `BUS` (log 26) either may change the bus's own state, and nothing else. An equation `exec i s = .next (… s …)`
names everything the instruction changes: what it does not name is as in `s`, all of memory included. Encodings and cycle counts
are clauses of the instruction rules; the spec takes both from general knowledge (logs 7, 25). -/

open Sys2Proof Sys2Proof.Machine

/-! ### Reset and the invariant -/

/-- R41: registers and `PC` as the source gives them; the run state by the spec's decision D8 (log 13); nothing latched (D6, log
9). The bus at reset (every address answered by plain memory, every byte 0x00) is the model's choice (logs 2, 3, 26). -/
def Obligations.ResetState : Prop :=
  let s := State.reset
  (s.a = 0 ∧ s.f = 0 ∧ s.b = 0 ∧ s.c = 0 ∧ s.d = 0 ∧ s.e = 0 ∧ s.h = 0 ∧ s.l = 0) ∧
  s.sp = 0x0000 ∧ s.pc = 0x0100 ∧
  (s.zf = false ∧ s.nf = false ∧ s.hf = false ∧ s.cf = false) ∧
  (s.ime = false ∧ s.halted = false ∧ s.deferredEnable = false ∧ s.haltBugArmed = false ∧ s.ticks = 0 ∧ s.fault = none) ∧
  s.BusAnswers ∧ (∀ addr, s.readRule addr = .memory ∧ s.writeRule addr = .memory ∧ s.byteAt addr = 0) ∧ s.Inv

/-- Every step keeps the invariant: canonical memory, `F[3:0]` = 0 (R21), nothing armed in Halted (R338, R353), an armed halt
bug only with `IME` = 0 (R340), nothing latched. From every state that meets it, whatever other agents do (R75). -/
def Obligations.StepKeepsInvariant : Prop :=
  ∀ s t : State, s.Inv → step s = .next t → t.Inv

/-! ### Encoding -/

/-- R90, R91, R103: decoding the encoded opcode bytes gives the instruction back, with every field at every value, whatever bytes
follow (for the prefix row alone: nothing may follow, or the byte after it is its second opcode). -/
def Obligations.DecodeReadsBackEveryEncoding : Prop :=
  ∀ (i : Instr) (rest : List Byte), WellFormed i → (i = .prefixCb → rest = []) → decode (encode i ++ rest) = some (i, rest)

/-- R103, R105 to R107, X6: each byte decodes to one well-formed row and encodes back to itself, in both spaces; the bare table
gives nothing for exactly the eleven bytes of R107 (the list is the spec's decision D10). -/
def Obligations.EveryByteHasOneMeaning : Prop :=
  (∀ b : Byte, WellFormed (decodeOpcode b) ∧ encode (decodeOpcode b) = [b]) ∧
  (∀ b : Byte, WellFormed (decodePrefixed b).toInstr ∧ encode (decodePrefixed b).toInstr = [0xCB, b]) ∧
  (∀ b : Byte, decodeLegal b = none ↔ b ∈ [0xD3#8, 0xDB#8, 0xDD#8, 0xE3#8, 0xE4#8, 0xEB#8, 0xEC#8, 0xED#8, 0xF4#8, 0xFC#8, 0xFD#8])

/-- R105, R106: words written out from the two maps, one of each family. -/
def Obligations.SampleWordsDecode : Prop :=
  decode [0x78] = some (.ldR8R8 .a .b, []) ∧
  decode [0x76] = some (.halt, []) ∧
  decode [0x06, 0x2A] = some (.ldR8D8 .b, [0x2A]) ∧
  decode [0x31, 0xFE, 0xFF] = some (.ldR16D16 .sp, [0xFE, 0xFF]) ∧
  decode [0xF5] = some (.pushR16 .af, []) ∧
  decode [0x9C] = some (.sbcAR8 .h, []) ∧
  decode [0xEE, 0x0F] = some (.xorAD8, [0x0F]) ∧
  decode [0x39] = some (.addHlR16 .sp, []) ∧
  decode [0xDC, 0x00, 0x02] = some (.callCcA16 .c, [0x00, 0x02]) ∧
  decode [0x20, 0xFC] = some (.jrCcE8 .nz, [0xFC]) ∧
  decode [0xEF] = some (.rstT 5, []) ∧
  decode [0xFB] = some (.ei, []) ∧
  decode [0xCB, 0x7F] = some (.bitR8 7 .a, []) ∧
  decode [0xCB, 0x16] = some (.rlHl, []) ∧
  decode [0xCB, 0xCB] = some (.setR8 1 .e, [])

/-! ### Registers, flags and memory -/

/-- R22: the pairs are views over two registers, high byte first; writing one writes its halves and nothing else; a write to
`AF` clears `F[3:0]`. -/
def Obligations.PairsAreViewsOverBytePairs : Prop :=
  (∀ s : State, s.af = s.a ++ s.f ∧ s.bc = s.b ++ s.c ∧ s.de = s.d ++ s.e ∧ s.hl = s.h ++ s.l) ∧
  (∀ (s : State) (w : Word),
    s.setRegStk .af w = { s with a := w.extractLsb' 8 8, f := w.extractLsb' 0 8 &&& 0xF0 } ∧
    s.setReg16 .bc w = { s with b := w.extractLsb' 8 8, c := w.extractLsb' 0 8 } ∧
    s.setReg16 .de w = { s with d := w.extractLsb' 8 8, e := w.extractLsb' 0 8 } ∧
    s.setReg16 .hl w = { s with h := w.extractLsb' 8 8, l := w.extractLsb' 0 8 } ∧
    (s.setReg16 .bc w).bc = w ∧ (s.setReg16 .de w).de = w ∧ (s.setReg16 .hl w).hl = w ∧
    (s.setRegStk .af w).af = w &&& 0xFFF0) ∧
  (∀ (s : State) (v : Byte), (s.setReg .b v).bc = v ++ s.c ∧ (s.setReg .c v).bc = s.b ++ v)

/-- R6, R8, R21: `Flags(z,n,h,c)` puts each flag in its bit of `F` and zeros below; the four flags are those bits. -/
def Obligations.FlagsPackFourBits : Prop :=
  ∀ (s : State) (z n h c : Bool),
    (flags z n h c).toNat = 128 * z.toNat + 64 * n.toNat + 32 * h.toNat + 16 * c.toNat ∧
    ({ s with f := flags z n h c } : State).zf = z ∧ ({ s with f := flags z n h c } : State).nf = n ∧
    ({ s with f := flags z n h c } : State).hf = h ∧ ({ s with f := flags z n h c } : State).cf = c

/-- Plain memory (log 1): a read after a write gives the byte written, every other address reads as before, and the
canonical form is kept. -/
def Obligations.MemoryReadsBackWrites : Prop :=
  ∀ (m : Memory) (addr : Word) (v : Byte),
    (m.write addr.toNat v).read addr.toNat = v ∧
    (∀ other : Word, other ≠ addr → (m.write addr.toNat v).read other.toNat = m.read other.toNat) ∧
    (Memory.wf m → Memory.wf (m.write addr.toNat v))

/-- Two memories in canonical form that read alike at every address are the same data (log 1). -/
def Obligations.CanonicalMemoriesReadingAlikeAreEqual : Prop :=
  ∀ m n : Memory, Memory.wf m → Memory.wf n → (∀ addr : Word, m.read addr.toNat = n.read addr.toNat) → m = n

/-- R60, R62, R80: the bus is arbitrary. Where an address is not claimed it does not answer. Where the range is plain memory (log 1) a
read gives the byte of memory and leaves the bus as it was, and a write is remembered; a `dropped` write is taken and leaves the bus
as it was. Where the range is the parameter `BUS` (log 26) the answer, and what becomes of the bus's own state, are what its two
functions give, `OutOfRange` included; plain memory is untouched. No operation changes what is claimed. -/
def Obligations.BusOperationsFollowTheClaimedRanges : Prop :=
  ∀ (s : State) (addr : Word) (v : Byte),
    (s.readRule addr = .refused → s.canRead addr = false) ∧
    (s.readRule addr = .memory → s.canRead addr = true ∧ s.byteAt addr = s.memAt addr ∧
      s.afterRead addr = { s with busLog := .read addr (s.memAt addr) :: s.busLog }) ∧
    (s.readRule addr = .device →
      match Config.deviceRead s.device addr with
      | none => s.canRead addr = false
      | some (w, d) => s.canRead addr = true ∧ s.byteAt addr = w ∧
        s.afterRead addr = { s with device := d, busLog := .read addr w :: s.busLog }) ∧
    (s.writeRule addr = .refused → s.canWrite addr v = false) ∧
    (s.writeRule addr = .memory → s.canWrite addr v = true ∧
      s.afterWrite addr v = { s with mem := s.mem.write addr.toNat v, busLog := .write addr v :: s.busLog }) ∧
    (s.writeRule addr = .dropped → s.canWrite addr v = true ∧
      s.afterWrite addr v = { s with busLog := .write addr v :: s.busLog }) ∧
    (s.writeRule addr = .device →
      match Config.deviceWrite s.device addr v with
      | none => s.canWrite addr v = false
      | some d => s.canWrite addr v = true ∧
        s.afterWrite addr v = { s with device := d, busLog := .write addr v :: s.busLog }) ∧
    (s.claims = [] → s.readRule addr = .refused ∧ s.writeRule addr = .refused) ∧
    (∀ (r : Region) (cs : List Region), s.claims = r :: cs →
      let rest : State := { s with claims := cs }
      let inside := r.first ≤ addr ∧ addr ≤ r.last
      (inside → r.reads ≠ .refused → s.readRule addr = r.reads) ∧
      (¬inside ∨ r.reads = .refused → s.readRule addr = rest.readRule addr) ∧
      (inside → r.writes ≠ .refused → s.writeRule addr = r.writes) ∧
      (¬inside ∨ r.writes = .refused → s.writeRule addr = rest.writeRule addr))

/-! ### 8-bit loads -/

/-- R160, R161, R163: the loads of a register, with `OutOfRange` where the one bus read of the form fails. -/
def Obligations.RegisterLoads : Prop :=
  (∀ dst r, encode (.ldR8R8 dst r) = [0x40 + 8 * dst.code.setWidth 8 + r.code.setWidth 8]) ∧
  (∀ dst, encode (.ldR8Hl dst) = [0x46 + 8 * dst.code.setWidth 8]) ∧
  (∀ dst, encode (.ldR8D8 dst) = [0x06 + 8 * dst.code.setWidth 8]) ∧
  (∀ s dst r, exec (.ldR8R8 dst r) s = .next ((s.setReg dst (s.reg r)).charge 1)) ∧
  (∀ s dst, s.canRead s.hl = true → exec (.ldR8Hl dst) s = .next (((s.afterRead s.hl).setReg dst (s.byteAt s.hl)).charge 2)) ∧
  (∀ s dst, s.canRead s.pc = true → exec (.ldR8D8 dst) s = .next
    (({ s.afterRead s.pc with pc := s.pc + 1 }.setReg dst (s.byteAt s.pc)).charge 2)) ∧
  (∀ s dst, s.canRead s.hl = false → exec (.ldR8Hl dst) s = .fault (.outOfRange s.hl .read)) ∧
  (∀ s dst, s.canRead s.pc = false → exec (.ldR8D8 dst) s = .fault (.outOfRange s.pc .read)) ∧
  (∀ (s : State) dst v, (s.setReg dst v).reg dst = v ∧ ∀ r, r ≠ dst → (s.setReg dst v).reg r = s.reg r)

/-- R162, R164: the stores through `HL`. -/
def Obligations.StoresThroughHl : Prop :=
  (∀ r, encode (.ldHlR8 r) = [0x70 + r.code.setWidth 8]) ∧ encode .ldHlD8 = [0x36] ∧
  (∀ r, StoresByte (.ldHlR8 r) State.hl (fun s => s.reg r) (fun _ => True) id id 2) ∧
  StoresByte .ldHlD8 State.hl (fun s => s.byteAt s.pc) (fun s => s.canRead s.pc = true)
    (fun s => { s.afterRead s.pc with pc := s.pc + 1 }) id 3 ∧
  (∀ s, s.canRead s.pc = false → exec .ldHlD8 s = .fault (.outOfRange s.pc .read))

/-- R165 to R172: loads and stores of `A` through a pair, with the increment or decrement of `HL`. -/
def Obligations.AccumulatorThroughPairs : Prop :=
  (encode .ldABc = [0x0A] ∧ encode .ldADe = [0x1A] ∧ encode .ldBcA = [0x02] ∧ encode .ldDeA = [0x12] ∧
   encode .ldAHli = [0x2A] ∧ encode .ldAHld = [0x3A] ∧ encode .ldHliA = [0x22] ∧ encode .ldHldA = [0x32]) ∧
  LoadsA .ldABc State.bc (fun _ => True) id id 2 ∧
  LoadsA .ldADe State.de (fun _ => True) id id 2 ∧
  LoadsA .ldAHli State.hl (fun _ => True) id (fun s => s.setReg16 .hl (s.hl + 1)) 2 ∧
  LoadsA .ldAHld State.hl (fun _ => True) id (fun s => s.setReg16 .hl (s.hl - 1)) 2 ∧
  StoresByte .ldBcA State.bc State.a (fun _ => True) id id 2 ∧
  StoresByte .ldDeA State.de State.a (fun _ => True) id id 2 ∧
  StoresByte .ldHliA State.hl State.a (fun _ => True) id (fun s => s.setReg16 .hl (s.hl + 1)) 2 ∧
  StoresByte .ldHldA State.hl State.a (fun _ => True) id (fun s => s.setReg16 .hl (s.hl - 1)) 2

/-- R173 to R178, R71, R102: loads and stores of `A` at an operand address and in the high page. -/
def Obligations.AccumulatorAtAddresses : Prop :=
  (encode .ldAA16 = [0xFA] ∧ encode .ldA16A = [0xEA] ∧ encode .ldhAA8 = [0xF0] ∧ encode .ldhA8A = [0xE0] ∧
   encode .ldhAC = [0xF2] ∧ encode .ldhCA = [0xE2]) ∧
  LoadsA .ldAA16 State.operand16 State.Operands16 State.pastImm16 id 4 ∧
  LoadsA .ldhAA8 (fun s => 0xFF#8 ++ s.byteAt s.pc) (fun s => s.canRead s.pc = true) State.pastImm8 id 3 ∧
  LoadsA .ldhAC (fun s => 0xFF#8 ++ s.c) (fun _ => True) id id 2 ∧
  StoresByte .ldA16A State.operand16 State.a State.Operands16 State.pastImm16 id 4 ∧
  StoresByte .ldhA8A (fun s => 0xFF#8 ++ s.byteAt s.pc) State.a (fun s => s.canRead s.pc = true) State.pastImm8 id 3 ∧
  StoresByte .ldhCA (fun s => 0xFF#8 ++ s.c) State.a (fun _ => True) id id 2 ∧
  Fetches16 .ldAA16 ∧ Fetches16 .ldA16A ∧
  (∀ s, s.canRead s.pc = false →
    exec .ldhAA8 s = .fault (.outOfRange s.pc .read) ∧ exec .ldhA8A s = .fault (.outOfRange s.pc .read)) ∧
  (∀ s : State, s.pastImm8 = { s.afterRead s.pc with pc := s.pc + 1 } ∧
    s.pastImm16 = { (s.afterRead s.pc).afterRead (s.pc + 1) with pc := s.pc + 2 } ∧
    s.operand16 = (s.afterRead s.pc).byteAt (s.pc + 1) ++ s.byteAt s.pc)

/-! ### 16-bit loads and the stack -/

/-- R190, R192: a 16-bit immediate (low byte first) into a pair or `SP`; `SP` from `HL`. -/
def Obligations.SixteenBitLoads : Prop :=
  (∀ r, encode (.ldR16D16 r) = [0x01 + 16 * r.code.setWidth 8]) ∧ encode .ldSpHl = [0xF9] ∧
  (∀ (s : State) r, s.Operands16 → exec (.ldR16D16 r) s =
    .next (({ (s.afterRead s.pc).afterRead (s.pc + 1) with pc := s.pc + 2 }.setReg16 r
      ((s.afterRead s.pc).byteAt (s.pc + 1) ++ s.byteAt s.pc)).charge 3)) ∧
  (∀ r, Fetches16 (.ldR16D16 r)) ∧
  (∀ (s : State) r w, (s.setReg16 r w).reg16 r = w) ∧
  (∀ s, exec .ldSpHl s = .next ({ s with sp := s.hl }.charge 2))

/-- R191: `LD [a16],SP` stores the low byte at `a16`, then the high byte at `a16 + 1`; that order is the spec's decision D17. -/
def Obligations.StoreStackPointer : Prop :=
  encode .ldA16Sp = [0x08] ∧
  (∀ s : State, s.Operands16 → s.pastImm16.canWrite s.operand16 (loByte s.sp) = true →
    (s.pastImm16.afterWrite s.operand16 (loByte s.sp)).canWrite (s.operand16 + 1) (hiByte s.sp) = true →
    exec .ldA16Sp s = .next
      (((s.pastImm16.afterWrite s.operand16 (loByte s.sp)).afterWrite (s.operand16 + 1) (hiByte s.sp)).charge 5)) ∧
  Fetches16 .ldA16Sp ∧
  (∀ s : State, s.Operands16 → s.pastImm16.canWrite s.operand16 (loByte s.sp) = false →
    exec .ldA16Sp s = .fault (.outOfRange s.operand16 .write)) ∧
  (∀ s : State, s.Operands16 → s.pastImm16.canWrite s.operand16 (loByte s.sp) = true →
    (s.pastImm16.afterWrite s.operand16 (loByte s.sp)).canWrite (s.operand16 + 1) (hiByte s.sp) = false →
    exec .ldA16Sp s = .fault (.outOfRange (s.operand16 + 1) .write))

/-- R139, R194: a push stores the high byte at `SP - 1` and the low byte at `SP - 2`, in that order, and leaves `SP - 2`. -/
def Obligations.PushStoresHighByteFirst : Prop :=
  (∀ p, encode (.pushR16 p) = [0xC5 + 16 * p.code.setWidth 8]) ∧
  (∀ (s : State) p, s.StackWritable (s.regStk p) → exec (.pushR16 p) s = .next ((s.pushed (s.regStk p)).charge 4)) ∧
  (∀ p, PushFails (.pushR16 p) (fun _ => True) id (fun s => s.regStk p)) ∧
  (∀ (s : State) w, s.pushed w =
    { (s.afterWrite (s.sp - 1) (w.extractLsb' 8 8)).afterWrite (s.sp - 2) (w.extractLsb' 0 8) with sp := s.sp - 2 }) ∧
  (∀ (s : State) w, s.writeRule (s.sp - 1) = .memory → s.writeRule (s.sp - 2) = .memory →
    (s.pushed w).memAt (s.sp - 1) = w.extractLsb' 8 8 ∧ (s.pushed w).memAt (s.sp - 2) = w.extractLsb' 0 8)

/-- R140, R195: a pop reads the low byte at `SP`, then the high byte at `SP + 1`, and leaves `SP + 2`. -/
def Obligations.PopReadsLowByteFirst : Prop :=
  (∀ p, p ≠ .af → encode (.popR16 p) = [0xC1 + 16 * p.code.setWidth 8]) ∧
  (∀ (s : State) p, s.StackReadable → exec (.popR16 p) s =
    .next (({ (s.afterRead s.sp).afterRead (s.sp + 1) with sp := s.sp + 2 }.setRegStk p
      ((s.afterRead s.sp).byteAt (s.sp + 1) ++ s.byteAt s.sp)).charge 3)) ∧
  (∀ p, PopFails (.popR16 p) (fun _ => True)) ∧
  (∀ (s : State) p w, p ≠ .af → (s.setRegStk p w).regStk p = w)

/-- R196: `POP AF` writes `A` from the high byte and the flags from bits 7..4 of the low byte; dropping bits 3..0 is the spec's
decision D21. -/
def Obligations.PopAfDropsLowNibble : Prop :=
  encode .popAf = [0xF1] ∧
  (∀ s : State, s.StackReadable → exec .popAf s =
    .next ({ (s.afterRead s.sp).afterRead (s.sp + 1) with
      a := (s.afterRead s.sp).byteAt (s.sp + 1), f := s.byteAt s.sp &&& 0xF0, sp := s.sp + 2 }.charge 3)) ∧
  PopFails .popAf (fun _ => True)

/-- R193, R250, R254: `LD HL,SP+e8` and `ADD SP,e8`. The model fixes `SPREL_FLAGS` = `doc` (log 4, the spec's decision D11): the
carries of bits 11 and 15. The meanings with the other value take bits 3 and 7 of the low byte and the unsigned operand. The sum is
the same for both. -/
def Obligations.StackPointerRelative : Prop :=
  encode .ldHlSpE8 = [0xF8] ∧ encode .addSpE8 = [0xE8] ∧
  (∀ s : State, s.canRead s.pc = true →
    let e := s.byteAt s.pc
    let off := e.signExtend 16
    let doc := flags false false (decide (s.sp.toNat % 4096 + off.toNat % 4096 > 4095)) (decide (s.sp.toNat + off.toNat > 65535))
    let chip := flags false false (decide (s.sp.toNat % 16 + e.toNat % 16 > 15)) (decide (s.sp.toNat % 256 + e.toNat > 255))
    let hlSp (fl : Byte) : State := { s.pastImm8.setReg16 .hl (s.sp + off) with f := fl }
    let spSp (fl : Byte) : State := { s.pastImm8 with sp := s.sp + off, f := fl }
    exec .ldHlSpE8 s = .next ((hlSp doc).charge 3) ∧
    exec .addSpE8 s = .next ((spSp doc).charge 4) ∧
    ldHlSpE8 .lr35902 s = .next ((hlSp chip).charge 3) ∧
    addSpE8 .lr35902 s = .next ((spSp chip).charge 4)) ∧
  (∀ s, s.canRead s.pc = false →
    exec .ldHlSpE8 s = .fault (.outOfRange s.pc .read) ∧ exec .addSpE8 s = .fault (.outOfRange s.pc .read))

/-! ### 8-bit arithmetic and logic -/

/-- R212 to R215: `ADD` and `ADC` in their three forms; half carry out of bit 3, carry out of bit 7, as integers; the old `cf`
enters the sum and both tests of `ADC`. -/
def Obligations.AdditionsWithFlags : Prop :=
  AluForms .addAR8 .addAHl .addAD8 0x80 0xC6 (fun x s =>
    { s with
      a := s.a + x
      f := flags (s.a + x == 0) false (decide (s.a.toNat % 16 + x.toNat % 16 > 15)) (decide (s.a.toNat + x.toNat > 255)) }) ∧
  AluForms .adcAR8 .adcAHl .adcAD8 0x88 0xCE (fun x s =>
    let sum := s.a.toNat + x.toNat + s.cf.toNat
    { s with
      a := BitVec.ofNat 8 sum
      f := flags (sum % 256 == 0) false (decide (s.a.toNat % 16 + x.toNat % 16 + s.cf.toNat > 15)) (decide (sum > 255)) })

/-- R216 to R219, R226, R227: `SUB`, `SBC` and `CP` in their three forms; half borrow into bit 3, borrow, as integers; the old `cf`
enters the difference and both tests of `SBC`; `CP` leaves `A`. -/
def Obligations.SubtractionsWithFlags : Prop :=
  AluForms .subAR8 .subAHl .subAD8 0x90 0xD6 (fun x s =>
    { s with
      a := s.a - x
      f := flags (s.a == x) true (decide (s.a.toNat % 16 < x.toNat % 16)) (decide (s.a.toNat < x.toNat)) }) ∧
  AluForms .sbcAR8 .sbcAHl .sbcAD8 0x98 0xDE (fun x s =>
    let r := BitVec.ofInt 8 ((s.a.toNat : Int) - x.toNat - s.cf.toNat)
    { s with
      a := r
      f := flags (r == 0) true (decide (s.a.toNat % 16 < x.toNat % 16 + s.cf.toNat)) (decide (s.a.toNat < x.toNat + s.cf.toNat)) }) ∧
  AluForms .cpAR8 .cpAHl .cpAD8 0xB8 0xFE (fun x s =>
    { s with f := flags (s.a == x) true (decide (s.a.toNat % 16 < x.toNat % 16)) (decide (s.a.toNat < x.toNat)) })

/-- R220 to R225: `AND`, `XOR`, `OR` in their three forms. -/
def Obligations.LogicWithFlags : Prop :=
  AluForms .andAR8 .andAHl .andAD8 0xA0 0xE6 (fun x s => { s with a := s.a &&& x, f := flags (s.a &&& x == 0) false true false }) ∧
  AluForms .xorAR8 .xorAHl .xorAD8 0xA8 0xEE (fun x s => { s with a := s.a ^^^ x, f := flags (s.a ^^^ x == 0) false false false }) ∧
  AluForms .orAR8 .orAHl .orAD8 0xB0 0xF6 (fun x s => { s with a := s.a ||| x, f := flags (s.a ||| x == 0) false false false })

/-- R228 to R231: `INC` and `DEC` of a register and of `[HL]`; `cf` keeps its value. -/
def Obligations.IncrementDecrementByte : Prop :=
  let incF (v : Byte) (c : Bool) := flags (v == 0xFF) false (v.extractLsb' 0 4 == 0xF#4) c
  let decF (v : Byte) (c : Bool) := flags (v == 0x01) true (v.extractLsb' 0 4 == 0#4) c
  (∀ r, encode (.incR8 r) = [0x04 + 8 * r.code.setWidth 8] ∧ encode (.decR8 r) = [0x05 + 8 * r.code.setWidth 8]) ∧
  encode .incHl = [0x34] ∧ encode .decHl = [0x35] ∧
  (∀ s r, exec (.incR8 r) s = .next (({ s with f := incF (s.reg r) s.cf }.setReg r (s.reg r + 1)).charge 1)) ∧
  (∀ s r, exec (.decR8 r) s = .next (({ s with f := decF (s.reg r) s.cf }.setReg r (s.reg r - 1)).charge 1)) ∧
  (∀ s, s.canRead s.hl = true →
    ((s.afterRead s.hl).canWrite s.hl (s.byteAt s.hl + 1) = true → exec .incHl s = .next
      ({ (s.afterRead s.hl).afterWrite s.hl (s.byteAt s.hl + 1) with f := incF (s.byteAt s.hl) s.cf }.charge 3)) ∧
    ((s.afterRead s.hl).canWrite s.hl (s.byteAt s.hl - 1) = true → exec .decHl s = .next
      ({ (s.afterRead s.hl).afterWrite s.hl (s.byteAt s.hl - 1) with f := decF (s.byteAt s.hl) s.cf }.charge 3))) ∧
  (∀ s, s.canRead s.hl = false →
    exec .incHl s = .fault (.outOfRange s.hl .read) ∧ exec .decHl s = .fault (.outOfRange s.hl .read)) ∧
  (∀ s, s.canRead s.hl = true →
    ((s.afterRead s.hl).canWrite s.hl (s.byteAt s.hl + 1) = false → exec .incHl s = .fault (.outOfRange s.hl .write)) ∧
    ((s.afterRead s.hl).canWrite s.hl (s.byteAt s.hl - 1) = false → exec .decHl s = .fault (.outOfRange s.hl .write)))

/-- R232: `DAA`. That both addition-mode tests look at the entry value of `A` is the spec's decision D12. -/
def Obligations.DecimalAdjust : Prop :=
  encode .daa = [0x27] ∧
  (∀ s : State, s.nf = true →
    let r : Byte := s.a - (if s.hf then 0x06 else 0) - (if s.cf then 0x60 else 0)
    exec .daa s = .next ({ s with a := r, f := flags (r == 0) true false s.cf }.charge 1)) ∧
  (∀ s : State, s.nf = false →
    let six := s.hf = true ∨ s.a.toNat % 16 > 9
    let sixty := s.cf = true ∨ s.a.toNat > 0x99
    ∀ r : Byte,
      (six → sixty → r = s.a + 0x66) → (six → ¬sixty → r = s.a + 0x06) → (¬six → sixty → r = s.a + 0x60) →
      (¬six → ¬sixty → r = s.a) → ∀ c : Bool, (c = true ↔ sixty) →
      exec .daa s = .next ({ s with a := r, f := flags (r == 0) false false c }.charge 1))

/-- 00_scope.md glossary (DAA "corrects binary arithmetic into packed BCD"), R212 to R219, R232: `ADD`, `ADC`, `SUB` or `SBC` of two
packed decimals, then `DAA`, gives the packed decimal of the sum or difference modulo 100, with `cf` the decimal carry or
borrow. -/
def Obligations.DaaGivesPackedDecimals : Prop :=
  ∀ (s t u : State) (r : Reg8), isBcd s.a → isBcd (s.reg r) → exec .daa t = .next u →
    (exec (.addAR8 r) s = .next t →
      isBcd u.a ∧ bcdValue u.a + 100 * u.cf.toNat = bcdValue s.a + bcdValue (s.reg r)) ∧
    (exec (.adcAR8 r) s = .next t →
      isBcd u.a ∧ bcdValue u.a + 100 * u.cf.toNat = bcdValue s.a + bcdValue (s.reg r) + s.cf.toNat) ∧
    (exec (.subAR8 r) s = .next t →
      isBcd u.a ∧ bcdValue u.a + bcdValue (s.reg r) = bcdValue s.a + 100 * u.cf.toNat) ∧
    (exec (.sbcAR8 r) s = .next t →
      isBcd u.a ∧ bcdValue u.a + bcdValue (s.reg r) + s.cf.toNat = bcdValue s.a + 100 * u.cf.toNat)

/-- R233 to R235: `CPL`, `SCF`, `CCF`. -/
def Obligations.ComplementAndCarryFlags : Prop :=
  encode .cpl = [0x2F] ∧ encode .scf = [0x37] ∧ encode .ccf = [0x3F] ∧
  ∀ s : State,
    exec .cpl s = .next ({ s with a := 0xFF - s.a, f := flags s.zf true true s.cf }.charge 1) ∧
    exec .scf s = .next ({ s with f := flags s.zf false false true }.charge 1) ∧
    exec .ccf s = .next ({ s with f := flags s.zf false false (!s.cf) }.charge 1)

/-! ### 16-bit arithmetic -/

/-- R251: `ADD HL,r16`; carries out of bits 11 and 15, `zf` unchanged, both addends old values. -/
def Obligations.AddToHl : Prop :=
  (∀ r, encode (.addHlR16 r) = [0x09 + 16 * r.code.setWidth 8]) ∧
  ∀ (s : State) r, exec (.addHlR16 r) s = .next
    ({ s.setReg16 .hl (s.hl + s.reg16 r) with
       f := flags s.zf false (decide (s.hl.toNat % 4096 + (s.reg16 r).toNat % 4096 > 4095))
         (decide (s.hl.toNat + (s.reg16 r).toNat > 65535)) }.charge 2)

/-- R252, R253: `INC r16` and `DEC r16`, modulo 65536, no flag. -/
def Obligations.IncrementDecrementWord : Prop :=
  (∀ r, encode (.incR16 r) = [0x03 + 16 * r.code.setWidth 8] ∧ encode (.decR16 r) = [0x0B + 16 * r.code.setWidth 8]) ∧
  ∀ (s : State) r,
    exec (.incR16 r) s = .next ((s.setReg16 r (BitVec.ofNat 16 ((s.reg16 r).toNat + 1))).charge 2) ∧
    exec (.decR16 r) s = .next ((s.setReg16 r (BitVec.ofNat 16 ((s.reg16 r).toNat + 65535))).charge 2)

/-! ### Rotates, shifts and bits -/

/-- R260 to R263: the accumulator rotates; `zf` is always cleared. -/
def Obligations.AccumulatorRotates : Prop :=
  encode .rlca = [0x07] ∧ encode .rrca = [0x0F] ∧ encode .rla = [0x17] ∧ encode .rra = [0x1F] ∧
  ∀ s : State,
    exec .rlca s = .next ({ s with a := s.a.rotateLeft 1, f := flags false false false (s.a.getLsbD 7) }.charge 1) ∧
    exec .rrca s = .next ({ s with a := s.a.rotateRight 1, f := flags false false false (s.a.getLsbD 0) }.charge 1) ∧
    exec .rla s = .next
      ({ s with a := s.a <<< 1 ||| (if s.cf then 0x01 else 0), f := flags false false false (s.a.getLsbD 7) }.charge 1) ∧
    exec .rra s = .next
      ({ s with a := s.a >>> 1 ||| (if s.cf then 0x80 else 0), f := flags false false false (s.a.getLsbD 0) }.charge 1)

/-- R264 to R268: the prefixed rotates, on a register and on `[HL]`. -/
def Obligations.PrefixedRotates : Prop :=
  RotForms .rlcR8 .rlcHl 0x00 (fun v _ => v.rotateLeft 1) (fun v _ => v.getLsbD 7) ∧
  RotForms .rrcR8 .rrcHl 0x08 (fun v _ => v.rotateRight 1) (fun v _ => v.getLsbD 0) ∧
  RotForms .rlR8 .rlHl 0x10 (fun v c => v <<< 1 ||| (if c then 0x01 else 0)) (fun v _ => v.getLsbD 7) ∧
  RotForms .rrR8 .rrHl 0x18 (fun v c => v >>> 1 ||| (if c then 0x80 else 0)) (fun v _ => v.getLsbD 0)

/-- R264, R269 to R272: the prefixed shifts and `SWAP`, on a register and on `[HL]`. -/
def Obligations.PrefixedShiftsAndSwap : Prop :=
  RotForms .slaR8 .slaHl 0x20 (fun v _ => v <<< 1) (fun v _ => v.getLsbD 7) ∧
  RotForms .sraR8 .sraHl 0x28 (fun v _ => v.sshiftRight 1) (fun v _ => v.getLsbD 0) ∧
  RotForms .swapR8 .swapHl 0x30 (fun v _ => v.rotateLeft 4) (fun _ _ => false) ∧
  RotForms .srlR8 .srlHl 0x38 (fun v _ => v >>> 1) (fun v _ => v.getLsbD 0)

/-- R273: `BIT b` sets `zf` when the tested bit is 0, keeps `cf`, writes nothing back. -/
def Obligations.BitTests : Prop :=
  (∀ b r, encode (.bitR8 b r) = [0xCB, 0x40 + 8 * b.setWidth 8 + r.code.setWidth 8]) ∧
  (∀ b, encode (.bitHl b) = [0xCB, 0x46 + 8 * b.setWidth 8]) ∧
  (∀ s b r, exec (.bitR8 b r) s =
    .next ({ s with f := flags (!(s.reg r).getLsbD b.toNat) false true s.cf }.charge 2)) ∧
  (∀ s b, s.canRead s.hl = true → exec (.bitHl b) s =
    .next ({ s.afterRead s.hl with f := flags (!(s.byteAt s.hl).getLsbD b.toNat) false true s.cf }.charge 3)) ∧
  (∀ s b, s.canRead s.hl = false → exec (.bitHl b) s = .fault (.outOfRange s.hl .read))

/-- R264, R274, R275: `RES b` and `SET b` change bit `b` of the operand and no other bit, and no flag; `[HL]` is written back in
every case. -/
def Obligations.BitResetAndSet : Prop :=
  (∀ b r, encode (.resR8 b r) = [0xCB, 0x80 + 8 * b.setWidth 8 + r.code.setWidth 8] ∧
    encode (.setR8 b r) = [0xCB, 0xC0 + 8 * b.setWidth 8 + r.code.setWidth 8]) ∧
  (∀ b, encode (.resHl b) = [0xCB, 0x86 + 8 * b.setWidth 8] ∧ encode (.setHl b) = [0xCB, 0xC6 + 8 * b.setWidth 8]) ∧
  (∀ (s : State) (b : BitVec 3) (v : Byte) (on : Bool),
    (∀ r, (∀ j, j < 8 → v.getLsbD j = if j = b.toNat then on else (s.reg r).getLsbD j) →
      exec (if on then .setR8 b r else .resR8 b r) s = .next ((s.setReg r v).charge 2)) ∧
    ((∀ j, j < 8 → v.getLsbD j = if j = b.toNat then on else (s.byteAt s.hl).getLsbD j) → s.canRead s.hl = true →
      ((s.afterRead s.hl).canWrite s.hl v = true →
        exec (if on then .setHl b else .resHl b) s = .next (((s.afterRead s.hl).afterWrite s.hl v).charge 4)) ∧
      ((s.afterRead s.hl).canWrite s.hl v = false →
        exec (if on then .setHl b else .resHl b) s = .fault (.outOfRange s.hl .write)))) ∧
  (∀ s b, s.canRead s.hl = false →
    exec (.resHl b) s = .fault (.outOfRange s.hl .read) ∧ exec (.setHl b) s = .fault (.outOfRange s.hl .read))

/-- R142, R325: the prefix row reads the second opcode byte at `PC`, with a normal increment, and runs the instruction that byte
decodes to, in the same step. After a halt bug `PC` still stands at the 0xCB, which is then read again: `SET 1,E` (the spec's
decision D20). -/
def Obligations.PrefixRunsSecondByte : Prop :=
  encode .prefixCb = [0xCB] ∧
  (∀ s : State, s.canRead s.pc = true → exec .prefixCb s =
    exec (decodePrefixed (s.byteAt s.pc)).toInstr { s.afterRead s.pc with pc := s.pc + 1 }) ∧
  (∀ s : State, s.canRead s.pc = true → s.byteAt s.pc = 0xCB → exec .prefixCb s =
    .next ({ s.afterRead s.pc with e := s.e ||| 0x02, pc := s.pc + 1 }.charge 2)) ∧
  (∀ s : State, s.canRead s.pc = false → exec .prefixCb s = .fault (.outOfRange s.pc .read))

/-! ### Control transfer -/

/-- R291, R293, R294: `JP a16`, `JP HL`, `JR e8`; the base of `JR` is the address after the instruction, modulo 65536. -/
def Obligations.UnconditionalJumps : Prop :=
  encode .jpA16 = [0xC3] ∧ encode .jpHl = [0xE9] ∧ encode .jrE8 = [0x18] ∧
  (∀ s : State, s.Operands16 → exec .jpA16 s = .next
    ({ (s.afterRead s.pc).afterRead (s.pc + 1) with pc := (s.afterRead s.pc).byteAt (s.pc + 1) ++ s.byteAt s.pc }.charge 4)) ∧
  Fetches16 .jpA16 ∧
  (∀ s : State, exec .jpHl s = .next ({ s with pc := s.hl }.charge 1)) ∧
  (∀ s : State, s.canRead s.pc = true → exec .jrE8 s =
    .next ({ s.afterRead s.pc with pc := BitVec.ofInt 16 ((s.pc.toNat : Int) + 1 + (s.byteAt s.pc).toInt) }.charge 3)) ∧
  (∀ s : State, s.canRead s.pc = false → exec .jrE8 s = .fault (.outOfRange s.pc .read))

/-- R27, R290, R292, R295: the conditional jumps. That the operand bytes of a jump not taken are read is the spec's decision
D13. -/
def Obligations.ConditionalJumps : Prop :=
  (∀ cc, encode (.jpCcA16 cc) = [0xC2 + 8 * cc.code.setWidth 8] ∧ encode (.jrCcE8 cc) = [0x20 + 8 * cc.code.setWidth 8]) ∧
  (∀ s : State, (condHolds .nz s = true ↔ s.zf = false) ∧ (condHolds .z s = true ↔ s.zf = true) ∧
    (condHolds .nc s = true ↔ s.cf = false) ∧ (condHolds .c s = true ↔ s.cf = true)) ∧
  (∀ (s : State) cc, s.Operands16 → exec (.jpCcA16 cc) s = .next
    (if condHolds cc s then { (s.afterRead s.pc).afterRead (s.pc + 1) with pc := (s.afterRead s.pc).byteAt (s.pc + 1) ++ s.byteAt s.pc }.charge 4
     else { (s.afterRead s.pc).afterRead (s.pc + 1) with pc := s.pc + 2 }.charge 3)) ∧
  (∀ cc, Fetches16 (.jpCcA16 cc)) ∧
  (∀ (s : State) cc, s.canRead s.pc = true → exec (.jrCcE8 cc) s = .next
    (if condHolds cc s then
      { s.afterRead s.pc with pc := BitVec.ofInt 16 ((s.pc.toNat : Int) + 1 + (s.byteAt s.pc).toInt) }.charge 3
     else { s.afterRead s.pc with pc := s.pc + 1 }.charge 2)) ∧
  (∀ (s : State) cc, s.canRead s.pc = false → exec (.jrCcE8 cc) s = .fault (.outOfRange s.pc .read))

/-- R296, R301: `CALL a16` pushes the address after the instruction and goes to the operand; `RST t` pushes the address after its
byte and goes to `t * 8`. -/
def Obligations.CallsAndRestarts : Prop :=
  encode .callA16 = [0xCD] ∧ (∀ t, encode (.rstT t) = [0xC7 + 8 * t.setWidth 8]) ∧
  (∀ s : State, s.Operands16 → s.pastImm16.StackWritable (s.pc + 2) →
    exec .callA16 s = .next ({ s.pastImm16.pushed (s.pc + 2) with pc := s.operand16 }.charge 6)) ∧
  Fetches16 .callA16 ∧ PushFails .callA16 State.Operands16 State.pastImm16 (fun s => s.pc + 2) ∧
  (∀ (s : State) t, s.StackWritable s.pc → exec (.rstT t) s = .next
    ({ s.pushed s.pc with pc := BitVec.ofNat 16 (8 * t.toNat) }.charge 4)) ∧
  (∀ t, PushFails (.rstT t) (fun _ => True) id State.pc)

/-- R297: `CALL cc,a16`; not taken it leaves the stack alone. That its operand bytes are then read is the spec's decision D13. -/
def Obligations.ConditionalCalls : Prop :=
  (∀ cc, encode (.callCcA16 cc) = [0xC4 + 8 * cc.code.setWidth 8]) ∧
  (∀ (s : State) cc, s.Operands16 → s.pastImm16.StackWritable (s.pc + 2) → condHolds cc s = true →
    exec (.callCcA16 cc) s = .next ({ s.pastImm16.pushed (s.pc + 2) with pc := s.operand16 }.charge 6)) ∧
  (∀ (s : State) cc, s.Operands16 → condHolds cc s = false → exec (.callCcA16 cc) s = .next (s.pastImm16.charge 3)) ∧
  (∀ cc, Fetches16 (.callCcA16 cc)) ∧
  (∀ cc, PushFails (.callCcA16 cc) (fun s => s.Operands16 ∧ condHolds cc s = true) State.pastImm16 (fun s => s.pc + 2))

/-- R298, R299: `RET` and `RET cc`; not taken, `RET cc` reads nothing. -/
def Obligations.Returns : Prop :=
  encode .ret = [0xC9] ∧ (∀ cc, encode (.retCc cc) = [0xC0 + 8 * cc.code.setWidth 8]) ∧
  (∀ s : State, s.StackReadable → exec .ret s =
    .next ({ (s.afterRead s.sp).afterRead (s.sp + 1) with
      pc := (s.afterRead s.sp).byteAt (s.sp + 1) ++ s.byteAt s.sp, sp := s.sp + 2 }.charge 4)) ∧
  PopFails .ret (fun _ => True) ∧
  (∀ (s : State) cc, s.StackReadable → condHolds cc s = true → exec (.retCc cc) s =
    .next ({ (s.afterRead s.sp).afterRead (s.sp + 1) with
      pc := (s.afterRead s.sp).byteAt (s.sp + 1) ++ s.byteAt s.sp, sp := s.sp + 2 }.charge 5)) ∧
  (∀ (s : State) cc, condHolds cc s = false → exec (.retCc cc) s = .next (s.charge 2)) ∧
  (∀ cc, PopFails (.retCc cc) (fun s => condHolds cc s = true))

/-- R300: `RETI` pops `PC` and sets `IME` at once. -/
def Obligations.ReturnFromInterruptSetsIme : Prop :=
  encode .reti = [0xD9] ∧
  (∀ s : State, s.StackReadable → exec .reti s =
    .next ({ (s.afterRead s.sp).afterRead (s.sp + 1) with
      pc := (s.afterRead s.sp).byteAt (s.sp + 1) ++ s.byteAt s.sp, sp := s.sp + 2, ime := true }.charge 4)) ∧
  PopFails .reti (fun _ => True)

/-! ### CPU control -/

/-- R320, R323, R324: `NOP`, `DI`, `EI`. -/
def Obligations.NopDiEi : Prop :=
  encode .nop = [0x00] ∧ encode .di = [0xF3] ∧ encode .ei = [0xFB] ∧
  ∀ s : State,
    exec .nop s = .next (s.charge 1) ∧
    exec .di s = .next ({ s with ime := false }.charge 1) ∧
    exec .ei s = .next ({ s with deferredEnable := true }.charge 1)

/-- R321: `HALT` arms the halt bug when an enabled request is pending and `IME` is 0, and enters Halted otherwise. That it reads
`IE` and `IF` again, `IE` first, is the spec's decisions D2 and D3. -/
def Obligations.HaltEntersHaltedOrArmsTheBug : Prop :=
  encode .halt = [0x76] ∧
  (∀ s : State, s.IrqReadable →
    (s.pending ≠ 0 ∧ s.ime = false → exec .halt s = .next ({ s.irqRead with haltBugArmed := true }.charge 1)) ∧
    (s.pending = 0 ∨ s.ime = true → exec .halt s = .next ({ s.irqRead with halted := true }.charge 1))) ∧
  (∀ s : State, s.canRead 0xFFFF = false → exec .halt s = .fault (.outOfRange 0xFFFF .read)) ∧
  (∀ s : State, s.canRead 0xFFFF = true → (s.afterRead 0xFFFF).canRead 0xFF0F = false →
    exec .halt s = .fault (.outOfRange 0xFF0F .read)) ∧
  (∀ s : State, s.irqRead = (s.afterRead 0xFFFF).afterRead 0xFF0F ∧
    s.pending = s.byteAt 0xFFFF &&& (s.afterRead 0xFFFF).byteAt 0xFF0F &&& 0x1F)

/-- R322: byte 0x10 raises `InvalidOpcode` with the address it was fetched from, under `STOP_POLICY` = `fault`, which is the spec's
decision D9 (log 5). -/
def Obligations.StopRaisesInvalidOpcode : Prop :=
  encode .stop = [0x10] ∧ ∀ s : State, exec .stop s = .fault (.invalidOpcode 0x10 s.opAddr)

/-- R326, R331: each illegal byte raises `InvalidOpcode` with the byte and the address it was fetched from. -/
def Obligations.IllegalBytesRaiseInvalidOpcode : Prop :=
  ∀ b ∈ [0xD3#8, 0xDB#8, 0xDD#8, 0xE3#8, 0xE4#8, 0xEB#8, 0xEC#8, 0xED#8, 0xF4#8, 0xFC#8, 0xFD#8],
    decodeLegal b = none ∧ ∀ s : State, exec (decodeOpcode b) s = .fault (.invalidOpcode b s.opAddr)

/-! ### The step -/

/-- R130 to R134: when no interrupt is due, a step of a running machine is `exec` of the instruction the byte at `PC` decodes to, in
the state after the two reads of R336 (`IE` first: the spec's decision D2, log 6), the fetch (R132), and the deferred enable (R133).
`s.begun` is `s` after what other agents did between the steps (R75; log 12): for an empty queue, `s` itself with the record of bus
operations emptied. -/
def Obligations.StepRunsTheDecodedInstruction : Prop :=
  (∀ s : State, s.fault = none →
    let u := s.begun.irqRead
    s.begun.IrqReadable → u.canRead u.pc = true → u.halted = false → (s.begun.pending = 0 ∨ u.ime = false) →
    step s = exec (decodeOpcode (u.byteAt u.pc))
      { u.afterRead u.pc with
        opAddr := u.pc
        pc := if u.haltBugArmed then u.pc else u.pc + 1
        haltBugArmed := false
        ime := u.ime || u.deferredEnable
        deferredEnable := false }) ∧
  (∀ s : State, s.irqRead = (s.afterRead 0xFFFF).afterRead 0xFF0F) ∧
  (∀ s : State, s.env = [] → s.begun = { s with busLog := [] }) ∧
  (∀ (s : State) e rest, s.env = e :: rest → s.begun = { e.foldl State.onEvent { s with env := rest } with busLog := [] })

/-- R338, R339, R345, R353, of `s.begun`: whatever other agents did before the step, a request of theirs included (R75). A Halted step
reads `IE`, then `IF` (that order is the spec's decision D2, log 6). Nothing pending: one cycle and nothing else. Pending with `IME`
= 1: Halted ends and the step is a dispatch (R340). Pending with `IME` = 0: Halted ends and the byte at `PC` is fetched and executed
in the same step, at the instruction's cost and no more (the spec's decision D18, log 18); where that fetch fails, it is the error
(R345). -/
def Obligations.HaltedStep : Prop :=
  ∀ s : State, s.fault = none → s.begun.halted = true → s.begun.IrqReadable →
    let u := s.begun.irqRead
    (s.begun.pending = 0 → step s = .next (u.charge 1)) ∧
    (s.begun.pending ≠ 0 → u.ime = true → step s = takeInterrupt s.begun.ifRead s.begun.pending { u with halted := false }) ∧
    (s.begun.pending ≠ 0 → u.ime = false → u.canRead u.pc = true → step s = exec (decodeOpcode (u.byteAt u.pc))
      { u.afterRead u.pc with
        halted := false
        opAddr := u.pc
        pc := if u.haltBugArmed then u.pc else u.pc + 1
        haltBugArmed := false
        ime := u.deferredEnable
        deferredEnable := false }) ∧
    (s.begun.pending ≠ 0 → u.ime = false → u.canRead u.pc = false → step s = .fault (.outOfRange u.pc .read))

/-- R334, R335, R337, R338, R340, R341, R345, of `s.begun`: a request another agent stored before the step is seen in it (R75). With
`IME` = 1 and requests pending, a step, Running or Halted, is the dispatch of the lowest pending bit `k`, and of no other: that bit of
`IF` is cleared (all other bits written back as read, the spec's decision D4), `PC` is pushed, `PC` becomes 0x0040 + 8k, `IME` is
cleared, Halted ends; 5 cycles. `IE` is read before `IF` (D2, log 6); `IF`, stack high byte, stack low byte are written in that order
(D5, log 21). -/
def Obligations.DispatchTakesTheLowestPendingInterrupt : Prop :=
  ∀ (s : State) (k : Nat), s.fault = none → s.begun.ime = true → s.begun.IrqReadable →
    s.begun.pending.getLsbD k = true → (∀ j, j < k → s.begun.pending.getLsbD j = false) →
    ∀ iff' : Byte, (∀ j, j < 8 → iff'.getLsbD j = (s.begun.ifRead.getLsbD j && !decide (j = k))) →
    let u := s.begun.irqRead
    let w := u.afterWrite 0xFF0F iff'
    (u.canWrite 0xFF0F iff' = true → w.StackWritable u.pc → step s = .next
      ({ w.pushed u.pc with pc := BitVec.ofNat 16 (0x40 + 8 * k), ime := false, halted := false }.charge 5)) ∧
    (u.canWrite 0xFF0F iff' = false → step s = .fault (.outOfRange 0xFF0F .write)) ∧
    (u.canWrite 0xFF0F iff' = true → w.canWrite (u.sp - 1) (hiByte u.pc) = false →
      step s = .fault (.outOfRange (u.sp - 1) .write)) ∧
    (u.canWrite 0xFF0F iff' = true → w.canWrite (u.sp - 1) (hiByte u.pc) = true →
      (w.afterWrite (u.sp - 1) (hiByte u.pc)).canWrite (u.sp - 2) (loByte u.pc) = false →
      step s = .fault (.outOfRange (u.sp - 2) .write))

/-- R132, R321, R373, of `s.begun`, whatever other agents did before the step: after a `HALT` that armed the halt bug, the next step
executes the instruction at the byte after the `HALT` with `PC` still there, so that its first operand byte is read from that address
again: `LD r8,d8` loads what that second read answers, in plain memory its own opcode, and leaves `PC` one short. The bus sees the
reads of `IE` and `IF`, in that order (the spec's decision D2, log 6), then that address twice. -/
def Obligations.HaltBugReadsTheByteTwice : Prop :=
  ∀ (s : State) (r : Reg8), s.fault = none → s.begun.halted = false → s.begun.haltBugArmed = true → s.begun.ime = false →
    s.begun.IrqReadable →
    let u := s.begun.irqRead
    u.canRead u.pc = true → (u.afterRead u.pc).canRead u.pc = true → decodeOpcode (u.byteAt u.pc) = .ldR8D8 r →
    ∃ t, step s = .next t ∧ t.reg r = (u.afterRead u.pc).byteAt u.pc ∧
      (u.readRule u.pc = .memory → t.reg r = u.byteAt u.pc) ∧
      t.pc = u.pc + 1 ∧ t.haltBugArmed = false ∧ t.ticks = u.ticks + 2 ∧
      t.busLog = [.read u.pc ((u.afterRead u.pc).byteAt u.pc), .read u.pc (u.byteAt u.pc),
        .read 0xFF0F s.begun.ifRead, .read 0xFFFF (s.begun.byteAt 0xFFFF)]

/-- R324, R131, R133, R345, R372, and for the effects spelled out R320, R321, R323, R298, whatever other agents do before
either step. From a running machine with `IME` = 0, not in a halt bug, whose next byte is `EI`: that step leaves `IME` as it is after the fetch and arms the deferred enable. The next step, whatever is
pending, is no dispatch: it is `exec` of the instruction the byte at `PC` decodes to, with `IME` = 1 and nothing armed before it
executes, whatever instruction that is. So after `NOP` `IME` is 1; after `DI` 0; after a second `EI` 1 and armed again; `HALT` enters
Halted with `IME` = 1, pending or not, and arms no halt bug; `RET` returns with `IME` = 1. Where the fetch fails that is the error.
Each step reads `IE` before `IF` (the spec's decision D2, log 6). That `HALT` reads the two again when it executes, so that its clause
asks that they can be read once more and its next state holds the bus after those reads, is the spec's decision D3 (log 18). The opcode
values and the counts are the spec's general knowledge (logs 25, 7). -/
def Obligations.EiTakesEffectAfterOneInstruction : Prop :=
  ∀ s : State, s.fault = none → s.begun.halted = false → s.begun.haltBugArmed = false → s.begun.ime = false →
    s.begun.deferredEnable = false → s.begun.IrqReadable →
    let u := s.begun.irqRead
    u.canRead u.pc = true → u.byteAt u.pc = 0xFB →
    ∃ t, step s = .next t ∧ t.ime = false ∧ t.deferredEnable = true ∧ t.halted = false ∧ t.haltBugArmed = false ∧
      t.pc = u.pc + 1 ∧ t.sp = u.sp ∧ t.mem = u.mem ∧
      (t.begun.IrqReadable →
        let v := t.begun.irqRead
        let w : State := { v.afterRead v.pc with opAddr := v.pc, pc := v.pc + 1, ime := true, deferredEnable := false }
        v.pc = u.pc + 1 ∧
        (v.canRead v.pc = false → step t = .fault (.outOfRange v.pc .read)) ∧
        (v.canRead v.pc = true →
          step t = exec (decodeOpcode (v.byteAt v.pc)) w ∧
          (v.byteAt v.pc = 0x00 → step t = .next (w.charge 1)) ∧
          (v.byteAt v.pc = 0xF3 → step t = .next ({ w with ime := false }.charge 1)) ∧
          (v.byteAt v.pc = 0xFB → step t = .next ({ w with deferredEnable := true }.charge 1)) ∧
          (v.byteAt v.pc = 0x76 → w.IrqReadable → step t = .next ({ w.irqRead with halted := true }.charge 1)) ∧
          (v.byteAt v.pc = 0xC9 → w.StackReadable → step t = .next ({ w.popped with pc := w.stackTop }.charge 4))))

/-- R333, R345 (items 1, 3 and 5 of its order; item 2, the errors of a dispatch, is `DispatchTakesTheLowestPendingInterrupt`, and
item 6, the operations of the instruction, stands in the statements of the instructions), R322, R326, R331: a step reports the first
error in the order: the read of `IE`, of `IF` (that `IE` is read first is the spec's decision D2, log 6), the opcode fetch, and then
`InvalidOpcode` before anything at the bytes after. The bytes that raise it are the eleven of the spec's decision D10 (log 17) and 0x10,
which raises because the parameter `STOP_POLICY` is fixed at its default, fault (decision D9, the model's choice, log 5). That a machine
whose latch holds an error answers that error, and has no step, is the model's rendering of the spec's decision D6 (log 9).
The fetch is that of a running machine with no dispatch due, or of a Halted one that wakes with `IME` = 0. -/
def Obligations.StepReportsTheFirstError : Prop :=
  (∀ (s : State) e, s.fault = some e → step s = .fault e) ∧
  (∀ s : State, s.fault = none → s.begun.canRead 0xFFFF = false → step s = .fault (.outOfRange 0xFFFF .read)) ∧
  (∀ s : State, s.fault = none → s.begun.canRead 0xFFFF = true → (s.begun.afterRead 0xFFFF).canRead 0xFF0F = false →
    step s = .fault (.outOfRange 0xFF0F .read)) ∧
  (∀ s : State, s.fault = none → s.begun.IrqReadable →
    (s.begun.halted = false ∧ s.begun.pending = 0 ∨ s.begun.pending ≠ 0 ∧ s.begun.ime = false) →
    let u := s.begun.irqRead
    (u.canRead u.pc = false → step s = .fault (.outOfRange u.pc .read)) ∧
    (u.canRead u.pc = true → raises (decodeOpcode (u.byteAt u.pc)) = true →
      step s = .fault (.invalidOpcode (u.byteAt u.pc) u.pc)))

/-! ### The whole machine -/

/-- R39: `F` is written by the instructions of the flag table and by no others. -/
def Obligations.OnlyTheFlagTableWritesFlags : Prop :=
  ∀ (i : Instr) (s t : State), exec i s = .next t → writesFlags (effective i s) = false → t.f = s.f

/-- R38, R23, R24: an instruction leaves every register but its destinations, `SP` but for the instructions R23 names, and moves `PC`
past its operand bytes and nowhere else but for the control transfers. -/
def Obligations.RegistersOutsideTheDestinationsAreKept : Prop :=
  ∀ (i : Instr) (s t : State), exec i s = .next t →
    (∀ r, mayWriteReg (effective i s) r = false → t.reg r = s.reg r) ∧
    (mayWriteSp (effective i s) = false → t.sp = s.sp) ∧
    (transfersControl i = false → t.pc = s.pc + BitVec.ofNat 16 i.operandBytes)

/-- R60, R68, R75: an instruction changes no byte of plain memory but those at the addresses it stores to; it changes neither what the
bus claims, nor what other agents will do, nor the latch, nor the recorded fetch address. And the bus, plain memory and its own state
together, is what the recorded operations of the CORE, made one after another, leave of it: nothing else touches it within an
instruction. That a read of plain memory changes nothing is the model's choice (log 1); behind a `device` range it may change
anything of the bus's own state (log 26). -/
def Obligations.MemoryOutsideTheStoresIsKept : Prop :=
  ∀ (i : Instr) (s t : State), exec i s = .next t →
    (∀ addr, addr ∉ storesTo (effective i s) s → t.memAt addr = s.memAt addr) ∧
    t.claims = s.claims ∧ t.env = s.env ∧ t.fault = s.fault ∧ t.opAddr = s.opAddr ∧
    ∃ ops : List BusOp, t.busLog = ops.reverse ++ s.busLog ∧ t.busLog = (ops.foldl State.perform s).busLog ∧
      t.mem = (ops.foldl State.perform s).mem ∧ t.device = (ops.foldl State.perform s).device

/-- R344: nothing but `HALT`, `EI`, `DI` and `RETI` changes `halted`, `IME`, `deferredEnable` or `haltBugArmed`; of these four each
changes only what its rule says. -/
def Obligations.OnlyFourInstructionsMoveTheRunState : Prop :=
  ∀ (i : Instr) (s t : State), exec i s = .next t →
    (movesRunState i = false →
      t.halted = s.halted ∧ t.ime = s.ime ∧ t.deferredEnable = s.deferredEnable ∧ t.haltBugArmed = s.haltBugArmed) ∧
    (t.halted ≠ s.halted → i = .halt ∧ t.halted = true) ∧
    (t.haltBugArmed ≠ s.haltBugArmed → i = .halt ∧ s.ime = false ∧ t.haltBugArmed = true) ∧
    (t.deferredEnable ≠ s.deferredEnable → i = .ei ∧ t.deferredEnable = true) ∧
    (t.ime ≠ s.ime → (i = .di ∧ t.ime = false) ∨ (i = .reti ∧ t.ime = true))

/-- R378: the count each meaning charges is that of the cycle table, taken or not; for the prefix row, that of the instruction its
second byte selects. The numbers are the parameter `CYCLES` at its default (log 7, the spec's decision D14). -/
def Obligations.CostsAreThoseOfTheCycleTable : Prop :=
  ∀ (i : Instr) (s t : State), exec i s = .next t → t.ticks = s.ticks + cycles (effective i s) (takenIn i s)

/-- R378, its regularity check: but for the internal-delay cases (of `JP cc`, `JR cc` and `CALL cc` the taken ones), and `HALT`, whose
reads of `IE` and `IF` cost nothing, the cost of an instruction is the number of bus operations it makes, counting the opcode fetch
(and, for a prefixed instruction, both opcode bytes). -/
def Obligations.RegularCostsCountBusOperations : Prop :=
  ∀ (i : Instr) (s t : State), exec i s = .next t → hasInternalDelay i (takenIn i s) = false →
    ∃ ops, t.busLog = ops ++ s.busLog ∧ t.ticks = s.ticks + ops.length + (encode i).length

/-- R130, R143, R378: every instruction but `STOP` and the illegal bytes completes on a bus that answers, whatever becomes of its own state, from every state; those
twelve never do. -/
def Obligations.EveryInstructionCompletesOnAnAnsweringBus : Prop :=
  ∀ (i : Instr) (s : State), s.BusAnswers → ((∃ t, exec i s = .next t) ↔ raises i = false)

/-- R32, R378, R379: every completed step adds 1 to 6 cycles to `ticks`; and `ticks` influences nothing: from a state with another
total the step is the same but for the total. The bound 1 to 6 is that of the table of R378, at which the parameter `CYCLES` is fixed as
its default (the spec's decision D14, log 7). `ticks` as a natural number is the spec's decision D7 (log 8). -/
def Obligations.TicksCountAndInfluenceNothing : Prop :=
  (∀ s t : State, step s = .next t → s.ticks + 1 ≤ t.ticks ∧ t.ticks ≤ s.ticks + 6) ∧
  (∀ (s : State) (n : Nat),
    step { s with ticks := s.ticks + n } =
      match step s with
      | .next t => .next { t with ticks := t.ticks + n }
      | .fault e => .fault e
      | .refused r => .refused r)

/-- R352: the snapshot reads the eight fields and seeding a machine with a snapshot gives it back, `F[3:0]` cleared; the rest of the
run state is that of reset (the spec's decision D19). -/
def Obligations.SeedingASnapshotGivesItBack : Prop :=
  (∀ s : State, s.snapshot = ⟨s.af, s.bc, s.de, s.hl, s.sp, s.pc, s.ime⟩) ∧
  (∀ (mem : Memory) (device : Nat) (claims : List Region) (r : Snapshot),
    let s := State.createWithState mem device claims r
    s.snapshot = { r with af := r.af &&& 0xFFF0 } ∧ s.mem = mem ∧ s.device = device ∧ s.claims = claims ∧ s.halted = false ∧
    s.deferredEnable = false ∧ s.haltBugArmed = false ∧ s.ticks = 0 ∧ s.fault = none)
end

