-- ==== Sys2Proof/Laws/Memory.lean ====
section
/-! SUPPORT. The laws of memory: a read after a write, the canonical form, equal memories are equal data. -/

namespace Sys2Proof.Machine.Memory

theorem read_remove (m : Memory) (a b : Nat) : (remove a m).read b = if b = a then unlisted a else m.read b := by
  induction m with
  | nil => by_cases h : b = a <;> simp [remove, read, h]
  | cons c m ih =>
    obtain ⟨k, v⟩ := c
    by_cases h : k = a
    · by_cases hb : b = a
      · subst hb; simpa [remove, h] using ih
      · simp [remove, h, ih, hb, read, Ne.symm hb]
    · by_cases hk : k = b
      · subst hk; simp [remove, h, read]
      · simp [remove, h, read, ih, hk]

theorem read_insert (m : Memory) (a : Nat) (v : Byte) (b : Nat) (h : ∀ c ∈ m, c.1 ≠ a) :
    (insert a v m).read b = if b = a then v else m.read b := by
  induction m with
  | nil => simp only [insert, read]; by_cases hb : a = b <;> simp [hb, eq_comm]
  | cons c m ih =>
    obtain ⟨k, w⟩ := c
    have hk : k ≠ a := h (k, w) (by simp)
    have ih := ih fun c hc => h c (by simp [hc])
    by_cases hlt : a < k
    · by_cases hb : b = a
      · simp [insert, hlt, read, hb]
      · simp [insert, hlt, read, hb, Ne.symm hb]
    · by_cases hb : k = b
      · subst hb; simp [insert, hlt, read, hk]
      · simp [insert, hlt, read, hb, ih]

theorem mem_remove {a : Nat} {m : Memory} {c : Host.Cell} : c ∈ remove a m ↔ c ∈ m ∧ c.1 ≠ a := by
  induction m with
  | nil => simp [remove]
  | cons d m ih =>
    obtain ⟨k, v⟩ := d
    by_cases h : k = a
    · simp only [remove, h, if_true, ih, List.mem_cons]
      constructor
      · rintro ⟨h1, h2⟩; exact ⟨.inr h1, h2⟩
      · rintro ⟨rfl | h1, h2⟩
        · exact absurd rfl h2
        · exact ⟨h1, h2⟩
    · simp only [remove, h, if_false, List.mem_cons, ih]
      constructor
      · rintro (rfl | ⟨h1, h2⟩)
        · exact ⟨.inl rfl, h⟩
        · exact ⟨.inr h1, h2⟩
      · rintro ⟨rfl | h1, h2⟩
        · exact .inl rfl
        · exact .inr ⟨h1, h2⟩

theorem mem_insert {a : Nat} {v : Byte} {m : Memory} {c : Host.Cell} : c ∈ insert a v m ↔ c = (a, v) ∨ c ∈ m := by
  induction m with
  | nil => simp [insert]
  | cons d m ih =>
    obtain ⟨k, w⟩ := d
    by_cases h : a < k
    · simp [insert, h]
    · simp only [insert, h, if_false, List.mem_cons, ih]; tauto

theorem pairwise_remove {a : Nat} {m : Memory} (h : m.Pairwise fun c d => c.1 < d.1) :
    (remove a m).Pairwise fun c d => c.1 < d.1 := by
  induction m with
  | nil => simp [remove]
  | cons d m ih =>
    obtain ⟨k, v⟩ := d
    rw [List.pairwise_cons] at h
    by_cases hk : k = a
    · simpa [remove, hk] using ih h.2
    · simp only [remove, hk, if_false, List.pairwise_cons]
      exact ⟨fun c hc => h.1 c (mem_remove.1 hc).1, ih h.2⟩

theorem pairwise_insert {a : Nat} {v : Byte} {m : Memory} (h : m.Pairwise fun c d => c.1 < d.1) (ha : ∀ c ∈ m, c.1 ≠ a) :
    (insert a v m).Pairwise fun c d => c.1 < d.1 := by
  induction m with
  | nil => simp [insert]
  | cons d m ih =>
    obtain ⟨k, w⟩ := d
    have hp := List.pairwise_cons.1 h
    by_cases hk : a < k
    · simp only [insert, hk, if_true, List.pairwise_cons]
      refine ⟨fun c hc => ?_, hp⟩
      rcases List.mem_cons.1 hc with rfl | hc
      · exact hk
      · exact Nat.lt_trans hk (hp.1 c hc)
    · simp only [insert, hk, if_false, List.pairwise_cons]
      refine ⟨fun c hc => ?_, ih hp.2 fun c hc => ha c (by simp [hc])⟩
      rcases mem_insert.1 hc with rfl | hc
      · have := ha (k, w) (by simp); simp only at this ⊢; omega
      · exact hp.1 c hc

/-- Reading after a write, at any address. -/
theorem read_write (m : Memory) (a b : Nat) (v : Byte) : (m.write a v).read b = if b = a then v else m.read b := by
  unfold write
  split
  · next h => rw [read_remove, h]
  · rw [read_insert _ _ _ _ fun c hc => (mem_remove.1 hc).2, read_remove]
    by_cases hb : b = a <;> simp [hb]

@[simp] theorem read_write_same (m : Memory) (a : Nat) (v : Byte) : (m.write a v).read a = v := by simp [read_write]

theorem read_write_ne (m : Memory) {a b : Nat} (h : b ≠ a) (v : Byte) : (m.write a v).read b = m.read b := by
  simp [read_write, h]

/-- A write within 16 bits keeps the canonical form. -/
theorem wf_write {m : Memory} (h : wf m) {a : Nat} (ha : a < 65536) (v : Byte) : wf (m.write a v) := by
  have hr : wf (remove a m) := ⟨pairwise_remove h.1, fun c hc => h.2 c (mem_remove.1 hc).1⟩
  unfold write
  split
  · exact hr
  · next hv =>
    refine ⟨pairwise_insert hr.1 fun c hc => (mem_remove.1 hc).2, fun c hc => ?_⟩
    rcases mem_insert.1 hc with rfl | hc
    · exact ⟨ha, hv⟩
    · exact hr.2 c hc

theorem wf_nil : wf [] := by simp [wf]

/-- The memory of the reset state is in canonical form. -/
theorem wf_reset : wf State.reset.mem := wf_nil

/-- A store keeps the canonical form. -/
theorem wf_store {s : State} (h : wf s.mem) (a : Word) (v : Byte) : wf (s.store a v).mem := wf_write h a.isLt v

end Sys2Proof.Machine.Memory

namespace Sys2Proof.Machine

/-- Reading plain memory after a store. -/
theorem State.memAt_store (s : State) (a b : Word) (v : Byte) : (s.store a v).memAt b = if b = a then v else s.memAt b := by
  simp only [State.memAt, State.store, Memory.read_write, BitVec.toNat_inj]

@[simp] theorem State.memAt_store_same (s : State) (a : Word) (v : Byte) : (s.store a v).memAt a = v := by
  simp [State.memAt_store]

theorem State.memAt_store_ne (s : State) {a b : Word} (h : b ≠ a) (v : Byte) : (s.store a v).memAt b = s.memAt b := by
  simp [State.memAt_store, h]

/-! ### The bus by the rule of the address -/

theorem State.readAnswer_refused {s : State} {a : Word} (h : s.readRule a = .refused) : s.readAnswer a = none := by
  simp [State.readAnswer, h]

theorem State.readAnswer_memory {s : State} {a : Word} (h : s.readRule a = .memory) :
    s.readAnswer a = some (s.memAt a, s.device) := by simp [State.readAnswer, h]

theorem State.readAnswer_device {s : State} {a : Word} (h : s.readRule a = .device) :
    s.readAnswer a = Config.deviceRead s.device a := by simp [State.readAnswer, h]

theorem State.writeAnswer_refused {s : State} {a : Word} (h : s.writeRule a = .refused) (v : Byte) : s.writeAnswer a v = none := by
  simp [State.writeAnswer, h]

theorem State.writeAnswer_memory {s : State} {a : Word} (h : s.writeRule a = .memory) (v : Byte) :
    s.writeAnswer a v = some (s.mem.write a.toNat v, s.device) := by simp [State.writeAnswer, h]

theorem State.writeAnswer_dropped {s : State} {a : Word} (h : s.writeRule a = .dropped) (v : Byte) :
    s.writeAnswer a v = some (s.mem, s.device) := by simp [State.writeAnswer, h]

theorem State.writeAnswer_device {s : State} {a : Word} (h : s.writeRule a = .device) (v : Byte) :
    s.writeAnswer a v = (Config.deviceWrite s.device a v).map fun d => (s.mem, d) := by simp [State.writeAnswer, h]

theorem State.byteAt_memory {s : State} {a : Word} (h : s.readRule a = .memory) : s.byteAt a = s.memAt a := by
  simp [State.byteAt, State.readAnswer_memory h]

/-- A write changes plain memory at its address or not at all. -/
theorem State.afterWrite_mem_cases (s : State) (a : Word) (v : Byte) :
    (s.afterWrite a v).mem = s.mem ∨ (s.afterWrite a v).mem = s.mem.write a.toNat v := by
  simp only [State.afterWrite, State.writeAnswer]
  split
  · exact .inl rfl
  · exact .inr rfl
  · exact .inl rfl
  · cases Config.deviceWrite s.device a v <;> exact .inl rfl

/-- A write leaves every other byte of plain memory. -/
theorem State.memAt_afterWrite_ne (s : State) {a b : Word} (h : b ≠ a) (v : Byte) : (s.afterWrite a v).memAt b = s.memAt b := by
  rcases s.afterWrite_mem_cases a v with h' | h' <;> simp only [State.memAt, h']
  exact Memory.read_write_ne _ (fun hb => h (BitVec.eq_of_toNat_eq hb)) v

/-- A write to plain memory is remembered. -/
theorem State.memAt_afterWrite_same {s : State} {a : Word} (h : s.writeRule a = .memory) (v : Byte) :
    (s.afterWrite a v).memAt a = v := by
  simp [State.memAt, State.afterWrite, State.writeAnswer_memory h]

/-- A write keeps the canonical form. -/
theorem Memory.wf_afterWrite {s : State} (h : Memory.wf s.mem) (a : Word) (v : Byte) : Memory.wf (s.afterWrite a v).mem := by
  rcases s.afterWrite_mem_cases a v with h' | h' <;> rw [h']
  · exact h
  · exact Memory.wf_write h a.isLt v

end Sys2Proof.Machine
end

