-- ==== Sys2Proof/Laws/State.lean ====
section
/-! SUPPORT. One lemma per field per named update of the state, so that no proof unfolds a record update; and the same for the
derived reads (flags, pairs, bus). -/

namespace Sys2Proof.Machine

/-! ### `charge` -/

@[simp] theorem State.charge_a (s : State) (n : Nat) : (s.charge n).a = s.a := rfl
@[simp] theorem State.charge_f (s : State) (n : Nat) : (s.charge n).f = s.f := rfl
@[simp] theorem State.charge_b (s : State) (n : Nat) : (s.charge n).b = s.b := rfl
@[simp] theorem State.charge_c (s : State) (n : Nat) : (s.charge n).c = s.c := rfl
@[simp] theorem State.charge_d (s : State) (n : Nat) : (s.charge n).d = s.d := rfl
@[simp] theorem State.charge_e (s : State) (n : Nat) : (s.charge n).e = s.e := rfl
@[simp] theorem State.charge_h (s : State) (n : Nat) : (s.charge n).h = s.h := rfl
@[simp] theorem State.charge_l (s : State) (n : Nat) : (s.charge n).l = s.l := rfl
@[simp] theorem State.charge_sp (s : State) (n : Nat) : (s.charge n).sp = s.sp := rfl
@[simp] theorem State.charge_pc (s : State) (n : Nat) : (s.charge n).pc = s.pc := rfl
@[simp] theorem State.charge_halted (s : State) (n : Nat) : (s.charge n).halted = s.halted := rfl
@[simp] theorem State.charge_ime (s : State) (n : Nat) : (s.charge n).ime = s.ime := rfl
@[simp] theorem State.charge_deferredEnable (s : State) (n : Nat) : (s.charge n).deferredEnable = s.deferredEnable := rfl
@[simp] theorem State.charge_haltBugArmed (s : State) (n : Nat) : (s.charge n).haltBugArmed = s.haltBugArmed := rfl
@[simp] theorem State.charge_ticks (s : State) (n : Nat) : (s.charge n).ticks = s.ticks + n := rfl
@[simp] theorem State.charge_fault (s : State) (n : Nat) : (s.charge n).fault = s.fault := rfl
@[simp] theorem State.charge_mem (s : State) (n : Nat) : (s.charge n).mem = s.mem := rfl
@[simp] theorem State.charge_device (s : State) (n : Nat) : (s.charge n).device = s.device := rfl
@[simp] theorem State.charge_claims (s : State) (n : Nat) : (s.charge n).claims = s.claims := rfl
@[simp] theorem State.charge_env (s : State) (n : Nat) : (s.charge n).env = s.env := rfl
@[simp] theorem State.charge_opAddr (s : State) (n : Nat) : (s.charge n).opAddr = s.opAddr := rfl
@[simp] theorem State.charge_busLog (s : State) (n : Nat) : (s.charge n).busLog = s.busLog := rfl

/-! ### `afterRead` -/

@[simp] theorem State.afterRead_a (s : State) (x : Word) : (s.afterRead x).a = s.a := rfl
@[simp] theorem State.afterRead_f (s : State) (x : Word) : (s.afterRead x).f = s.f := rfl
@[simp] theorem State.afterRead_b (s : State) (x : Word) : (s.afterRead x).b = s.b := rfl
@[simp] theorem State.afterRead_c (s : State) (x : Word) : (s.afterRead x).c = s.c := rfl
@[simp] theorem State.afterRead_d (s : State) (x : Word) : (s.afterRead x).d = s.d := rfl
@[simp] theorem State.afterRead_e (s : State) (x : Word) : (s.afterRead x).e = s.e := rfl
@[simp] theorem State.afterRead_h (s : State) (x : Word) : (s.afterRead x).h = s.h := rfl
@[simp] theorem State.afterRead_l (s : State) (x : Word) : (s.afterRead x).l = s.l := rfl
@[simp] theorem State.afterRead_sp (s : State) (x : Word) : (s.afterRead x).sp = s.sp := rfl
@[simp] theorem State.afterRead_pc (s : State) (x : Word) : (s.afterRead x).pc = s.pc := rfl
@[simp] theorem State.afterRead_halted (s : State) (x : Word) : (s.afterRead x).halted = s.halted := rfl
@[simp] theorem State.afterRead_ime (s : State) (x : Word) : (s.afterRead x).ime = s.ime := rfl
@[simp] theorem State.afterRead_deferredEnable (s : State) (x : Word) : (s.afterRead x).deferredEnable = s.deferredEnable := rfl
@[simp] theorem State.afterRead_haltBugArmed (s : State) (x : Word) : (s.afterRead x).haltBugArmed = s.haltBugArmed := rfl
@[simp] theorem State.afterRead_ticks (s : State) (x : Word) : (s.afterRead x).ticks = s.ticks := rfl
@[simp] theorem State.afterRead_fault (s : State) (x : Word) : (s.afterRead x).fault = s.fault := rfl
@[simp] theorem State.afterRead_mem (s : State) (x : Word) : (s.afterRead x).mem = s.mem := rfl
@[simp] theorem State.afterRead_device (s : State) (x : Word) : (s.afterRead x).device = ((s.readAnswer x).getD (0, s.device)).2 := rfl
@[simp] theorem State.afterRead_claims (s : State) (x : Word) : (s.afterRead x).claims = s.claims := rfl
@[simp] theorem State.afterRead_env (s : State) (x : Word) : (s.afterRead x).env = s.env := rfl
@[simp] theorem State.afterRead_opAddr (s : State) (x : Word) : (s.afterRead x).opAddr = s.opAddr := rfl
@[simp] theorem State.afterRead_busLog (s : State) (x : Word) : (s.afterRead x).busLog = .read x (s.byteAt x) :: s.busLog := rfl

/-! ### `afterWrite` -/

@[simp] theorem State.afterWrite_a (s : State) (x : Word) (v : Byte) : (s.afterWrite x v).a = s.a := rfl
@[simp] theorem State.afterWrite_f (s : State) (x : Word) (v : Byte) : (s.afterWrite x v).f = s.f := rfl
@[simp] theorem State.afterWrite_b (s : State) (x : Word) (v : Byte) : (s.afterWrite x v).b = s.b := rfl
@[simp] theorem State.afterWrite_c (s : State) (x : Word) (v : Byte) : (s.afterWrite x v).c = s.c := rfl
@[simp] theorem State.afterWrite_d (s : State) (x : Word) (v : Byte) : (s.afterWrite x v).d = s.d := rfl
@[simp] theorem State.afterWrite_e (s : State) (x : Word) (v : Byte) : (s.afterWrite x v).e = s.e := rfl
@[simp] theorem State.afterWrite_h (s : State) (x : Word) (v : Byte) : (s.afterWrite x v).h = s.h := rfl
@[simp] theorem State.afterWrite_l (s : State) (x : Word) (v : Byte) : (s.afterWrite x v).l = s.l := rfl
@[simp] theorem State.afterWrite_sp (s : State) (x : Word) (v : Byte) : (s.afterWrite x v).sp = s.sp := rfl
@[simp] theorem State.afterWrite_pc (s : State) (x : Word) (v : Byte) : (s.afterWrite x v).pc = s.pc := rfl
@[simp] theorem State.afterWrite_halted (s : State) (x : Word) (v : Byte) : (s.afterWrite x v).halted = s.halted := rfl
@[simp] theorem State.afterWrite_ime (s : State) (x : Word) (v : Byte) : (s.afterWrite x v).ime = s.ime := rfl
@[simp] theorem State.afterWrite_deferredEnable (s : State) (x : Word) (v : Byte) : (s.afterWrite x v).deferredEnable = s.deferredEnable := rfl
@[simp] theorem State.afterWrite_haltBugArmed (s : State) (x : Word) (v : Byte) : (s.afterWrite x v).haltBugArmed = s.haltBugArmed := rfl
@[simp] theorem State.afterWrite_ticks (s : State) (x : Word) (v : Byte) : (s.afterWrite x v).ticks = s.ticks := rfl
@[simp] theorem State.afterWrite_fault (s : State) (x : Word) (v : Byte) : (s.afterWrite x v).fault = s.fault := rfl
@[simp] theorem State.afterWrite_mem (s : State) (x : Word) (v : Byte) : (s.afterWrite x v).mem = ((s.writeAnswer x v).getD (s.mem, s.device)).1 := rfl
@[simp] theorem State.afterWrite_device (s : State) (x : Word) (v : Byte) : (s.afterWrite x v).device = ((s.writeAnswer x v).getD (s.mem, s.device)).2 := rfl
@[simp] theorem State.afterWrite_claims (s : State) (x : Word) (v : Byte) : (s.afterWrite x v).claims = s.claims := rfl
@[simp] theorem State.afterWrite_env (s : State) (x : Word) (v : Byte) : (s.afterWrite x v).env = s.env := rfl
@[simp] theorem State.afterWrite_opAddr (s : State) (x : Word) (v : Byte) : (s.afterWrite x v).opAddr = s.opAddr := rfl
@[simp] theorem State.afterWrite_busLog (s : State) (x : Word) (v : Byte) : (s.afterWrite x v).busLog = .write x v :: s.busLog := rfl

/-! ### `store` -/

@[simp] theorem State.store_a (s : State) (x : Word) (v : Byte) : (s.store x v).a = s.a := rfl
@[simp] theorem State.store_f (s : State) (x : Word) (v : Byte) : (s.store x v).f = s.f := rfl
@[simp] theorem State.store_b (s : State) (x : Word) (v : Byte) : (s.store x v).b = s.b := rfl
@[simp] theorem State.store_c (s : State) (x : Word) (v : Byte) : (s.store x v).c = s.c := rfl
@[simp] theorem State.store_d (s : State) (x : Word) (v : Byte) : (s.store x v).d = s.d := rfl
@[simp] theorem State.store_e (s : State) (x : Word) (v : Byte) : (s.store x v).e = s.e := rfl
@[simp] theorem State.store_h (s : State) (x : Word) (v : Byte) : (s.store x v).h = s.h := rfl
@[simp] theorem State.store_l (s : State) (x : Word) (v : Byte) : (s.store x v).l = s.l := rfl
@[simp] theorem State.store_sp (s : State) (x : Word) (v : Byte) : (s.store x v).sp = s.sp := rfl
@[simp] theorem State.store_pc (s : State) (x : Word) (v : Byte) : (s.store x v).pc = s.pc := rfl
@[simp] theorem State.store_halted (s : State) (x : Word) (v : Byte) : (s.store x v).halted = s.halted := rfl
@[simp] theorem State.store_ime (s : State) (x : Word) (v : Byte) : (s.store x v).ime = s.ime := rfl
@[simp] theorem State.store_deferredEnable (s : State) (x : Word) (v : Byte) : (s.store x v).deferredEnable = s.deferredEnable := rfl
@[simp] theorem State.store_haltBugArmed (s : State) (x : Word) (v : Byte) : (s.store x v).haltBugArmed = s.haltBugArmed := rfl
@[simp] theorem State.store_ticks (s : State) (x : Word) (v : Byte) : (s.store x v).ticks = s.ticks := rfl
@[simp] theorem State.store_fault (s : State) (x : Word) (v : Byte) : (s.store x v).fault = s.fault := rfl
@[simp] theorem State.store_mem (s : State) (x : Word) (v : Byte) : (s.store x v).mem = s.mem.write x.toNat v := rfl
@[simp] theorem State.store_device (s : State) (x : Word) (v : Byte) : (s.store x v).device = s.device := rfl
@[simp] theorem State.store_claims (s : State) (x : Word) (v : Byte) : (s.store x v).claims = s.claims := rfl
@[simp] theorem State.store_env (s : State) (x : Word) (v : Byte) : (s.store x v).env = s.env := rfl
@[simp] theorem State.store_opAddr (s : State) (x : Word) (v : Byte) : (s.store x v).opAddr = s.opAddr := rfl
@[simp] theorem State.store_busLog (s : State) (x : Word) (v : Byte) : (s.store x v).busLog = s.busLog := rfl

/-! ### `advancePc` -/

@[simp] theorem State.advancePc_a (s : State) : (s.advancePc).a = s.a := rfl
@[simp] theorem State.advancePc_f (s : State) : (s.advancePc).f = s.f := rfl
@[simp] theorem State.advancePc_b (s : State) : (s.advancePc).b = s.b := rfl
@[simp] theorem State.advancePc_c (s : State) : (s.advancePc).c = s.c := rfl
@[simp] theorem State.advancePc_d (s : State) : (s.advancePc).d = s.d := rfl
@[simp] theorem State.advancePc_e (s : State) : (s.advancePc).e = s.e := rfl
@[simp] theorem State.advancePc_h (s : State) : (s.advancePc).h = s.h := rfl
@[simp] theorem State.advancePc_l (s : State) : (s.advancePc).l = s.l := rfl
@[simp] theorem State.advancePc_sp (s : State) : (s.advancePc).sp = s.sp := rfl
@[simp] theorem State.advancePc_pc (s : State) : (s.advancePc).pc = s.pc + 1 := rfl
@[simp] theorem State.advancePc_halted (s : State) : (s.advancePc).halted = s.halted := rfl
@[simp] theorem State.advancePc_ime (s : State) : (s.advancePc).ime = s.ime := rfl
@[simp] theorem State.advancePc_deferredEnable (s : State) : (s.advancePc).deferredEnable = s.deferredEnable := rfl
@[simp] theorem State.advancePc_haltBugArmed (s : State) : (s.advancePc).haltBugArmed = s.haltBugArmed := rfl
@[simp] theorem State.advancePc_ticks (s : State) : (s.advancePc).ticks = s.ticks := rfl
@[simp] theorem State.advancePc_fault (s : State) : (s.advancePc).fault = s.fault := rfl
@[simp] theorem State.advancePc_mem (s : State) : (s.advancePc).mem = s.mem := rfl
@[simp] theorem State.advancePc_device (s : State) : (s.advancePc).device = s.device := rfl
@[simp] theorem State.advancePc_claims (s : State) : (s.advancePc).claims = s.claims := rfl
@[simp] theorem State.advancePc_env (s : State) : (s.advancePc).env = s.env := rfl
@[simp] theorem State.advancePc_opAddr (s : State) : (s.advancePc).opAddr = s.opAddr := rfl
@[simp] theorem State.advancePc_busLog (s : State) : (s.advancePc).busLog = s.busLog := rfl

/-! ### `jump` -/

@[simp] theorem State.jump_a (s : State) (w : Word) : (s.jump w).a = s.a := rfl
@[simp] theorem State.jump_f (s : State) (w : Word) : (s.jump w).f = s.f := rfl
@[simp] theorem State.jump_b (s : State) (w : Word) : (s.jump w).b = s.b := rfl
@[simp] theorem State.jump_c (s : State) (w : Word) : (s.jump w).c = s.c := rfl
@[simp] theorem State.jump_d (s : State) (w : Word) : (s.jump w).d = s.d := rfl
@[simp] theorem State.jump_e (s : State) (w : Word) : (s.jump w).e = s.e := rfl
@[simp] theorem State.jump_h (s : State) (w : Word) : (s.jump w).h = s.h := rfl
@[simp] theorem State.jump_l (s : State) (w : Word) : (s.jump w).l = s.l := rfl
@[simp] theorem State.jump_sp (s : State) (w : Word) : (s.jump w).sp = s.sp := rfl
@[simp] theorem State.jump_pc (s : State) (w : Word) : (s.jump w).pc = w := rfl
@[simp] theorem State.jump_halted (s : State) (w : Word) : (s.jump w).halted = s.halted := rfl
@[simp] theorem State.jump_ime (s : State) (w : Word) : (s.jump w).ime = s.ime := rfl
@[simp] theorem State.jump_deferredEnable (s : State) (w : Word) : (s.jump w).deferredEnable = s.deferredEnable := rfl
@[simp] theorem State.jump_haltBugArmed (s : State) (w : Word) : (s.jump w).haltBugArmed = s.haltBugArmed := rfl
@[simp] theorem State.jump_ticks (s : State) (w : Word) : (s.jump w).ticks = s.ticks := rfl
@[simp] theorem State.jump_fault (s : State) (w : Word) : (s.jump w).fault = s.fault := rfl
@[simp] theorem State.jump_mem (s : State) (w : Word) : (s.jump w).mem = s.mem := rfl
@[simp] theorem State.jump_device (s : State) (w : Word) : (s.jump w).device = s.device := rfl
@[simp] theorem State.jump_claims (s : State) (w : Word) : (s.jump w).claims = s.claims := rfl
@[simp] theorem State.jump_env (s : State) (w : Word) : (s.jump w).env = s.env := rfl
@[simp] theorem State.jump_opAddr (s : State) (w : Word) : (s.jump w).opAddr = s.opAddr := rfl
@[simp] theorem State.jump_busLog (s : State) (w : Word) : (s.jump w).busLog = s.busLog := rfl

/-! ### `setHl` -/

@[simp] theorem State.setHl_a (s : State) (w : Word) : (s.setHl w).a = s.a := rfl
@[simp] theorem State.setHl_f (s : State) (w : Word) : (s.setHl w).f = s.f := rfl
@[simp] theorem State.setHl_b (s : State) (w : Word) : (s.setHl w).b = s.b := rfl
@[simp] theorem State.setHl_c (s : State) (w : Word) : (s.setHl w).c = s.c := rfl
@[simp] theorem State.setHl_d (s : State) (w : Word) : (s.setHl w).d = s.d := rfl
@[simp] theorem State.setHl_e (s : State) (w : Word) : (s.setHl w).e = s.e := rfl
@[simp] theorem State.setHl_h (s : State) (w : Word) : (s.setHl w).h = hiByte w := rfl
@[simp] theorem State.setHl_l (s : State) (w : Word) : (s.setHl w).l = loByte w := rfl
@[simp] theorem State.setHl_sp (s : State) (w : Word) : (s.setHl w).sp = s.sp := rfl
@[simp] theorem State.setHl_pc (s : State) (w : Word) : (s.setHl w).pc = s.pc := rfl
@[simp] theorem State.setHl_halted (s : State) (w : Word) : (s.setHl w).halted = s.halted := rfl
@[simp] theorem State.setHl_ime (s : State) (w : Word) : (s.setHl w).ime = s.ime := rfl
@[simp] theorem State.setHl_deferredEnable (s : State) (w : Word) : (s.setHl w).deferredEnable = s.deferredEnable := rfl
@[simp] theorem State.setHl_haltBugArmed (s : State) (w : Word) : (s.setHl w).haltBugArmed = s.haltBugArmed := rfl
@[simp] theorem State.setHl_ticks (s : State) (w : Word) : (s.setHl w).ticks = s.ticks := rfl
@[simp] theorem State.setHl_fault (s : State) (w : Word) : (s.setHl w).fault = s.fault := rfl
@[simp] theorem State.setHl_mem (s : State) (w : Word) : (s.setHl w).mem = s.mem := rfl
@[simp] theorem State.setHl_device (s : State) (w : Word) : (s.setHl w).device = s.device := rfl
@[simp] theorem State.setHl_claims (s : State) (w : Word) : (s.setHl w).claims = s.claims := rfl
@[simp] theorem State.setHl_env (s : State) (w : Word) : (s.setHl w).env = s.env := rfl
@[simp] theorem State.setHl_opAddr (s : State) (w : Word) : (s.setHl w).opAddr = s.opAddr := rfl
@[simp] theorem State.setHl_busLog (s : State) (w : Word) : (s.setHl w).busLog = s.busLog := rfl

/-! ### `setSp` -/

@[simp] theorem State.setSp_a (s : State) (w : Word) : (s.setSp w).a = s.a := rfl
@[simp] theorem State.setSp_f (s : State) (w : Word) : (s.setSp w).f = s.f := rfl
@[simp] theorem State.setSp_b (s : State) (w : Word) : (s.setSp w).b = s.b := rfl
@[simp] theorem State.setSp_c (s : State) (w : Word) : (s.setSp w).c = s.c := rfl
@[simp] theorem State.setSp_d (s : State) (w : Word) : (s.setSp w).d = s.d := rfl
@[simp] theorem State.setSp_e (s : State) (w : Word) : (s.setSp w).e = s.e := rfl
@[simp] theorem State.setSp_h (s : State) (w : Word) : (s.setSp w).h = s.h := rfl
@[simp] theorem State.setSp_l (s : State) (w : Word) : (s.setSp w).l = s.l := rfl
@[simp] theorem State.setSp_sp (s : State) (w : Word) : (s.setSp w).sp = w := rfl
@[simp] theorem State.setSp_pc (s : State) (w : Word) : (s.setSp w).pc = s.pc := rfl
@[simp] theorem State.setSp_halted (s : State) (w : Word) : (s.setSp w).halted = s.halted := rfl
@[simp] theorem State.setSp_ime (s : State) (w : Word) : (s.setSp w).ime = s.ime := rfl
@[simp] theorem State.setSp_deferredEnable (s : State) (w : Word) : (s.setSp w).deferredEnable = s.deferredEnable := rfl
@[simp] theorem State.setSp_haltBugArmed (s : State) (w : Word) : (s.setSp w).haltBugArmed = s.haltBugArmed := rfl
@[simp] theorem State.setSp_ticks (s : State) (w : Word) : (s.setSp w).ticks = s.ticks := rfl
@[simp] theorem State.setSp_fault (s : State) (w : Word) : (s.setSp w).fault = s.fault := rfl
@[simp] theorem State.setSp_mem (s : State) (w : Word) : (s.setSp w).mem = s.mem := rfl
@[simp] theorem State.setSp_device (s : State) (w : Word) : (s.setSp w).device = s.device := rfl
@[simp] theorem State.setSp_claims (s : State) (w : Word) : (s.setSp w).claims = s.claims := rfl
@[simp] theorem State.setSp_env (s : State) (w : Word) : (s.setSp w).env = s.env := rfl
@[simp] theorem State.setSp_opAddr (s : State) (w : Word) : (s.setSp w).opAddr = s.opAddr := rfl
@[simp] theorem State.setSp_busLog (s : State) (w : Word) : (s.setSp w).busLog = s.busLog := rfl

/-! ### `wake` -/

@[simp] theorem State.wake_a (s : State) : (s.wake).a = s.a := rfl
@[simp] theorem State.wake_f (s : State) : (s.wake).f = s.f := rfl
@[simp] theorem State.wake_b (s : State) : (s.wake).b = s.b := rfl
@[simp] theorem State.wake_c (s : State) : (s.wake).c = s.c := rfl
@[simp] theorem State.wake_d (s : State) : (s.wake).d = s.d := rfl
@[simp] theorem State.wake_e (s : State) : (s.wake).e = s.e := rfl
@[simp] theorem State.wake_h (s : State) : (s.wake).h = s.h := rfl
@[simp] theorem State.wake_l (s : State) : (s.wake).l = s.l := rfl
@[simp] theorem State.wake_sp (s : State) : (s.wake).sp = s.sp := rfl
@[simp] theorem State.wake_pc (s : State) : (s.wake).pc = s.pc := rfl
@[simp] theorem State.wake_halted (s : State) : (s.wake).halted = false := rfl
@[simp] theorem State.wake_ime (s : State) : (s.wake).ime = s.ime := rfl
@[simp] theorem State.wake_deferredEnable (s : State) : (s.wake).deferredEnable = s.deferredEnable := rfl
@[simp] theorem State.wake_haltBugArmed (s : State) : (s.wake).haltBugArmed = s.haltBugArmed := rfl
@[simp] theorem State.wake_ticks (s : State) : (s.wake).ticks = s.ticks := rfl
@[simp] theorem State.wake_fault (s : State) : (s.wake).fault = s.fault := rfl
@[simp] theorem State.wake_mem (s : State) : (s.wake).mem = s.mem := rfl
@[simp] theorem State.wake_device (s : State) : (s.wake).device = s.device := rfl
@[simp] theorem State.wake_claims (s : State) : (s.wake).claims = s.claims := rfl
@[simp] theorem State.wake_env (s : State) : (s.wake).env = s.env := rfl
@[simp] theorem State.wake_opAddr (s : State) : (s.wake).opAddr = s.opAddr := rfl
@[simp] theorem State.wake_busLog (s : State) : (s.wake).busLog = s.busLog := rfl

/-! ### `setF` -/

@[simp] theorem State.setF_a (s : State) (v : Byte) : (s.setF v).a = s.a := rfl
@[simp] theorem State.setF_f (s : State) (v : Byte) : (s.setF v).f = v := rfl
@[simp] theorem State.setF_b (s : State) (v : Byte) : (s.setF v).b = s.b := rfl
@[simp] theorem State.setF_c (s : State) (v : Byte) : (s.setF v).c = s.c := rfl
@[simp] theorem State.setF_d (s : State) (v : Byte) : (s.setF v).d = s.d := rfl
@[simp] theorem State.setF_e (s : State) (v : Byte) : (s.setF v).e = s.e := rfl
@[simp] theorem State.setF_h (s : State) (v : Byte) : (s.setF v).h = s.h := rfl
@[simp] theorem State.setF_l (s : State) (v : Byte) : (s.setF v).l = s.l := rfl
@[simp] theorem State.setF_sp (s : State) (v : Byte) : (s.setF v).sp = s.sp := rfl
@[simp] theorem State.setF_pc (s : State) (v : Byte) : (s.setF v).pc = s.pc := rfl
@[simp] theorem State.setF_halted (s : State) (v : Byte) : (s.setF v).halted = s.halted := rfl
@[simp] theorem State.setF_ime (s : State) (v : Byte) : (s.setF v).ime = s.ime := rfl
@[simp] theorem State.setF_deferredEnable (s : State) (v : Byte) : (s.setF v).deferredEnable = s.deferredEnable := rfl
@[simp] theorem State.setF_haltBugArmed (s : State) (v : Byte) : (s.setF v).haltBugArmed = s.haltBugArmed := rfl
@[simp] theorem State.setF_ticks (s : State) (v : Byte) : (s.setF v).ticks = s.ticks := rfl
@[simp] theorem State.setF_fault (s : State) (v : Byte) : (s.setF v).fault = s.fault := rfl
@[simp] theorem State.setF_mem (s : State) (v : Byte) : (s.setF v).mem = s.mem := rfl
@[simp] theorem State.setF_device (s : State) (v : Byte) : (s.setF v).device = s.device := rfl
@[simp] theorem State.setF_claims (s : State) (v : Byte) : (s.setF v).claims = s.claims := rfl
@[simp] theorem State.setF_env (s : State) (v : Byte) : (s.setF v).env = s.env := rfl
@[simp] theorem State.setF_opAddr (s : State) (v : Byte) : (s.setF v).opAddr = s.opAddr := rfl
@[simp] theorem State.setF_busLog (s : State) (v : Byte) : (s.setF v).busLog = s.busLog := rfl

/-! ### `setAF` -/

@[simp] theorem State.setAF_a (s : State) (p : Byte × Byte) : (s.setAF p).a = p.1 := rfl
@[simp] theorem State.setAF_f (s : State) (p : Byte × Byte) : (s.setAF p).f = p.2 := rfl
@[simp] theorem State.setAF_b (s : State) (p : Byte × Byte) : (s.setAF p).b = s.b := rfl
@[simp] theorem State.setAF_c (s : State) (p : Byte × Byte) : (s.setAF p).c = s.c := rfl
@[simp] theorem State.setAF_d (s : State) (p : Byte × Byte) : (s.setAF p).d = s.d := rfl
@[simp] theorem State.setAF_e (s : State) (p : Byte × Byte) : (s.setAF p).e = s.e := rfl
@[simp] theorem State.setAF_h (s : State) (p : Byte × Byte) : (s.setAF p).h = s.h := rfl
@[simp] theorem State.setAF_l (s : State) (p : Byte × Byte) : (s.setAF p).l = s.l := rfl
@[simp] theorem State.setAF_sp (s : State) (p : Byte × Byte) : (s.setAF p).sp = s.sp := rfl
@[simp] theorem State.setAF_pc (s : State) (p : Byte × Byte) : (s.setAF p).pc = s.pc := rfl
@[simp] theorem State.setAF_halted (s : State) (p : Byte × Byte) : (s.setAF p).halted = s.halted := rfl
@[simp] theorem State.setAF_ime (s : State) (p : Byte × Byte) : (s.setAF p).ime = s.ime := rfl
@[simp] theorem State.setAF_deferredEnable (s : State) (p : Byte × Byte) : (s.setAF p).deferredEnable = s.deferredEnable := rfl
@[simp] theorem State.setAF_haltBugArmed (s : State) (p : Byte × Byte) : (s.setAF p).haltBugArmed = s.haltBugArmed := rfl
@[simp] theorem State.setAF_ticks (s : State) (p : Byte × Byte) : (s.setAF p).ticks = s.ticks := rfl
@[simp] theorem State.setAF_fault (s : State) (p : Byte × Byte) : (s.setAF p).fault = s.fault := rfl
@[simp] theorem State.setAF_mem (s : State) (p : Byte × Byte) : (s.setAF p).mem = s.mem := rfl
@[simp] theorem State.setAF_device (s : State) (p : Byte × Byte) : (s.setAF p).device = s.device := rfl
@[simp] theorem State.setAF_claims (s : State) (p : Byte × Byte) : (s.setAF p).claims = s.claims := rfl
@[simp] theorem State.setAF_env (s : State) (p : Byte × Byte) : (s.setAF p).env = s.env := rfl
@[simp] theorem State.setAF_opAddr (s : State) (p : Byte × Byte) : (s.setAF p).opAddr = s.opAddr := rfl
@[simp] theorem State.setAF_busLog (s : State) (p : Byte × Byte) : (s.setAF p).busLog = s.busLog := rfl

/-! ### `fetched` -/

@[simp] theorem State.fetched_a (s : State) : (s.fetched).a = s.a := rfl
@[simp] theorem State.fetched_f (s : State) : (s.fetched).f = s.f := rfl
@[simp] theorem State.fetched_b (s : State) : (s.fetched).b = s.b := rfl
@[simp] theorem State.fetched_c (s : State) : (s.fetched).c = s.c := rfl
@[simp] theorem State.fetched_d (s : State) : (s.fetched).d = s.d := rfl
@[simp] theorem State.fetched_e (s : State) : (s.fetched).e = s.e := rfl
@[simp] theorem State.fetched_h (s : State) : (s.fetched).h = s.h := rfl
@[simp] theorem State.fetched_l (s : State) : (s.fetched).l = s.l := rfl
@[simp] theorem State.fetched_sp (s : State) : (s.fetched).sp = s.sp := rfl
@[simp] theorem State.fetched_pc (s : State) : (s.fetched).pc = (if s.haltBugArmed then s.pc else s.pc + 1) := rfl
@[simp] theorem State.fetched_halted (s : State) : (s.fetched).halted = s.halted := rfl
@[simp] theorem State.fetched_ime (s : State) : (s.fetched).ime = (s.ime || s.deferredEnable) := rfl
@[simp] theorem State.fetched_deferredEnable (s : State) : (s.fetched).deferredEnable = false := rfl
@[simp] theorem State.fetched_haltBugArmed (s : State) : (s.fetched).haltBugArmed = false := rfl
@[simp] theorem State.fetched_ticks (s : State) : (s.fetched).ticks = s.ticks := rfl
@[simp] theorem State.fetched_fault (s : State) : (s.fetched).fault = s.fault := rfl
@[simp] theorem State.fetched_mem (s : State) : (s.fetched).mem = s.mem := rfl
@[simp] theorem State.fetched_device (s : State) : (s.fetched).device = s.device := rfl
@[simp] theorem State.fetched_claims (s : State) : (s.fetched).claims = s.claims := rfl
@[simp] theorem State.fetched_env (s : State) : (s.fetched).env = s.env := rfl
@[simp] theorem State.fetched_opAddr (s : State) : (s.fetched).opAddr = s.pc := rfl
@[simp] theorem State.fetched_busLog (s : State) : (s.fetched).busLog = s.busLog := rfl

/-! ### `pastImm8` -/

@[simp] theorem State.pastImm8_a (s : State) : (s.pastImm8).a = s.a := rfl
@[simp] theorem State.pastImm8_f (s : State) : (s.pastImm8).f = s.f := rfl
@[simp] theorem State.pastImm8_b (s : State) : (s.pastImm8).b = s.b := rfl
@[simp] theorem State.pastImm8_c (s : State) : (s.pastImm8).c = s.c := rfl
@[simp] theorem State.pastImm8_d (s : State) : (s.pastImm8).d = s.d := rfl
@[simp] theorem State.pastImm8_e (s : State) : (s.pastImm8).e = s.e := rfl
@[simp] theorem State.pastImm8_h (s : State) : (s.pastImm8).h = s.h := rfl
@[simp] theorem State.pastImm8_l (s : State) : (s.pastImm8).l = s.l := rfl
@[simp] theorem State.pastImm8_sp (s : State) : (s.pastImm8).sp = s.sp := rfl
@[simp] theorem State.pastImm8_pc (s : State) : (s.pastImm8).pc = s.pc + 1 := rfl
@[simp] theorem State.pastImm8_halted (s : State) : (s.pastImm8).halted = s.halted := rfl
@[simp] theorem State.pastImm8_ime (s : State) : (s.pastImm8).ime = s.ime := rfl
@[simp] theorem State.pastImm8_deferredEnable (s : State) : (s.pastImm8).deferredEnable = s.deferredEnable := rfl
@[simp] theorem State.pastImm8_haltBugArmed (s : State) : (s.pastImm8).haltBugArmed = s.haltBugArmed := rfl
@[simp] theorem State.pastImm8_ticks (s : State) : (s.pastImm8).ticks = s.ticks := rfl
@[simp] theorem State.pastImm8_fault (s : State) : (s.pastImm8).fault = s.fault := rfl
@[simp] theorem State.pastImm8_mem (s : State) : (s.pastImm8).mem = s.mem := rfl
@[simp] theorem State.pastImm8_claims (s : State) : (s.pastImm8).claims = s.claims := rfl
@[simp] theorem State.pastImm8_env (s : State) : (s.pastImm8).env = s.env := rfl
@[simp] theorem State.pastImm8_opAddr (s : State) : (s.pastImm8).opAddr = s.opAddr := rfl

/-! ### `pastImm16` -/

@[simp] theorem State.pastImm16_a (s : State) : (s.pastImm16).a = s.a := rfl
@[simp] theorem State.pastImm16_f (s : State) : (s.pastImm16).f = s.f := rfl
@[simp] theorem State.pastImm16_b (s : State) : (s.pastImm16).b = s.b := rfl
@[simp] theorem State.pastImm16_c (s : State) : (s.pastImm16).c = s.c := rfl
@[simp] theorem State.pastImm16_d (s : State) : (s.pastImm16).d = s.d := rfl
@[simp] theorem State.pastImm16_e (s : State) : (s.pastImm16).e = s.e := rfl
@[simp] theorem State.pastImm16_h (s : State) : (s.pastImm16).h = s.h := rfl
@[simp] theorem State.pastImm16_l (s : State) : (s.pastImm16).l = s.l := rfl
@[simp] theorem State.pastImm16_sp (s : State) : (s.pastImm16).sp = s.sp := rfl
@[simp] theorem State.pastImm16_pc (s : State) : (s.pastImm16).pc = s.pc + 2 := rfl
@[simp] theorem State.pastImm16_halted (s : State) : (s.pastImm16).halted = s.halted := rfl
@[simp] theorem State.pastImm16_ime (s : State) : (s.pastImm16).ime = s.ime := rfl
@[simp] theorem State.pastImm16_deferredEnable (s : State) : (s.pastImm16).deferredEnable = s.deferredEnable := rfl
@[simp] theorem State.pastImm16_haltBugArmed (s : State) : (s.pastImm16).haltBugArmed = s.haltBugArmed := rfl
@[simp] theorem State.pastImm16_ticks (s : State) : (s.pastImm16).ticks = s.ticks := rfl
@[simp] theorem State.pastImm16_fault (s : State) : (s.pastImm16).fault = s.fault := rfl
@[simp] theorem State.pastImm16_mem (s : State) : (s.pastImm16).mem = s.mem := rfl
@[simp] theorem State.pastImm16_claims (s : State) : (s.pastImm16).claims = s.claims := rfl
@[simp] theorem State.pastImm16_env (s : State) : (s.pastImm16).env = s.env := rfl
@[simp] theorem State.pastImm16_opAddr (s : State) : (s.pastImm16).opAddr = s.opAddr := rfl

/-! ### `popped` -/

@[simp] theorem State.popped_a (s : State) : (s.popped).a = s.a := rfl
@[simp] theorem State.popped_f (s : State) : (s.popped).f = s.f := rfl
@[simp] theorem State.popped_b (s : State) : (s.popped).b = s.b := rfl
@[simp] theorem State.popped_c (s : State) : (s.popped).c = s.c := rfl
@[simp] theorem State.popped_d (s : State) : (s.popped).d = s.d := rfl
@[simp] theorem State.popped_e (s : State) : (s.popped).e = s.e := rfl
@[simp] theorem State.popped_h (s : State) : (s.popped).h = s.h := rfl
@[simp] theorem State.popped_l (s : State) : (s.popped).l = s.l := rfl
@[simp] theorem State.popped_sp (s : State) : (s.popped).sp = s.sp + 2 := rfl
@[simp] theorem State.popped_pc (s : State) : (s.popped).pc = s.pc := rfl
@[simp] theorem State.popped_halted (s : State) : (s.popped).halted = s.halted := rfl
@[simp] theorem State.popped_ime (s : State) : (s.popped).ime = s.ime := rfl
@[simp] theorem State.popped_deferredEnable (s : State) : (s.popped).deferredEnable = s.deferredEnable := rfl
@[simp] theorem State.popped_haltBugArmed (s : State) : (s.popped).haltBugArmed = s.haltBugArmed := rfl
@[simp] theorem State.popped_ticks (s : State) : (s.popped).ticks = s.ticks := rfl
@[simp] theorem State.popped_fault (s : State) : (s.popped).fault = s.fault := rfl
@[simp] theorem State.popped_mem (s : State) : (s.popped).mem = s.mem := rfl
@[simp] theorem State.popped_claims (s : State) : (s.popped).claims = s.claims := rfl
@[simp] theorem State.popped_env (s : State) : (s.popped).env = s.env := rfl
@[simp] theorem State.popped_opAddr (s : State) : (s.popped).opAddr = s.opAddr := rfl

/-! ### `pushed` -/

@[simp] theorem State.pushed_a (s : State) (w : Word) : (s.pushed w).a = s.a := rfl
@[simp] theorem State.pushed_f (s : State) (w : Word) : (s.pushed w).f = s.f := rfl
@[simp] theorem State.pushed_b (s : State) (w : Word) : (s.pushed w).b = s.b := rfl
@[simp] theorem State.pushed_c (s : State) (w : Word) : (s.pushed w).c = s.c := rfl
@[simp] theorem State.pushed_d (s : State) (w : Word) : (s.pushed w).d = s.d := rfl
@[simp] theorem State.pushed_e (s : State) (w : Word) : (s.pushed w).e = s.e := rfl
@[simp] theorem State.pushed_h (s : State) (w : Word) : (s.pushed w).h = s.h := rfl
@[simp] theorem State.pushed_l (s : State) (w : Word) : (s.pushed w).l = s.l := rfl
@[simp] theorem State.pushed_sp (s : State) (w : Word) : (s.pushed w).sp = s.sp - 2 := rfl
@[simp] theorem State.pushed_pc (s : State) (w : Word) : (s.pushed w).pc = s.pc := rfl
@[simp] theorem State.pushed_halted (s : State) (w : Word) : (s.pushed w).halted = s.halted := rfl
@[simp] theorem State.pushed_ime (s : State) (w : Word) : (s.pushed w).ime = s.ime := rfl
@[simp] theorem State.pushed_deferredEnable (s : State) (w : Word) : (s.pushed w).deferredEnable = s.deferredEnable := rfl
@[simp] theorem State.pushed_haltBugArmed (s : State) (w : Word) : (s.pushed w).haltBugArmed = s.haltBugArmed := rfl
@[simp] theorem State.pushed_ticks (s : State) (w : Word) : (s.pushed w).ticks = s.ticks := rfl
@[simp] theorem State.pushed_fault (s : State) (w : Word) : (s.pushed w).fault = s.fault := rfl
@[simp] theorem State.pushed_claims (s : State) (w : Word) : (s.pushed w).claims = s.claims := rfl
@[simp] theorem State.pushed_env (s : State) (w : Word) : (s.pushed w).env = s.env := rfl
@[simp] theorem State.pushed_opAddr (s : State) (w : Word) : (s.pushed w).opAddr = s.opAddr := rfl

/-! ### `irqRead` -/

@[simp] theorem State.irqRead_a (s : State) : (s.irqRead).a = s.a := rfl
@[simp] theorem State.irqRead_f (s : State) : (s.irqRead).f = s.f := rfl
@[simp] theorem State.irqRead_b (s : State) : (s.irqRead).b = s.b := rfl
@[simp] theorem State.irqRead_c (s : State) : (s.irqRead).c = s.c := rfl
@[simp] theorem State.irqRead_d (s : State) : (s.irqRead).d = s.d := rfl
@[simp] theorem State.irqRead_e (s : State) : (s.irqRead).e = s.e := rfl
@[simp] theorem State.irqRead_h (s : State) : (s.irqRead).h = s.h := rfl
@[simp] theorem State.irqRead_l (s : State) : (s.irqRead).l = s.l := rfl
@[simp] theorem State.irqRead_sp (s : State) : (s.irqRead).sp = s.sp := rfl
@[simp] theorem State.irqRead_pc (s : State) : (s.irqRead).pc = s.pc := rfl
@[simp] theorem State.irqRead_halted (s : State) : (s.irqRead).halted = s.halted := rfl
@[simp] theorem State.irqRead_ime (s : State) : (s.irqRead).ime = s.ime := rfl
@[simp] theorem State.irqRead_deferredEnable (s : State) : (s.irqRead).deferredEnable = s.deferredEnable := rfl
@[simp] theorem State.irqRead_haltBugArmed (s : State) : (s.irqRead).haltBugArmed = s.haltBugArmed := rfl
@[simp] theorem State.irqRead_ticks (s : State) : (s.irqRead).ticks = s.ticks := rfl
@[simp] theorem State.irqRead_fault (s : State) : (s.irqRead).fault = s.fault := rfl
@[simp] theorem State.irqRead_mem (s : State) : (s.irqRead).mem = s.mem := rfl
@[simp] theorem State.irqRead_claims (s : State) : (s.irqRead).claims = s.claims := rfl
@[simp] theorem State.irqRead_env (s : State) : (s.irqRead).env = s.env := rfl
@[simp] theorem State.irqRead_opAddr (s : State) : (s.irqRead).opAddr = s.opAddr := rfl

/-! ### `setReg`, `setReg16`, `setRegStk`: the fields none of their registers is -/

@[simp] theorem State.setReg_f (s : State) (r : Reg8) (v : Byte) : (s.setReg r v).f = s.f := by cases r <;> rfl
@[simp] theorem State.setReg_sp (s : State) (r : Reg8) (v : Byte) : (s.setReg r v).sp = s.sp := by cases r <;> rfl
@[simp] theorem State.setReg_pc (s : State) (r : Reg8) (v : Byte) : (s.setReg r v).pc = s.pc := by cases r <;> rfl
@[simp] theorem State.setReg_halted (s : State) (r : Reg8) (v : Byte) : (s.setReg r v).halted = s.halted := by cases r <;> rfl
@[simp] theorem State.setReg_ime (s : State) (r : Reg8) (v : Byte) : (s.setReg r v).ime = s.ime := by cases r <;> rfl
@[simp] theorem State.setReg_deferredEnable (s : State) (r : Reg8) (v : Byte) : (s.setReg r v).deferredEnable = s.deferredEnable := by cases r <;> rfl
@[simp] theorem State.setReg_haltBugArmed (s : State) (r : Reg8) (v : Byte) : (s.setReg r v).haltBugArmed = s.haltBugArmed := by cases r <;> rfl
@[simp] theorem State.setReg_ticks (s : State) (r : Reg8) (v : Byte) : (s.setReg r v).ticks = s.ticks := by cases r <;> rfl
@[simp] theorem State.setReg_fault (s : State) (r : Reg8) (v : Byte) : (s.setReg r v).fault = s.fault := by cases r <;> rfl
@[simp] theorem State.setReg_mem (s : State) (r : Reg8) (v : Byte) : (s.setReg r v).mem = s.mem := by cases r <;> rfl
@[simp] theorem State.setReg_device (s : State) (r : Reg8) (v : Byte) : (s.setReg r v).device = s.device := by cases r <;> rfl
@[simp] theorem State.setReg_claims (s : State) (r : Reg8) (v : Byte) : (s.setReg r v).claims = s.claims := by cases r <;> rfl
@[simp] theorem State.setReg_env (s : State) (r : Reg8) (v : Byte) : (s.setReg r v).env = s.env := by cases r <;> rfl
@[simp] theorem State.setReg_opAddr (s : State) (r : Reg8) (v : Byte) : (s.setReg r v).opAddr = s.opAddr := by cases r <;> rfl
@[simp] theorem State.setReg_busLog (s : State) (r : Reg8) (v : Byte) : (s.setReg r v).busLog = s.busLog := by cases r <;> rfl

@[simp] theorem State.setReg16_a (s : State) (r : R16) (w : Word) : (s.setReg16 r w).a = s.a := by cases r <;> rfl
@[simp] theorem State.setReg16_f (s : State) (r : R16) (w : Word) : (s.setReg16 r w).f = s.f := by cases r <;> rfl
@[simp] theorem State.setReg16_pc (s : State) (r : R16) (w : Word) : (s.setReg16 r w).pc = s.pc := by cases r <;> rfl
@[simp] theorem State.setReg16_halted (s : State) (r : R16) (w : Word) : (s.setReg16 r w).halted = s.halted := by cases r <;> rfl
@[simp] theorem State.setReg16_ime (s : State) (r : R16) (w : Word) : (s.setReg16 r w).ime = s.ime := by cases r <;> rfl
@[simp] theorem State.setReg16_deferredEnable (s : State) (r : R16) (w : Word) : (s.setReg16 r w).deferredEnable = s.deferredEnable := by cases r <;> rfl
@[simp] theorem State.setReg16_haltBugArmed (s : State) (r : R16) (w : Word) : (s.setReg16 r w).haltBugArmed = s.haltBugArmed := by cases r <;> rfl
@[simp] theorem State.setReg16_ticks (s : State) (r : R16) (w : Word) : (s.setReg16 r w).ticks = s.ticks := by cases r <;> rfl
@[simp] theorem State.setReg16_fault (s : State) (r : R16) (w : Word) : (s.setReg16 r w).fault = s.fault := by cases r <;> rfl
@[simp] theorem State.setReg16_mem (s : State) (r : R16) (w : Word) : (s.setReg16 r w).mem = s.mem := by cases r <;> rfl
@[simp] theorem State.setReg16_device (s : State) (r : R16) (w : Word) : (s.setReg16 r w).device = s.device := by cases r <;> rfl
@[simp] theorem State.setReg16_claims (s : State) (r : R16) (w : Word) : (s.setReg16 r w).claims = s.claims := by cases r <;> rfl
@[simp] theorem State.setReg16_env (s : State) (r : R16) (w : Word) : (s.setReg16 r w).env = s.env := by cases r <;> rfl
@[simp] theorem State.setReg16_opAddr (s : State) (r : R16) (w : Word) : (s.setReg16 r w).opAddr = s.opAddr := by cases r <;> rfl
@[simp] theorem State.setReg16_busLog (s : State) (r : R16) (w : Word) : (s.setReg16 r w).busLog = s.busLog := by cases r <;> rfl

@[simp] theorem State.setRegStk_sp (s : State) (p : R16Stk) (w : Word) : (s.setRegStk p w).sp = s.sp := by cases p <;> rfl
@[simp] theorem State.setRegStk_pc (s : State) (p : R16Stk) (w : Word) : (s.setRegStk p w).pc = s.pc := by cases p <;> rfl
@[simp] theorem State.setRegStk_halted (s : State) (p : R16Stk) (w : Word) : (s.setRegStk p w).halted = s.halted := by cases p <;> rfl
@[simp] theorem State.setRegStk_ime (s : State) (p : R16Stk) (w : Word) : (s.setRegStk p w).ime = s.ime := by cases p <;> rfl
@[simp] theorem State.setRegStk_deferredEnable (s : State) (p : R16Stk) (w : Word) : (s.setRegStk p w).deferredEnable = s.deferredEnable := by cases p <;> rfl
@[simp] theorem State.setRegStk_haltBugArmed (s : State) (p : R16Stk) (w : Word) : (s.setRegStk p w).haltBugArmed = s.haltBugArmed := by cases p <;> rfl
@[simp] theorem State.setRegStk_ticks (s : State) (p : R16Stk) (w : Word) : (s.setRegStk p w).ticks = s.ticks := by cases p <;> rfl
@[simp] theorem State.setRegStk_fault (s : State) (p : R16Stk) (w : Word) : (s.setRegStk p w).fault = s.fault := by cases p <;> rfl
@[simp] theorem State.setRegStk_mem (s : State) (p : R16Stk) (w : Word) : (s.setRegStk p w).mem = s.mem := by cases p <;> rfl
@[simp] theorem State.setRegStk_device (s : State) (p : R16Stk) (w : Word) : (s.setRegStk p w).device = s.device := by cases p <;> rfl
@[simp] theorem State.setRegStk_claims (s : State) (p : R16Stk) (w : Word) : (s.setRegStk p w).claims = s.claims := by cases p <;> rfl
@[simp] theorem State.setRegStk_env (s : State) (p : R16Stk) (w : Word) : (s.setRegStk p w).env = s.env := by cases p <;> rfl
@[simp] theorem State.setRegStk_opAddr (s : State) (p : R16Stk) (w : Word) : (s.setRegStk p w).opAddr = s.opAddr := by cases p <;> rfl
@[simp] theorem State.setRegStk_busLog (s : State) (p : R16Stk) (w : Word) : (s.setRegStk p w).busLog = s.busLog := by cases p <;> rfl

/-! ### What a read of a register gives after a write of one -/

@[simp] theorem State.reg_setReg_same (s : State) (r : Reg8) (v : Byte) : (s.setReg r v).reg r = v := by cases r <;> rfl

theorem State.reg_setReg_ne (s : State) {r q : Reg8} (h : q ≠ r) (v : Byte) : (s.setReg r v).reg q = s.reg q := by
  cases r <;> cases q <;> first | rfl | exact absurd rfl h

/-! ### The bus: what answers, and what it holds -/

@[simp] theorem State.charge_readRule (s : State) (n : Nat) (y : Word) : (s.charge n).readRule y = s.readRule y := rfl
@[simp] theorem State.charge_writeRule (s : State) (n : Nat) (y : Word) : (s.charge n).writeRule y = s.writeRule y := rfl
@[simp] theorem State.charge_memAt (s : State) (n : Nat) (y : Word) : (s.charge n).memAt y = s.memAt y := rfl
@[simp] theorem State.charge_canRead (s : State) (n : Nat) (y : Word) : (s.charge n).canRead y = s.canRead y := rfl
@[simp] theorem State.charge_byteAt (s : State) (n : Nat) (y : Word) : (s.charge n).byteAt y = s.byteAt y := rfl
@[simp] theorem State.charge_canWrite (s : State) (n : Nat) (y : Word) (z : Byte) : (s.charge n).canWrite y z = s.canWrite y z := rfl
@[simp] theorem State.afterRead_readRule (s : State) (x : Word) (y : Word) : (s.afterRead x).readRule y = s.readRule y := rfl
@[simp] theorem State.afterRead_writeRule (s : State) (x : Word) (y : Word) : (s.afterRead x).writeRule y = s.writeRule y := rfl
@[simp] theorem State.afterRead_memAt (s : State) (x : Word) (y : Word) : (s.afterRead x).memAt y = s.memAt y := rfl
@[simp] theorem State.afterWrite_readRule (s : State) (x : Word) (v : Byte) (y : Word) : (s.afterWrite x v).readRule y = s.readRule y := rfl
@[simp] theorem State.afterWrite_writeRule (s : State) (x : Word) (v : Byte) (y : Word) : (s.afterWrite x v).writeRule y = s.writeRule y := rfl
@[simp] theorem State.store_readRule (s : State) (x : Word) (v : Byte) (y : Word) : (s.store x v).readRule y = s.readRule y := rfl
@[simp] theorem State.store_writeRule (s : State) (x : Word) (v : Byte) (y : Word) : (s.store x v).writeRule y = s.writeRule y := rfl
@[simp] theorem State.advancePc_readRule (s : State) (y : Word) : (s.advancePc).readRule y = s.readRule y := rfl
@[simp] theorem State.advancePc_writeRule (s : State) (y : Word) : (s.advancePc).writeRule y = s.writeRule y := rfl
@[simp] theorem State.advancePc_memAt (s : State) (y : Word) : (s.advancePc).memAt y = s.memAt y := rfl
@[simp] theorem State.advancePc_canRead (s : State) (y : Word) : (s.advancePc).canRead y = s.canRead y := rfl
@[simp] theorem State.advancePc_byteAt (s : State) (y : Word) : (s.advancePc).byteAt y = s.byteAt y := rfl
@[simp] theorem State.advancePc_canWrite (s : State) (y : Word) (z : Byte) : (s.advancePc).canWrite y z = s.canWrite y z := rfl
@[simp] theorem State.jump_readRule (s : State) (w : Word) (y : Word) : (s.jump w).readRule y = s.readRule y := rfl
@[simp] theorem State.jump_writeRule (s : State) (w : Word) (y : Word) : (s.jump w).writeRule y = s.writeRule y := rfl
@[simp] theorem State.jump_memAt (s : State) (w : Word) (y : Word) : (s.jump w).memAt y = s.memAt y := rfl
@[simp] theorem State.jump_canRead (s : State) (w : Word) (y : Word) : (s.jump w).canRead y = s.canRead y := rfl
@[simp] theorem State.jump_byteAt (s : State) (w : Word) (y : Word) : (s.jump w).byteAt y = s.byteAt y := rfl
@[simp] theorem State.jump_canWrite (s : State) (w : Word) (y : Word) (z : Byte) : (s.jump w).canWrite y z = s.canWrite y z := rfl
@[simp] theorem State.setHl_readRule (s : State) (w : Word) (y : Word) : (s.setHl w).readRule y = s.readRule y := rfl
@[simp] theorem State.setHl_writeRule (s : State) (w : Word) (y : Word) : (s.setHl w).writeRule y = s.writeRule y := rfl
@[simp] theorem State.setHl_memAt (s : State) (w : Word) (y : Word) : (s.setHl w).memAt y = s.memAt y := rfl
@[simp] theorem State.setHl_canRead (s : State) (w : Word) (y : Word) : (s.setHl w).canRead y = s.canRead y := rfl
@[simp] theorem State.setHl_byteAt (s : State) (w : Word) (y : Word) : (s.setHl w).byteAt y = s.byteAt y := rfl
@[simp] theorem State.setHl_canWrite (s : State) (w : Word) (y : Word) (z : Byte) : (s.setHl w).canWrite y z = s.canWrite y z := rfl
@[simp] theorem State.setSp_readRule (s : State) (w : Word) (y : Word) : (s.setSp w).readRule y = s.readRule y := rfl
@[simp] theorem State.setSp_writeRule (s : State) (w : Word) (y : Word) : (s.setSp w).writeRule y = s.writeRule y := rfl
@[simp] theorem State.setSp_memAt (s : State) (w : Word) (y : Word) : (s.setSp w).memAt y = s.memAt y := rfl
@[simp] theorem State.setSp_canRead (s : State) (w : Word) (y : Word) : (s.setSp w).canRead y = s.canRead y := rfl
@[simp] theorem State.setSp_byteAt (s : State) (w : Word) (y : Word) : (s.setSp w).byteAt y = s.byteAt y := rfl
@[simp] theorem State.setSp_canWrite (s : State) (w : Word) (y : Word) (z : Byte) : (s.setSp w).canWrite y z = s.canWrite y z := rfl
@[simp] theorem State.wake_readRule (s : State) (y : Word) : (s.wake).readRule y = s.readRule y := rfl
@[simp] theorem State.wake_writeRule (s : State) (y : Word) : (s.wake).writeRule y = s.writeRule y := rfl
@[simp] theorem State.wake_memAt (s : State) (y : Word) : (s.wake).memAt y = s.memAt y := rfl
@[simp] theorem State.wake_canRead (s : State) (y : Word) : (s.wake).canRead y = s.canRead y := rfl
@[simp] theorem State.wake_byteAt (s : State) (y : Word) : (s.wake).byteAt y = s.byteAt y := rfl
@[simp] theorem State.wake_canWrite (s : State) (y : Word) (z : Byte) : (s.wake).canWrite y z = s.canWrite y z := rfl
@[simp] theorem State.setF_readRule (s : State) (v : Byte) (y : Word) : (s.setF v).readRule y = s.readRule y := rfl
@[simp] theorem State.setF_writeRule (s : State) (v : Byte) (y : Word) : (s.setF v).writeRule y = s.writeRule y := rfl
@[simp] theorem State.setF_memAt (s : State) (v : Byte) (y : Word) : (s.setF v).memAt y = s.memAt y := rfl
@[simp] theorem State.setF_canRead (s : State) (v : Byte) (y : Word) : (s.setF v).canRead y = s.canRead y := rfl
@[simp] theorem State.setF_byteAt (s : State) (v : Byte) (y : Word) : (s.setF v).byteAt y = s.byteAt y := rfl
@[simp] theorem State.setF_canWrite (s : State) (v : Byte) (y : Word) (z : Byte) : (s.setF v).canWrite y z = s.canWrite y z := rfl
@[simp] theorem State.setAF_readRule (s : State) (p : Byte × Byte) (y : Word) : (s.setAF p).readRule y = s.readRule y := rfl
@[simp] theorem State.setAF_writeRule (s : State) (p : Byte × Byte) (y : Word) : (s.setAF p).writeRule y = s.writeRule y := rfl
@[simp] theorem State.setAF_memAt (s : State) (p : Byte × Byte) (y : Word) : (s.setAF p).memAt y = s.memAt y := rfl
@[simp] theorem State.setAF_canRead (s : State) (p : Byte × Byte) (y : Word) : (s.setAF p).canRead y = s.canRead y := rfl
@[simp] theorem State.setAF_byteAt (s : State) (p : Byte × Byte) (y : Word) : (s.setAF p).byteAt y = s.byteAt y := rfl
@[simp] theorem State.setAF_canWrite (s : State) (p : Byte × Byte) (y : Word) (z : Byte) : (s.setAF p).canWrite y z = s.canWrite y z := rfl
@[simp] theorem State.fetched_readRule (s : State) (y : Word) : (s.fetched).readRule y = s.readRule y := rfl
@[simp] theorem State.fetched_writeRule (s : State) (y : Word) : (s.fetched).writeRule y = s.writeRule y := rfl
@[simp] theorem State.fetched_memAt (s : State) (y : Word) : (s.fetched).memAt y = s.memAt y := rfl
@[simp] theorem State.fetched_canRead (s : State) (y : Word) : (s.fetched).canRead y = s.canRead y := rfl
@[simp] theorem State.fetched_byteAt (s : State) (y : Word) : (s.fetched).byteAt y = s.byteAt y := rfl
@[simp] theorem State.fetched_canWrite (s : State) (y : Word) (z : Byte) : (s.fetched).canWrite y z = s.canWrite y z := rfl
@[simp] theorem State.pastImm8_readRule (s : State) (y : Word) : (s.pastImm8).readRule y = s.readRule y := rfl
@[simp] theorem State.pastImm8_writeRule (s : State) (y : Word) : (s.pastImm8).writeRule y = s.writeRule y := rfl
@[simp] theorem State.pastImm8_memAt (s : State) (y : Word) : (s.pastImm8).memAt y = s.memAt y := rfl
@[simp] theorem State.pastImm16_readRule (s : State) (y : Word) : (s.pastImm16).readRule y = s.readRule y := rfl
@[simp] theorem State.pastImm16_writeRule (s : State) (y : Word) : (s.pastImm16).writeRule y = s.writeRule y := rfl
@[simp] theorem State.pastImm16_memAt (s : State) (y : Word) : (s.pastImm16).memAt y = s.memAt y := rfl
@[simp] theorem State.popped_readRule (s : State) (y : Word) : (s.popped).readRule y = s.readRule y := rfl
@[simp] theorem State.popped_writeRule (s : State) (y : Word) : (s.popped).writeRule y = s.writeRule y := rfl
@[simp] theorem State.popped_memAt (s : State) (y : Word) : (s.popped).memAt y = s.memAt y := rfl
@[simp] theorem State.pushed_readRule (s : State) (w : Word) (y : Word) : (s.pushed w).readRule y = s.readRule y := rfl
@[simp] theorem State.pushed_writeRule (s : State) (w : Word) (y : Word) : (s.pushed w).writeRule y = s.writeRule y := rfl
@[simp] theorem State.irqRead_readRule (s : State) (y : Word) : (s.irqRead).readRule y = s.readRule y := rfl
@[simp] theorem State.irqRead_writeRule (s : State) (y : Word) : (s.irqRead).writeRule y = s.writeRule y := rfl
@[simp] theorem State.irqRead_memAt (s : State) (y : Word) : (s.irqRead).memAt y = s.memAt y := rfl
@[simp] theorem State.setReg_readRule (s : State) (r : Reg8) (v : Byte) (y : Word) : (s.setReg r v).readRule y = s.readRule y := by cases r <;> rfl
@[simp] theorem State.setReg_writeRule (s : State) (r : Reg8) (v : Byte) (y : Word) : (s.setReg r v).writeRule y = s.writeRule y := by cases r <;> rfl
@[simp] theorem State.setReg_memAt (s : State) (r : Reg8) (v : Byte) (y : Word) : (s.setReg r v).memAt y = s.memAt y := by cases r <;> rfl
@[simp] theorem State.setReg_canRead (s : State) (r : Reg8) (v : Byte) (y : Word) : (s.setReg r v).canRead y = s.canRead y := by cases r <;> rfl
@[simp] theorem State.setReg_byteAt (s : State) (r : Reg8) (v : Byte) (y : Word) : (s.setReg r v).byteAt y = s.byteAt y := by cases r <;> rfl
@[simp] theorem State.setReg_canWrite (s : State) (r : Reg8) (v : Byte) (y : Word) (z : Byte) : (s.setReg r v).canWrite y z = s.canWrite y z := by cases r <;> rfl
@[simp] theorem State.setReg16_readRule (s : State) (r : R16) (w : Word) (y : Word) : (s.setReg16 r w).readRule y = s.readRule y := by cases r <;> rfl
@[simp] theorem State.setReg16_writeRule (s : State) (r : R16) (w : Word) (y : Word) : (s.setReg16 r w).writeRule y = s.writeRule y := by cases r <;> rfl
@[simp] theorem State.setReg16_memAt (s : State) (r : R16) (w : Word) (y : Word) : (s.setReg16 r w).memAt y = s.memAt y := by cases r <;> rfl
@[simp] theorem State.setReg16_canRead (s : State) (r : R16) (w : Word) (y : Word) : (s.setReg16 r w).canRead y = s.canRead y := by cases r <;> rfl
@[simp] theorem State.setReg16_byteAt (s : State) (r : R16) (w : Word) (y : Word) : (s.setReg16 r w).byteAt y = s.byteAt y := by cases r <;> rfl
@[simp] theorem State.setReg16_canWrite (s : State) (r : R16) (w : Word) (y : Word) (z : Byte) : (s.setReg16 r w).canWrite y z = s.canWrite y z := by cases r <;> rfl
@[simp] theorem State.setRegStk_readRule (s : State) (p : R16Stk) (w : Word) (y : Word) : (s.setRegStk p w).readRule y = s.readRule y := by cases p <;> rfl
@[simp] theorem State.setRegStk_writeRule (s : State) (p : R16Stk) (w : Word) (y : Word) : (s.setRegStk p w).writeRule y = s.writeRule y := by cases p <;> rfl
@[simp] theorem State.setRegStk_memAt (s : State) (p : R16Stk) (w : Word) (y : Word) : (s.setRegStk p w).memAt y = s.memAt y := by cases p <;> rfl
@[simp] theorem State.setRegStk_canRead (s : State) (p : R16Stk) (w : Word) (y : Word) : (s.setRegStk p w).canRead y = s.canRead y := by cases p <;> rfl
@[simp] theorem State.setRegStk_byteAt (s : State) (p : R16Stk) (w : Word) (y : Word) : (s.setRegStk p w).byteAt y = s.byteAt y := by cases p <;> rfl
@[simp] theorem State.setRegStk_canWrite (s : State) (p : R16Stk) (w : Word) (y : Word) (z : Byte) : (s.setRegStk p w).canWrite y z = s.canWrite y z := by cases p <;> rfl

/-! ### Bus operations before updates that do not touch the bus: the form every equation is put in -/

@[simp] theorem State.charge_afterRead (s : State) (n : Nat) (y : Word) : (s.charge n).afterRead y = (s.afterRead y).charge n := rfl
@[simp] theorem State.charge_afterWrite (s : State) (n : Nat) (y : Word) (z : Byte) :
    (s.charge n).afterWrite y z = (s.afterWrite y z).charge n := rfl
@[simp] theorem State.advancePc_afterRead (s : State) (y : Word) : (s.advancePc).afterRead y = (s.afterRead y).advancePc := rfl
@[simp] theorem State.advancePc_afterWrite (s : State) (y : Word) (z : Byte) :
    (s.advancePc).afterWrite y z = (s.afterWrite y z).advancePc := rfl
@[simp] theorem State.jump_afterRead (s : State) (w : Word) (y : Word) : (s.jump w).afterRead y = (s.afterRead y).jump w := rfl
@[simp] theorem State.jump_afterWrite (s : State) (w : Word) (y : Word) (z : Byte) :
    (s.jump w).afterWrite y z = (s.afterWrite y z).jump w := rfl
@[simp] theorem State.setHl_afterRead (s : State) (w : Word) (y : Word) : (s.setHl w).afterRead y = (s.afterRead y).setHl w := rfl
@[simp] theorem State.setHl_afterWrite (s : State) (w : Word) (y : Word) (z : Byte) :
    (s.setHl w).afterWrite y z = (s.afterWrite y z).setHl w := rfl
@[simp] theorem State.setSp_afterRead (s : State) (w : Word) (y : Word) : (s.setSp w).afterRead y = (s.afterRead y).setSp w := rfl
@[simp] theorem State.setSp_afterWrite (s : State) (w : Word) (y : Word) (z : Byte) :
    (s.setSp w).afterWrite y z = (s.afterWrite y z).setSp w := rfl
@[simp] theorem State.wake_afterRead (s : State) (y : Word) : (s.wake).afterRead y = (s.afterRead y).wake := rfl
@[simp] theorem State.wake_afterWrite (s : State) (y : Word) (z : Byte) :
    (s.wake).afterWrite y z = (s.afterWrite y z).wake := rfl
@[simp] theorem State.setF_afterRead (s : State) (v : Byte) (y : Word) : (s.setF v).afterRead y = (s.afterRead y).setF v := rfl
@[simp] theorem State.setF_afterWrite (s : State) (v : Byte) (y : Word) (z : Byte) :
    (s.setF v).afterWrite y z = (s.afterWrite y z).setF v := rfl
@[simp] theorem State.setAF_afterRead (s : State) (p : Byte × Byte) (y : Word) : (s.setAF p).afterRead y = (s.afterRead y).setAF p := rfl
@[simp] theorem State.setAF_afterWrite (s : State) (p : Byte × Byte) (y : Word) (z : Byte) :
    (s.setAF p).afterWrite y z = (s.afterWrite y z).setAF p := rfl
@[simp] theorem State.fetched_afterRead (s : State) (y : Word) : (s.fetched).afterRead y = (s.afterRead y).fetched := rfl
@[simp] theorem State.fetched_afterWrite (s : State) (y : Word) (z : Byte) :
    (s.fetched).afterWrite y z = (s.afterWrite y z).fetched := rfl
@[simp] theorem State.setReg_afterRead (s : State) (r : Reg8) (v : Byte) (y : Word) :
    (s.setReg r v).afterRead y = (s.afterRead y).setReg r v := by cases r <;> rfl
@[simp] theorem State.setReg_afterWrite (s : State) (r : Reg8) (v : Byte) (y : Word) (z : Byte) :
    (s.setReg r v).afterWrite y z = (s.afterWrite y z).setReg r v := by cases r <;> rfl
@[simp] theorem State.setReg16_afterRead (s : State) (r : R16) (w : Word) (y : Word) :
    (s.setReg16 r w).afterRead y = (s.afterRead y).setReg16 r w := by cases r <;> rfl
@[simp] theorem State.setReg16_afterWrite (s : State) (r : R16) (w : Word) (y : Word) (z : Byte) :
    (s.setReg16 r w).afterWrite y z = (s.afterWrite y z).setReg16 r w := by cases r <;> rfl
@[simp] theorem State.setRegStk_afterRead (s : State) (p : R16Stk) (w : Word) (y : Word) :
    (s.setRegStk p w).afterRead y = (s.afterRead y).setRegStk p w := by cases p <;> rfl
@[simp] theorem State.setRegStk_afterWrite (s : State) (p : R16Stk) (w : Word) (y : Word) (z : Byte) :
    (s.setRegStk p w).afterWrite y z = (s.afterWrite y z).setRegStk p w := by cases p <;> rfl

/-! ### Pairs, flags and operands after an update that does not touch their registers -/

@[simp] theorem State.charge_af (s : State) (n : Nat) : (s.charge n).af = s.af := rfl
@[simp] theorem State.charge_bc (s : State) (n : Nat) : (s.charge n).bc = s.bc := rfl
@[simp] theorem State.charge_de (s : State) (n : Nat) : (s.charge n).de = s.de := rfl
@[simp] theorem State.charge_hl (s : State) (n : Nat) : (s.charge n).hl = s.hl := rfl
@[simp] theorem State.charge_zf (s : State) (n : Nat) : (s.charge n).zf = s.zf := rfl
@[simp] theorem State.charge_nf (s : State) (n : Nat) : (s.charge n).nf = s.nf := rfl
@[simp] theorem State.charge_hf (s : State) (n : Nat) : (s.charge n).hf = s.hf := rfl
@[simp] theorem State.charge_cf (s : State) (n : Nat) : (s.charge n).cf = s.cf := rfl
@[simp] theorem State.charge_reg (s : State) (n : Nat) (q : Reg8) : (s.charge n).reg q = s.reg q := by cases q <;> rfl
@[simp] theorem State.charge_reg16 (s : State) (n : Nat) (q : R16) : (s.charge n).reg16 q = s.reg16 q := by cases q <;> rfl
@[simp] theorem State.charge_regStk (s : State) (n : Nat) (q : R16Stk) : (s.charge n).regStk q = s.regStk q := by cases q <;> rfl
@[simp] theorem State.afterRead_af (s : State) (x : Word) : (s.afterRead x).af = s.af := rfl
@[simp] theorem State.afterRead_bc (s : State) (x : Word) : (s.afterRead x).bc = s.bc := rfl
@[simp] theorem State.afterRead_de (s : State) (x : Word) : (s.afterRead x).de = s.de := rfl
@[simp] theorem State.afterRead_hl (s : State) (x : Word) : (s.afterRead x).hl = s.hl := rfl
@[simp] theorem State.afterRead_zf (s : State) (x : Word) : (s.afterRead x).zf = s.zf := rfl
@[simp] theorem State.afterRead_nf (s : State) (x : Word) : (s.afterRead x).nf = s.nf := rfl
@[simp] theorem State.afterRead_hf (s : State) (x : Word) : (s.afterRead x).hf = s.hf := rfl
@[simp] theorem State.afterRead_cf (s : State) (x : Word) : (s.afterRead x).cf = s.cf := rfl
@[simp] theorem State.afterRead_reg (s : State) (x : Word) (q : Reg8) : (s.afterRead x).reg q = s.reg q := by cases q <;> rfl
@[simp] theorem State.afterRead_reg16 (s : State) (x : Word) (q : R16) : (s.afterRead x).reg16 q = s.reg16 q := by cases q <;> rfl
@[simp] theorem State.afterRead_regStk (s : State) (x : Word) (q : R16Stk) : (s.afterRead x).regStk q = s.regStk q := by cases q <;> rfl
@[simp] theorem State.afterWrite_af (s : State) (x : Word) (v : Byte) : (s.afterWrite x v).af = s.af := rfl
@[simp] theorem State.afterWrite_bc (s : State) (x : Word) (v : Byte) : (s.afterWrite x v).bc = s.bc := rfl
@[simp] theorem State.afterWrite_de (s : State) (x : Word) (v : Byte) : (s.afterWrite x v).de = s.de := rfl
@[simp] theorem State.afterWrite_hl (s : State) (x : Word) (v : Byte) : (s.afterWrite x v).hl = s.hl := rfl
@[simp] theorem State.afterWrite_zf (s : State) (x : Word) (v : Byte) : (s.afterWrite x v).zf = s.zf := rfl
@[simp] theorem State.afterWrite_nf (s : State) (x : Word) (v : Byte) : (s.afterWrite x v).nf = s.nf := rfl
@[simp] theorem State.afterWrite_hf (s : State) (x : Word) (v : Byte) : (s.afterWrite x v).hf = s.hf := rfl
@[simp] theorem State.afterWrite_cf (s : State) (x : Word) (v : Byte) : (s.afterWrite x v).cf = s.cf := rfl
@[simp] theorem State.afterWrite_reg (s : State) (x : Word) (v : Byte) (q : Reg8) : (s.afterWrite x v).reg q = s.reg q := by cases q <;> rfl
@[simp] theorem State.afterWrite_reg16 (s : State) (x : Word) (v : Byte) (q : R16) : (s.afterWrite x v).reg16 q = s.reg16 q := by cases q <;> rfl
@[simp] theorem State.afterWrite_regStk (s : State) (x : Word) (v : Byte) (q : R16Stk) : (s.afterWrite x v).regStk q = s.regStk q := by cases q <;> rfl
@[simp] theorem State.store_af (s : State) (x : Word) (v : Byte) : (s.store x v).af = s.af := rfl
@[simp] theorem State.store_bc (s : State) (x : Word) (v : Byte) : (s.store x v).bc = s.bc := rfl
@[simp] theorem State.store_de (s : State) (x : Word) (v : Byte) : (s.store x v).de = s.de := rfl
@[simp] theorem State.store_hl (s : State) (x : Word) (v : Byte) : (s.store x v).hl = s.hl := rfl
@[simp] theorem State.store_zf (s : State) (x : Word) (v : Byte) : (s.store x v).zf = s.zf := rfl
@[simp] theorem State.store_nf (s : State) (x : Word) (v : Byte) : (s.store x v).nf = s.nf := rfl
@[simp] theorem State.store_hf (s : State) (x : Word) (v : Byte) : (s.store x v).hf = s.hf := rfl
@[simp] theorem State.store_cf (s : State) (x : Word) (v : Byte) : (s.store x v).cf = s.cf := rfl
@[simp] theorem State.store_reg (s : State) (x : Word) (v : Byte) (q : Reg8) : (s.store x v).reg q = s.reg q := by cases q <;> rfl
@[simp] theorem State.store_reg16 (s : State) (x : Word) (v : Byte) (q : R16) : (s.store x v).reg16 q = s.reg16 q := by cases q <;> rfl
@[simp] theorem State.store_regStk (s : State) (x : Word) (v : Byte) (q : R16Stk) : (s.store x v).regStk q = s.regStk q := by cases q <;> rfl
@[simp] theorem State.advancePc_af (s : State) : (s.advancePc).af = s.af := rfl
@[simp] theorem State.advancePc_bc (s : State) : (s.advancePc).bc = s.bc := rfl
@[simp] theorem State.advancePc_de (s : State) : (s.advancePc).de = s.de := rfl
@[simp] theorem State.advancePc_hl (s : State) : (s.advancePc).hl = s.hl := rfl
@[simp] theorem State.advancePc_zf (s : State) : (s.advancePc).zf = s.zf := rfl
@[simp] theorem State.advancePc_nf (s : State) : (s.advancePc).nf = s.nf := rfl
@[simp] theorem State.advancePc_hf (s : State) : (s.advancePc).hf = s.hf := rfl
@[simp] theorem State.advancePc_cf (s : State) : (s.advancePc).cf = s.cf := rfl
@[simp] theorem State.advancePc_reg (s : State) (q : Reg8) : (s.advancePc).reg q = s.reg q := by cases q <;> rfl
@[simp] theorem State.advancePc_reg16 (s : State) (q : R16) : (s.advancePc).reg16 q = s.reg16 q := by cases q <;> rfl
@[simp] theorem State.advancePc_regStk (s : State) (q : R16Stk) : (s.advancePc).regStk q = s.regStk q := by cases q <;> rfl
@[simp] theorem State.jump_af (s : State) (w : Word) : (s.jump w).af = s.af := rfl
@[simp] theorem State.jump_bc (s : State) (w : Word) : (s.jump w).bc = s.bc := rfl
@[simp] theorem State.jump_de (s : State) (w : Word) : (s.jump w).de = s.de := rfl
@[simp] theorem State.jump_hl (s : State) (w : Word) : (s.jump w).hl = s.hl := rfl
@[simp] theorem State.jump_zf (s : State) (w : Word) : (s.jump w).zf = s.zf := rfl
@[simp] theorem State.jump_nf (s : State) (w : Word) : (s.jump w).nf = s.nf := rfl
@[simp] theorem State.jump_hf (s : State) (w : Word) : (s.jump w).hf = s.hf := rfl
@[simp] theorem State.jump_cf (s : State) (w : Word) : (s.jump w).cf = s.cf := rfl
@[simp] theorem State.jump_reg (s : State) (w : Word) (q : Reg8) : (s.jump w).reg q = s.reg q := by cases q <;> rfl
@[simp] theorem State.jump_reg16 (s : State) (w : Word) (q : R16) : (s.jump w).reg16 q = s.reg16 q := by cases q <;> rfl
@[simp] theorem State.jump_regStk (s : State) (w : Word) (q : R16Stk) : (s.jump w).regStk q = s.regStk q := by cases q <;> rfl
@[simp] theorem State.setHl_af (s : State) (w : Word) : (s.setHl w).af = s.af := rfl
@[simp] theorem State.setHl_bc (s : State) (w : Word) : (s.setHl w).bc = s.bc := rfl
@[simp] theorem State.setHl_de (s : State) (w : Word) : (s.setHl w).de = s.de := rfl
@[simp] theorem State.setHl_zf (s : State) (w : Word) : (s.setHl w).zf = s.zf := rfl
@[simp] theorem State.setHl_nf (s : State) (w : Word) : (s.setHl w).nf = s.nf := rfl
@[simp] theorem State.setHl_hf (s : State) (w : Word) : (s.setHl w).hf = s.hf := rfl
@[simp] theorem State.setHl_cf (s : State) (w : Word) : (s.setHl w).cf = s.cf := rfl
@[simp] theorem State.setSp_af (s : State) (w : Word) : (s.setSp w).af = s.af := rfl
@[simp] theorem State.setSp_bc (s : State) (w : Word) : (s.setSp w).bc = s.bc := rfl
@[simp] theorem State.setSp_de (s : State) (w : Word) : (s.setSp w).de = s.de := rfl
@[simp] theorem State.setSp_hl (s : State) (w : Word) : (s.setSp w).hl = s.hl := rfl
@[simp] theorem State.setSp_zf (s : State) (w : Word) : (s.setSp w).zf = s.zf := rfl
@[simp] theorem State.setSp_nf (s : State) (w : Word) : (s.setSp w).nf = s.nf := rfl
@[simp] theorem State.setSp_hf (s : State) (w : Word) : (s.setSp w).hf = s.hf := rfl
@[simp] theorem State.setSp_cf (s : State) (w : Word) : (s.setSp w).cf = s.cf := rfl
@[simp] theorem State.setSp_reg (s : State) (w : Word) (q : Reg8) : (s.setSp w).reg q = s.reg q := by cases q <;> rfl
@[simp] theorem State.setSp_regStk (s : State) (w : Word) (q : R16Stk) : (s.setSp w).regStk q = s.regStk q := by cases q <;> rfl
@[simp] theorem State.wake_af (s : State) : (s.wake).af = s.af := rfl
@[simp] theorem State.wake_bc (s : State) : (s.wake).bc = s.bc := rfl
@[simp] theorem State.wake_de (s : State) : (s.wake).de = s.de := rfl
@[simp] theorem State.wake_hl (s : State) : (s.wake).hl = s.hl := rfl
@[simp] theorem State.wake_zf (s : State) : (s.wake).zf = s.zf := rfl
@[simp] theorem State.wake_nf (s : State) : (s.wake).nf = s.nf := rfl
@[simp] theorem State.wake_hf (s : State) : (s.wake).hf = s.hf := rfl
@[simp] theorem State.wake_cf (s : State) : (s.wake).cf = s.cf := rfl
@[simp] theorem State.wake_reg (s : State) (q : Reg8) : (s.wake).reg q = s.reg q := by cases q <;> rfl
@[simp] theorem State.wake_reg16 (s : State) (q : R16) : (s.wake).reg16 q = s.reg16 q := by cases q <;> rfl
@[simp] theorem State.wake_regStk (s : State) (q : R16Stk) : (s.wake).regStk q = s.regStk q := by cases q <;> rfl
@[simp] theorem State.setF_bc (s : State) (v : Byte) : (s.setF v).bc = s.bc := rfl
@[simp] theorem State.setF_de (s : State) (v : Byte) : (s.setF v).de = s.de := rfl
@[simp] theorem State.setF_hl (s : State) (v : Byte) : (s.setF v).hl = s.hl := rfl
@[simp] theorem State.setF_reg (s : State) (v : Byte) (q : Reg8) : (s.setF v).reg q = s.reg q := by cases q <;> rfl
@[simp] theorem State.setF_reg16 (s : State) (v : Byte) (q : R16) : (s.setF v).reg16 q = s.reg16 q := by cases q <;> rfl
@[simp] theorem State.setAF_bc (s : State) (p : Byte × Byte) : (s.setAF p).bc = s.bc := rfl
@[simp] theorem State.setAF_de (s : State) (p : Byte × Byte) : (s.setAF p).de = s.de := rfl
@[simp] theorem State.setAF_hl (s : State) (p : Byte × Byte) : (s.setAF p).hl = s.hl := rfl
@[simp] theorem State.setAF_reg16 (s : State) (p : Byte × Byte) (q : R16) : (s.setAF p).reg16 q = s.reg16 q := by cases q <;> rfl
@[simp] theorem State.fetched_af (s : State) : (s.fetched).af = s.af := rfl
@[simp] theorem State.fetched_bc (s : State) : (s.fetched).bc = s.bc := rfl
@[simp] theorem State.fetched_de (s : State) : (s.fetched).de = s.de := rfl
@[simp] theorem State.fetched_hl (s : State) : (s.fetched).hl = s.hl := rfl
@[simp] theorem State.fetched_zf (s : State) : (s.fetched).zf = s.zf := rfl
@[simp] theorem State.fetched_nf (s : State) : (s.fetched).nf = s.nf := rfl
@[simp] theorem State.fetched_hf (s : State) : (s.fetched).hf = s.hf := rfl
@[simp] theorem State.fetched_cf (s : State) : (s.fetched).cf = s.cf := rfl
@[simp] theorem State.fetched_reg (s : State) (q : Reg8) : (s.fetched).reg q = s.reg q := by cases q <;> rfl
@[simp] theorem State.fetched_reg16 (s : State) (q : R16) : (s.fetched).reg16 q = s.reg16 q := by cases q <;> rfl
@[simp] theorem State.fetched_regStk (s : State) (q : R16Stk) : (s.fetched).regStk q = s.regStk q := by cases q <;> rfl
@[simp] theorem State.pastImm8_af (s : State) : (s.pastImm8).af = s.af := rfl
@[simp] theorem State.pastImm8_bc (s : State) : (s.pastImm8).bc = s.bc := rfl
@[simp] theorem State.pastImm8_de (s : State) : (s.pastImm8).de = s.de := rfl
@[simp] theorem State.pastImm8_hl (s : State) : (s.pastImm8).hl = s.hl := rfl
@[simp] theorem State.pastImm8_zf (s : State) : (s.pastImm8).zf = s.zf := rfl
@[simp] theorem State.pastImm8_nf (s : State) : (s.pastImm8).nf = s.nf := rfl
@[simp] theorem State.pastImm8_hf (s : State) : (s.pastImm8).hf = s.hf := rfl
@[simp] theorem State.pastImm8_cf (s : State) : (s.pastImm8).cf = s.cf := rfl
@[simp] theorem State.pastImm8_reg (s : State) (q : Reg8) : (s.pastImm8).reg q = s.reg q := by cases q <;> rfl
@[simp] theorem State.pastImm8_reg16 (s : State) (q : R16) : (s.pastImm8).reg16 q = s.reg16 q := by cases q <;> rfl
@[simp] theorem State.pastImm8_regStk (s : State) (q : R16Stk) : (s.pastImm8).regStk q = s.regStk q := by cases q <;> rfl
@[simp] theorem State.pastImm16_af (s : State) : (s.pastImm16).af = s.af := rfl
@[simp] theorem State.pastImm16_bc (s : State) : (s.pastImm16).bc = s.bc := rfl
@[simp] theorem State.pastImm16_de (s : State) : (s.pastImm16).de = s.de := rfl
@[simp] theorem State.pastImm16_hl (s : State) : (s.pastImm16).hl = s.hl := rfl
@[simp] theorem State.pastImm16_zf (s : State) : (s.pastImm16).zf = s.zf := rfl
@[simp] theorem State.pastImm16_nf (s : State) : (s.pastImm16).nf = s.nf := rfl
@[simp] theorem State.pastImm16_hf (s : State) : (s.pastImm16).hf = s.hf := rfl
@[simp] theorem State.pastImm16_cf (s : State) : (s.pastImm16).cf = s.cf := rfl
@[simp] theorem State.pastImm16_reg (s : State) (q : Reg8) : (s.pastImm16).reg q = s.reg q := by cases q <;> rfl
@[simp] theorem State.pastImm16_reg16 (s : State) (q : R16) : (s.pastImm16).reg16 q = s.reg16 q := by cases q <;> rfl
@[simp] theorem State.pastImm16_regStk (s : State) (q : R16Stk) : (s.pastImm16).regStk q = s.regStk q := by cases q <;> rfl
@[simp] theorem State.popped_af (s : State) : (s.popped).af = s.af := rfl
@[simp] theorem State.popped_bc (s : State) : (s.popped).bc = s.bc := rfl
@[simp] theorem State.popped_de (s : State) : (s.popped).de = s.de := rfl
@[simp] theorem State.popped_hl (s : State) : (s.popped).hl = s.hl := rfl
@[simp] theorem State.popped_zf (s : State) : (s.popped).zf = s.zf := rfl
@[simp] theorem State.popped_nf (s : State) : (s.popped).nf = s.nf := rfl
@[simp] theorem State.popped_hf (s : State) : (s.popped).hf = s.hf := rfl
@[simp] theorem State.popped_cf (s : State) : (s.popped).cf = s.cf := rfl
@[simp] theorem State.popped_reg (s : State) (q : Reg8) : (s.popped).reg q = s.reg q := by cases q <;> rfl
@[simp] theorem State.popped_regStk (s : State) (q : R16Stk) : (s.popped).regStk q = s.regStk q := by cases q <;> rfl
@[simp] theorem State.pushed_af (s : State) (w : Word) : (s.pushed w).af = s.af := rfl
@[simp] theorem State.pushed_bc (s : State) (w : Word) : (s.pushed w).bc = s.bc := rfl
@[simp] theorem State.pushed_de (s : State) (w : Word) : (s.pushed w).de = s.de := rfl
@[simp] theorem State.pushed_hl (s : State) (w : Word) : (s.pushed w).hl = s.hl := rfl
@[simp] theorem State.pushed_zf (s : State) (w : Word) : (s.pushed w).zf = s.zf := rfl
@[simp] theorem State.pushed_nf (s : State) (w : Word) : (s.pushed w).nf = s.nf := rfl
@[simp] theorem State.pushed_hf (s : State) (w : Word) : (s.pushed w).hf = s.hf := rfl
@[simp] theorem State.pushed_cf (s : State) (w : Word) : (s.pushed w).cf = s.cf := rfl
@[simp] theorem State.pushed_reg (s : State) (w : Word) (q : Reg8) : (s.pushed w).reg q = s.reg q := by cases q <;> rfl
@[simp] theorem State.pushed_regStk (s : State) (w : Word) (q : R16Stk) : (s.pushed w).regStk q = s.regStk q := by cases q <;> rfl
@[simp] theorem State.irqRead_af (s : State) : (s.irqRead).af = s.af := rfl
@[simp] theorem State.irqRead_bc (s : State) : (s.irqRead).bc = s.bc := rfl
@[simp] theorem State.irqRead_de (s : State) : (s.irqRead).de = s.de := rfl
@[simp] theorem State.irqRead_hl (s : State) : (s.irqRead).hl = s.hl := rfl
@[simp] theorem State.irqRead_zf (s : State) : (s.irqRead).zf = s.zf := rfl
@[simp] theorem State.irqRead_nf (s : State) : (s.irqRead).nf = s.nf := rfl
@[simp] theorem State.irqRead_hf (s : State) : (s.irqRead).hf = s.hf := rfl
@[simp] theorem State.irqRead_cf (s : State) : (s.irqRead).cf = s.cf := rfl
@[simp] theorem State.irqRead_reg (s : State) (q : Reg8) : (s.irqRead).reg q = s.reg q := by cases q <;> rfl
@[simp] theorem State.irqRead_reg16 (s : State) (q : R16) : (s.irqRead).reg16 q = s.reg16 q := by cases q <;> rfl
@[simp] theorem State.irqRead_regStk (s : State) (q : R16Stk) : (s.irqRead).regStk q = s.regStk q := by cases q <;> rfl

end Sys2Proof.Machine
end

