-- ==== Sys2Proof/Laws/Words.lean ====
section
/-! SUPPORT. Bytes and words: the halves of a word, concatenation, the high page, the two-byte steps of `PC` and `SP`. -/

namespace Sys2Proof.Machine

theorem word_toNat (hi lo : Byte) : (word hi lo).toNat = hi.toNat * 256 + lo.toNat := by
  have h : (word hi lo).toNat = hi.toNat <<< 8 ||| lo.toNat := BitVec.toNat_append hi lo
  rw [h, ← Nat.shiftLeft_add_eq_or_of_lt lo.isLt, Nat.shiftLeft_eq]

theorem hiByte_toNat (w : Word) : (hiByte w).toNat = w.toNat / 256 := by
  have := w.isLt
  simp [hiByte, Nat.shiftRight_eq_div_pow]; omega

theorem loByte_toNat (w : Word) : (loByte w).toNat = w.toNat % 256 := by simp [loByte]

@[simp] theorem hiByte_word (hi lo : Byte) : hiByte (word hi lo) = hi := by
  apply BitVec.eq_of_toNat_eq; have := lo.isLt; rw [hiByte_toNat, word_toNat]; omega

@[simp] theorem loByte_word (hi lo : Byte) : loByte (word hi lo) = lo := by
  apply BitVec.eq_of_toNat_eq; have := lo.isLt; rw [loByte_toNat, word_toNat]; omega

@[simp] theorem word_hiByte_loByte (w : Word) : word (hiByte w) (loByte w) = w := by
  apply BitVec.eq_of_toNat_eq; rw [word_toNat, hiByte_toNat, loByte_toNat]; omega

/-- The high page as a concatenation (R71). -/
theorem highPage_eq (x : Byte) : highPage x = word 0xFF#8 x := by
  apply BitVec.eq_of_toNat_eq; have := x.isLt
  rw [word_toNat, highPage, zext16, BitVec.toNat_add, BitVec.toNat_setWidth]
  have h : (0xFF00 : Word).toNat = 65280 := rfl
  have h' : (0xFF#8).toNat = 255 := rfl
  omega

/-- The two spellings of a 16-bit concatenation. -/
theorem append_eq_word (hi lo : Byte) : (hi ++ lo : Word) = word hi lo := rfl

theorem add_one_add_one (w : Word) : w + 1 + 1 = w + 2 := by bv_omega

theorem sub_one_sub_one (w : Word) : w - 1 - 1 = w - 2 := by bv_omega

end Sys2Proof.Machine
end

