-- ==== Sys2Proof/Laws/Ops.lean ====
section
/-! SUPPORT. For each shared operation, everything it can do, said once: what it is on a bus that answers, the error where the bus
does not, and the inversion of a next state. -/

namespace Sys2Proof.Machine

/-! ### The bus -/

@[simp] theorem busRead_claimed {x : Word} {s : State} {k} (h : s.canRead x = true) :
    busRead x s k = k (s.byteAt x) (s.afterRead x) := by simp [busRead, h]

@[simp] theorem busRead_unclaimed {x : Word} {s : State} {k} (h : s.canRead x = false) :
    busRead x s k = .fault (.outOfRange x .read) := by simp [busRead, h]

theorem busRead_eq_next {x : Word} {s t : State} {k} : busRead x s k = .next t ↔
    s.canRead x = true ∧ k (s.byteAt x) (s.afterRead x) = .next t := by
  cases h : s.canRead x <;> simp [h]

@[simp] theorem busWrite_claimed {x : Word} {v : Byte} {s : State} {k} (h : s.canWrite x v = true) :
    busWrite x v s k = k (s.afterWrite x v) := by simp [busWrite, h]

@[simp] theorem busWrite_unclaimed {x : Word} {v : Byte} {s : State} {k} (h : s.canWrite x v = false) :
    busWrite x v s k = .fault (.outOfRange x .write) := by simp [busWrite, h]

theorem busWrite_eq_next {x : Word} {v : Byte} {s t : State} {k} : busWrite x v s k = .next t ↔
    s.canWrite x v = true ∧ k (s.afterWrite x v) = .next t := by
  cases h : s.canWrite x v <;> simp [h]

theorem finish_eq_next {n : Nat} {s t : State} : finish n s = .next t ↔ t = s.charge n := by
  simp [finish, eq_comm]

/-! ### Operand bytes -/

theorem State.afterRead_advancePc (s : State) : (s.afterRead s.pc).advancePc = s.pastImm8 := rfl

theorem State.pastImm8_pastImm8 (s : State) : ((s.pastImm8.afterRead (s.pc + 1)).advancePc) = s.pastImm16 := by
  simp only [State.pastImm8, State.pastImm16, State.advancePc, State.afterRead, ← add_one_add_one]; rfl

theorem imm8_claimed {s : State} {k} (h : s.canRead s.pc = true) : imm8 s k = k (s.byteAt s.pc) s.pastImm8 := by
  simp [imm8, h, State.afterRead_advancePc]

theorem imm8_unclaimed {s : State} {k} (h : s.canRead s.pc = false) : imm8 s k = .fault (.outOfRange s.pc .read) := by
  simp [imm8, h]

theorem imm8_eq_next {s t : State} {k} : imm8 s k = .next t ↔
    s.canRead s.pc = true ∧ k (s.byteAt s.pc) s.pastImm8 = .next t := by
  rw [imm8, busRead_eq_next, State.afterRead_advancePc]

theorem imm16_eq_imm8 (s : State) (k) : imm16 s k = imm8 s fun lo s' => imm8 s' fun hi s'' => k (word hi lo) s'' := rfl

theorem imm16_claimed {s : State} {k} (h : s.Operands16) : imm16 s k = k s.operand16 s.pastImm16 := by
  have h2 : s.pastImm8.canRead s.pastImm8.pc = true := h.2
  rw [imm16_eq_imm8, imm8_claimed h.1, imm8, busRead_claimed h2, State.pastImm8_pc, State.pastImm8_pastImm8]; rfl

theorem imm16_fails_first {s : State} {k} (h : s.canRead s.pc = false) : imm16 s k = .fault (.outOfRange s.pc .read) := by
  rw [imm16_eq_imm8, imm8_unclaimed h]

theorem imm16_fails_second {s : State} {k} (h : s.canRead s.pc = true) (h' : (s.afterRead s.pc).canRead (s.pc + 1) = false) :
    imm16 s k = .fault (.outOfRange (s.pc + 1) .read) := by
  have h2 : s.pastImm8.canRead s.pastImm8.pc = false := h'
  rw [imm16_eq_imm8, imm8_claimed h, imm8_unclaimed h2, State.pastImm8_pc]

theorem imm16_eq_next {s t : State} {k} : imm16 s k = .next t ↔ s.Operands16 ∧ k s.operand16 s.pastImm16 = .next t := by
  rcases h1 : s.canRead s.pc with _ | _
  · simp only [imm16_fails_first h1, State.Operands16, h1, reduceCtorEq, Bool.false_eq_true, false_and]
  · rcases h2 : (s.afterRead s.pc).canRead (s.pc + 1) with _ | _
    · simp only [imm16_fails_second h1 h2, State.Operands16, h2, reduceCtorEq, Bool.false_eq_true, and_false, false_and]
    · simp only [imm16_claimed ⟨h1, h2⟩, State.Operands16, h1, h2, true_and]

/-! ### The stack -/

theorem push16_writable {w : Word} {s : State} {k} (h : s.StackWritable w) : push16 w s k = k (s.pushed w) := by
  have h1 : (s.setSp (s.sp - 1)).canWrite (s.sp - 1) (hiByte w) = true := h.1
  have h2 : (((s.setSp (s.sp - 1)).afterWrite (s.sp - 1) (hiByte w)).setSp (s.sp - 2)).canWrite (s.sp - 2) (loByte w) = true := h.2
  simp only [push16, busWrite_claimed h1, State.afterWrite_sp, State.setSp_sp, sub_one_sub_one, busWrite_claimed h2]; rfl

theorem push16_fails_first {w : Word} {s : State} {k} (h : s.canWrite (s.sp - 1) (hiByte w) = false) :
    push16 w s k = .fault (.outOfRange (s.sp - 1) .write) := by
  have h1 : (s.setSp (s.sp - 1)).canWrite (s.sp - 1) (hiByte w) = false := h
  simp only [push16, busWrite_unclaimed h1]

theorem push16_fails_second {w : Word} {s : State} {k} (h : s.canWrite (s.sp - 1) (hiByte w) = true)
    (h' : (s.afterWrite (s.sp - 1) (hiByte w)).canWrite (s.sp - 2) (loByte w) = false) :
    push16 w s k = .fault (.outOfRange (s.sp - 2) .write) := by
  have h1 : (s.setSp (s.sp - 1)).canWrite (s.sp - 1) (hiByte w) = true := h
  have h2 : (((s.setSp (s.sp - 1)).afterWrite (s.sp - 1) (hiByte w)).setSp (s.sp - 2)).canWrite (s.sp - 2) (loByte w) = false :=
    h'
  simp only [push16, busWrite_claimed h1, State.afterWrite_sp, State.setSp_sp, sub_one_sub_one, busWrite_unclaimed h2]

theorem push16_eq_next {w : Word} {s t : State} {k} : push16 w s k = .next t ↔ s.StackWritable w ∧ k (s.pushed w) = .next t := by
  rcases h1 : s.canWrite (s.sp - 1) (hiByte w) with _ | _
  · simp only [push16_fails_first h1, State.StackWritable, h1, reduceCtorEq, Bool.false_eq_true, false_and]
  · rcases h2 : (s.afterWrite (s.sp - 1) (hiByte w)).canWrite (s.sp - 2) (loByte w) with _ | _
    · simp only [push16_fails_second h1 h2, State.StackWritable, h2, reduceCtorEq, Bool.false_eq_true, and_false, false_and]
    · simp only [push16_writable ⟨h1, h2⟩, State.StackWritable, h1, h2, true_and]

theorem pop16_readable {s : State} {k} (h : s.StackReadable) : pop16 s k = k s.stackTop s.popped := by
  simp only [pop16, busRead_claimed h.1, State.afterRead_sp, busRead_claimed h.2]; rfl

theorem pop16_fails_first {s : State} {k} (h : s.canRead s.sp = false) : pop16 s k = .fault (.outOfRange s.sp .read) := by
  simp only [pop16, busRead_unclaimed h]

theorem pop16_fails_second {s : State} {k} (h : s.canRead s.sp = true) (h' : (s.afterRead s.sp).canRead (s.sp + 1) = false) :
    pop16 s k = .fault (.outOfRange (s.sp + 1) .read) := by
  simp only [pop16, busRead_claimed h, State.afterRead_sp, busRead_unclaimed h']

theorem pop16_eq_next {s t : State} {k} : pop16 s k = .next t ↔ s.StackReadable ∧ k s.stackTop s.popped = .next t := by
  rcases h1 : s.canRead s.sp with _ | _
  · simp only [pop16_fails_first h1, State.StackReadable, h1, reduceCtorEq, Bool.false_eq_true, false_and]
  · rcases h2 : (s.afterRead s.sp).canRead (s.sp + 1) with _ | _
    · simp only [pop16_fails_second h1 h2, State.StackReadable, h2, reduceCtorEq, Bool.false_eq_true, and_false, false_and]
    · simp only [pop16_readable ⟨h1, h2⟩, State.StackReadable, h1, h2, true_and]

/-! ### Interrupts -/

theorem readIrqRegs_claimed {s : State} {k} (h : s.IrqReadable) :
    readIrqRegs s k = k (s.byteAt 0xFFFF) s.ifRead s.irqRead := by
  simp only [readIrqRegs, readIrqRegsIn, Config.irqReadOrder, ieAddr, ifAddr, busRead_claimed h.1, busRead_claimed h.2]; rfl

theorem readIrqRegs_fails_first {s : State} {k} (h : s.canRead 0xFFFF = false) :
    readIrqRegs s k = .fault (.outOfRange 0xFFFF .read) := by
  simp only [readIrqRegs, readIrqRegsIn, Config.irqReadOrder, ieAddr, busRead_unclaimed h]

theorem readIrqRegs_fails_second {s : State} {k} (h : s.canRead 0xFFFF = true) (h' : (s.afterRead 0xFFFF).canRead 0xFF0F = false) :
    readIrqRegs s k = .fault (.outOfRange 0xFF0F .read) := by
  simp only [readIrqRegs, readIrqRegsIn, Config.irqReadOrder, ieAddr, ifAddr, busRead_claimed h, busRead_unclaimed h']

theorem readIrqRegs_eq_next {s t : State} {k} : readIrqRegs s k = .next t ↔
    s.IrqReadable ∧ k (s.byteAt 0xFFFF) s.ifRead s.irqRead = .next t := by
  rcases h1 : s.canRead 0xFFFF with _ | _
  · simp only [readIrqRegs_fails_first h1, State.IrqReadable, h1, reduceCtorEq, Bool.false_eq_true, false_and]
  · rcases h2 : (s.afterRead 0xFFFF).canRead 0xFF0F with _ | _
    · simp only [readIrqRegs_fails_second h1 h2, State.IrqReadable, h2, reduceCtorEq, Bool.false_eq_true, and_false, false_and]
    · simp only [readIrqRegs_claimed ⟨h1, h2⟩, State.IrqReadable, h1, h2, true_and]

/-- The dispatch on a bus that takes its three writes. -/
theorem takeInterrupt_writable {iff v : Byte} {s : State} (h : s.canWrite 0xFF0F (clearRequest iff (lowestBit v)) = true)
    (h' : (s.afterWrite 0xFF0F (clearRequest iff (lowestBit v))).StackWritable s.pc) :
    takeInterrupt iff v s = .next ({ (s.afterWrite 0xFF0F (clearRequest iff (lowestBit v))).pushed s.pc with
      pc := vectorOf (lowestBit v), ime := false }.charge 5) := by
  have h1 : s.canWrite ifAddr (clearRequest iff (lowestBit v)) = true := h
  rw [takeInterrupt, busWrite_claimed h1]
  exact push16_writable h'

theorem takeInterrupt_eq_next {iff v : Byte} {s t : State} : takeInterrupt iff v s = .next t ↔
    s.canWrite 0xFF0F (clearRequest iff (lowestBit v)) = true ∧
      (s.afterWrite 0xFF0F (clearRequest iff (lowestBit v))).StackWritable s.pc ∧
      t = { (s.afterWrite 0xFF0F (clearRequest iff (lowestBit v))).pushed s.pc with
        pc := vectorOf (lowestBit v), ime := false }.charge 5 := by
  rw [takeInterrupt, busWrite_eq_next, push16_eq_next, finish_eq_next]; exact Iff.rfl

theorem returnFromInterrupt_readable {s : State} (h : s.StackReadable) :
    returnFromInterrupt s = .next ({ s.popped with pc := s.stackTop, ime := true }.charge 4) := by
  rw [returnFromInterrupt, pop16_readable h]; rfl

theorem returnFromInterrupt_eq_next {s t : State} : returnFromInterrupt s = .next t ↔
    s.StackReadable ∧ t = { s.popped with pc := s.stackTop, ime := true }.charge 4 := by
  rw [returnFromInterrupt, pop16_eq_next, finish_eq_next]

/-! ### What other agents do leaves the CORE alone (R75) -/

/-- The parts of the state no other agent reaches: the state with the bus, its record and the queue blanked. -/
def State.cpu (s : State) : State := { s with mem := [], device := 0, claims := [], env := [], busLog := [] }

theorem State.cpu_foldl_onEvent (es : List BusEvent) (s : State) : (es.foldl State.onEvent s).cpu = s.cpu := by
  induction es generalizing s with
  | nil => rfl
  | cons e es ih => rw [List.foldl_cons, ih]; cases e <;> rfl

theorem State.cpu_begun (s : State) : s.begun.cpu = s.cpu := by
  show s.environment.cpu = s.cpu
  unfold State.environment
  split
  · rfl
  · exact State.cpu_foldl_onEvent _ _

@[simp] theorem State.begun_a (s : State) : s.begun.a = s.a := by have h := congrArg State.a s.cpu_begun; exact h
@[simp] theorem State.begun_f (s : State) : s.begun.f = s.f := by have h := congrArg State.f s.cpu_begun; exact h
@[simp] theorem State.begun_b (s : State) : s.begun.b = s.b := by have h := congrArg State.b s.cpu_begun; exact h
@[simp] theorem State.begun_c (s : State) : s.begun.c = s.c := by have h := congrArg State.c s.cpu_begun; exact h
@[simp] theorem State.begun_d (s : State) : s.begun.d = s.d := by have h := congrArg State.d s.cpu_begun; exact h
@[simp] theorem State.begun_e (s : State) : s.begun.e = s.e := by have h := congrArg State.e s.cpu_begun; exact h
@[simp] theorem State.begun_h (s : State) : s.begun.h = s.h := by have h := congrArg State.h s.cpu_begun; exact h
@[simp] theorem State.begun_l (s : State) : s.begun.l = s.l := by have h := congrArg State.l s.cpu_begun; exact h
@[simp] theorem State.begun_sp (s : State) : s.begun.sp = s.sp := by have h := congrArg State.sp s.cpu_begun; exact h
@[simp] theorem State.begun_pc (s : State) : s.begun.pc = s.pc := by have h := congrArg State.pc s.cpu_begun; exact h
@[simp] theorem State.begun_halted (s : State) : s.begun.halted = s.halted := by have h := congrArg State.halted s.cpu_begun; exact h
@[simp] theorem State.begun_ime (s : State) : s.begun.ime = s.ime := by have h := congrArg State.ime s.cpu_begun; exact h
@[simp] theorem State.begun_deferredEnable (s : State) : s.begun.deferredEnable = s.deferredEnable := by have h := congrArg State.deferredEnable s.cpu_begun; exact h
@[simp] theorem State.begun_haltBugArmed (s : State) : s.begun.haltBugArmed = s.haltBugArmed := by have h := congrArg State.haltBugArmed s.cpu_begun; exact h
@[simp] theorem State.begun_ticks (s : State) : s.begun.ticks = s.ticks := by have h := congrArg State.ticks s.cpu_begun; exact h
@[simp] theorem State.begun_fault (s : State) : s.begun.fault = s.fault := by have h := congrArg State.fault s.cpu_begun; exact h
@[simp] theorem State.begun_opAddr (s : State) : s.begun.opAddr = s.opAddr := by have h := congrArg State.opAddr s.cpu_begun; exact h

@[simp] theorem State.begun_busLog (s : State) : s.begun.busLog = [] := rfl

theorem State.begun_of_env_nil {s : State} (h : s.env = []) : s.begun = { s with busLog := [] } := by
  simp only [State.begun, State.environment, h]

/-! ### The step -/

theorem fetchExecute_claimed {run} {s : State} (h : s.canRead s.pc = true) :
    fetchExecute run s = run (decodeOpcode (s.byteAt s.pc)) (s.afterRead s.pc).fetched := by
  rw [fetchExecute, busRead_claimed h]

theorem fetchExecute_unclaimed {run} {s : State} (h : s.canRead s.pc = false) :
    fetchExecute run s = .fault (.outOfRange s.pc .read) := by
  rw [fetchExecute, busRead_unclaimed h]

theorem fetchExecute_eq_next {run} {s t : State} : fetchExecute run s = .next t ↔
    s.canRead s.pc = true ∧ run (decodeOpcode (s.byteAt s.pc)) (s.afterRead s.pc).fetched = .next t := by
  rw [fetchExecute, busRead_eq_next]

theorem State.wake_running {s : State} (h : s.halted = false) : s.wake = s := by
  cases s; cases h; rfl

/-- What the interrupt and halt decision does, case by case (R337, R338). -/
theorem afterIrqRead_cases (run) (ie iff : Byte) (s : State) :
    (s.halted = true ∧ pendingOf ie iff = 0 ∧ afterIrqRead run ie iff s = finish 1 s) ∨
    (pendingOf ie iff ≠ 0 ∧ s.ime = true ∧ afterIrqRead run ie iff s = takeInterrupt iff (pendingOf ie iff) s.wake) ∨
    ((pendingOf ie iff = 0 ∧ s.halted = false ∨ pendingOf ie iff ≠ 0 ∧ s.ime = false) ∧
      afterIrqRead run ie iff s = fetchExecute run s.wake) := by
  unfold afterIrqRead
  rcases hh : s.halted with _ | _ <;> by_cases hv : pendingOf ie iff = 0#8 <;> rcases hi : s.ime with _ | _ <;>
    simp [hv, State.wake_running, hh]

theorem State.pending_eq (s : State) : s.pending = pendingOf (s.byteAt 0xFFFF) s.ifRead := rfl

/-- The step of a machine that is not faulted, once `IE` and `IF` answer. -/
theorem step_claimed {s : State} (hf : s.fault = none) (h : s.begun.IrqReadable) :
    step s = afterIrqRead exec (s.begun.byteAt 0xFFFF) s.begun.ifRead s.begun.irqRead := by
  simp only [step, engine, hf, stepBody, readIrqRegs_claimed h]

/-- A step in which no dispatch and no idling is due fetches and executes. -/
theorem step_fetches {s : State} (hf : s.fault = none) (h : s.begun.IrqReadable)
    (hp : s.begun.pending = 0 ∧ s.halted = false ∨ s.begun.pending ≠ 0 ∧ s.ime = false) :
    step s = fetchExecute exec s.begun.irqRead.wake := by
  rw [step_claimed hf h]
  rcases afterIrqRead_cases exec (s.begun.byteAt 0xFFFF) s.begun.ifRead s.begun.irqRead
    with ⟨h1, h2, -⟩ | ⟨h1, h2, -⟩ | ⟨-, h3⟩
  · rw [State.irqRead_halted, State.begun_halted] at h1
    rcases hp with ⟨-, hh⟩ | ⟨hp, -⟩
    · rw [hh] at h1; cases h1
    · exact absurd h2 hp
  · rw [State.irqRead_ime, State.begun_ime] at h2
    rcases hp with ⟨hp, -⟩ | ⟨-, hi⟩
    · exact absurd hp h1
    · rw [hi] at h2; cases h2
  · exact h3

/-- A step in which a dispatch is due is that dispatch. -/
theorem step_dispatches {s : State} (hf : s.fault = none) (h : s.begun.IrqReadable) (hp : s.begun.pending ≠ 0)
    (hi : s.ime = true) : step s = takeInterrupt s.begun.ifRead s.begun.pending s.begun.irqRead.wake := by
  rw [step_claimed hf h]
  rcases afterIrqRead_cases exec (s.begun.byteAt 0xFFFF) s.begun.ifRead s.begun.irqRead
    with ⟨-, h2, -⟩ | ⟨-, -, h3⟩ | ⟨⟨h1, -⟩ | ⟨-, h2⟩, -⟩
  · exact absurd h2 hp
  · exact h3
  · exact absurd h1 hp
  · rw [State.irqRead_ime, State.begun_ime, hi] at h2; cases h2

/-- An idle Halted step. -/
theorem step_idles {s : State} (hf : s.fault = none) (h : s.begun.IrqReadable) (hp : s.begun.pending = 0)
    (hh : s.halted = true) : step s = .next (s.begun.irqRead.charge 1) := by
  rw [step_claimed hf h]
  rcases afterIrqRead_cases exec (s.begun.byteAt 0xFFFF) s.begun.ifRead s.begun.irqRead
    with ⟨-, -, h3⟩ | ⟨h1, -, -⟩ | ⟨⟨-, h1⟩ | ⟨h1, -⟩, -⟩
  · exact h3
  · exact absurd hp h1
  · rw [State.irqRead_halted, State.begun_halted, hh] at h1; cases h1
  · exact absurd hp h1

/-- Everything a completed step can do: idle, dispatch, or run the instruction at `PC`. -/
theorem step_eq_next {s t : State} (h : step s = .next t) : s.fault = none ∧ s.begun.IrqReadable ∧
    (s.begun.halted = true ∧ s.begun.pending = 0 ∧ t = s.begun.irqRead.charge 1 ∨
     s.begun.pending ≠ 0 ∧ s.begun.ime = true ∧
       takeInterrupt s.begun.ifRead s.begun.pending s.begun.irqRead.wake = .next t ∨
     (s.begun.pending = 0 ∧ s.begun.halted = false ∨ s.begun.pending ≠ 0 ∧ s.begun.ime = false) ∧
       s.begun.irqRead.canRead s.begun.pc = true ∧
       exec (decodeOpcode (s.begun.irqRead.byteAt s.begun.pc)) (s.begun.irqRead.wake.afterRead s.begun.pc).fetched = .next t) := by
  have hf : s.fault = none := by
    rcases hf : s.fault with _ | e
    · rfl
    · simp only [step, engine, hf, reduceCtorEq] at h
  have h0 := h
  simp only [step, engine, hf, stepBody] at h0
  obtain ⟨hc, -⟩ := readIrqRegs_eq_next.1 h0
  rw [step_claimed hf hc] at h
  refine ⟨hf, hc, ?_⟩
  rw [State.pending_eq]
  rcases afterIrqRead_cases exec (s.begun.byteAt 0xFFFF) s.begun.ifRead s.begun.irqRead
    with ⟨h1, h2, h3⟩ | ⟨h1, h2, h3⟩ | ⟨h1, h3⟩ <;> rw [h3] at h
  · exact .inl ⟨h1, h2, finish_eq_next.1 h⟩
  · exact .inr (.inl ⟨h1, h2, h⟩)
  · obtain ⟨hr, h⟩ := fetchExecute_eq_next.1 h
    exact .inr (.inr ⟨h1, hr, h⟩)

end Sys2Proof.Machine
end

