-- ==== Sys2Proof/Laws/Bus.lean ====
section
/-! SUPPORT. What a sequence of bus operations leaves of the bus: `Did s ops t` says that the bus of `t` is the bus of `s` after
exactly the operations `ops`, in order; each shared operation has the one it makes, and they compose. -/

namespace Sys2Proof.Machine

/-- Two states with the same bus: plain memory, the bus's own state, what is claimed, and the record. -/
structure SameBus (s t : State) : Prop where
  mem : s.mem = t.mem
  device : s.device = t.device
  claims : s.claims = t.claims
  busLog : s.busLog = t.busLog

namespace SameBus

theorem refl (s : State) : SameBus s s := ⟨rfl, rfl, rfl, rfl⟩

theorem trans {s t u : State} (h : SameBus s t) (h' : SameBus t u) : SameBus s u :=
  ⟨h.mem.trans h'.mem, h.device.trans h'.device, h.claims.trans h'.claims, h.busLog.trans h'.busLog⟩

theorem readAnswer {s t : State} (h : SameBus s t) (x : Word) : s.readAnswer x = t.readAnswer x := by
  simp only [State.readAnswer, State.readRule, State.memAt, h.mem, h.device, h.claims]

theorem writeAnswer {s t : State} (h : SameBus s t) (x : Word) (v : Byte) : s.writeAnswer x v = t.writeAnswer x v := by
  simp only [State.writeAnswer, State.writeRule, h.mem, h.device, h.claims]

/-- An operation of the CORE depends on the bus alone. -/
theorem perform {s t : State} (h : SameBus s t) (op : BusOp) : SameBus (s.perform op) (t.perform op) := by
  cases op with
  | read x _ =>
    refine ⟨h.mem, ?_, h.claims, ?_⟩ <;>
      simp only [State.perform, State.afterRead_device, State.afterRead_busLog, State.byteAt, h.readAnswer, h.device, h.busLog]
  | write x v =>
    refine ⟨?_, ?_, h.claims, ?_⟩ <;>
      simp only [State.perform, State.afterWrite_mem, State.afterWrite_device, State.afterWrite_busLog, h.writeAnswer, h.mem,
        h.device, h.busLog]

theorem foldl {s t : State} (h : SameBus s t) (ops : List BusOp) :
    SameBus (ops.foldl State.perform s) (ops.foldl State.perform t) := by
  induction ops generalizing s t with
  | nil => exact h
  | cons op ops ih => exact ih (h.perform op)

end SameBus

/-- The bus of `t` is that of `s` after the operations `ops`, and they are recorded. -/
structure Did (s : State) (ops : List BusOp) (t : State) : Prop where
  bus : SameBus t (ops.foldl State.perform s)
  log : t.busLog = ops.reverse ++ s.busLog

namespace Did

theorem none (s : State) : Did s [] s := ⟨.refl s, rfl⟩

theorem trans {s t u : State} {ops ops' : List BusOp} (h : Did s ops t) (h' : Did t ops' u) : Did s (ops ++ ops') u := by
  refine ⟨?_, by rw [h'.log, h.log, List.reverse_append, List.append_assoc]⟩
  rw [List.foldl_append]; exact h'.bus.trans (h.bus.foldl ops')

/-- Only the bus counts. -/
theorem congr {s t u : State} {ops : List BusOp} (h : Did s ops t) (h' : SameBus u t) : Did s ops u :=
  ⟨h'.trans h.bus, h'.busLog.trans h.log⟩

theorem read (s : State) (x : Word) : Did s [.read x (s.byteAt x)] (s.afterRead x) := ⟨.refl _, rfl⟩

theorem write (s : State) (x : Word) (v : Byte) : Did s [.write x v] (s.afterWrite x v) := ⟨.refl _, rfl⟩

theorem imm8 (s : State) : Did s [.read s.pc (s.byteAt s.pc)] s.pastImm8 := (read s s.pc).congr ⟨rfl, rfl, rfl, rfl⟩

theorem imm16 (s : State) : Did s [.read s.pc (s.byteAt s.pc), .read (s.pc + 1) ((s.afterRead s.pc).byteAt (s.pc + 1))] s.pastImm16 :=
  ((read s s.pc).trans (read _ (s.pc + 1))).congr ⟨rfl, rfl, rfl, rfl⟩

theorem push (s : State) (w : Word) : Did s [.write (s.sp - 1) (hiByte w), .write (s.sp - 2) (loByte w)] (s.pushed w) :=
  ((write s (s.sp - 1) (hiByte w)).trans (write _ (s.sp - 2) (loByte w))).congr ⟨rfl, rfl, rfl, rfl⟩

theorem pop (s : State) : Did s [.read s.sp (s.byteAt s.sp), .read (s.sp + 1) ((s.afterRead s.sp).byteAt (s.sp + 1))] s.popped :=
  ((read s s.sp).trans (read _ (s.sp + 1))).congr ⟨rfl, rfl, rfl, rfl⟩

theorem irqReads (s : State) : Did s [.read 0xFFFF (s.byteAt 0xFFFF), .read 0xFF0F s.ifRead] s.irqRead :=
  ((read s 0xFFFF).trans (read _ 0xFF0F)).congr ⟨rfl, rfl, rfl, rfl⟩

end Did

end Sys2Proof.Machine
end

