-- ==== Sys2Proof/Laws/Exec.lean ====
section
/-! SUPPORT. What each operation shared by several meanings leaves when it completes, and the prefix row as `exec` of the
instruction its second byte selects. With Laws/Ops.lean these invert `exec i s = .next t` for every constructor by rewriting. -/

namespace Sys2Proof.Machine

theorem raiseInvalidOpcode_eq_next {op : Byte} {s t : State} : raiseInvalidOpcode op s = .next t ↔ False := by
  simp [raiseInvalidOpcode]

/-- A meaning that chooses by a flag or a condition. -/
theorem ite_eq_next {c : Bool} {x y : Result} {t : State} :
    (if c then x else y) = .next t ↔ c = true ∧ x = .next t ∨ c = false ∧ y = .next t := by cases c <;> simp

theorem loadA_eq_next {x : Word} {s t : State} {k} : loadA x s k = .next t ↔
    s.canRead x = true ∧ k { s.afterRead x with a := s.byteAt x } = .next t := by
  rw [loadA, busRead_eq_next]

theorem aluReg_eq_next {op : Byte → State → State} {r : Reg8} {s t : State} :
    aluReg op r s = .next t ↔ t = (op (s.reg r) s).charge 1 := finish_eq_next

theorem aluHl_eq_next {op : Byte → State → State} {s t : State} : aluHl op s = .next t ↔
    s.canRead s.hl = true ∧ t = (op (s.byteAt s.hl) (s.afterRead s.hl)).charge 2 := by
  rw [aluHl, busRead_eq_next, finish_eq_next]

theorem aluImm_eq_next {op : Byte → State → State} {s t : State} : aluImm op s = .next t ↔
    s.canRead s.pc = true ∧ t = (op (s.byteAt s.pc) s.pastImm8).charge 2 := by
  rw [aluImm, imm8_eq_next, finish_eq_next]

theorem stepReg_eq_next {op : Byte → Bool → Byte × Byte} {r : Reg8} {s t : State} : stepReg op r s = .next t ↔
    t = ((s.setF (op (s.reg r) s.cf).2).setReg r (op (s.reg r) s.cf).1).charge 1 := finish_eq_next

theorem stepHl_eq_next {op : Byte → Bool → Byte × Byte} {s t : State} : stepHl op s = .next t ↔
    s.canRead s.hl = true ∧ (s.afterRead s.hl).canWrite s.hl (op (s.byteAt s.hl) s.cf).1 = true ∧
      t = (((s.afterRead s.hl).afterWrite s.hl (op (s.byteAt s.hl) s.cf).1).setF (op (s.byteAt s.hl) s.cf).2).charge 3 := by
  rw [stepHl, busRead_eq_next, busWrite_eq_next, finish_eq_next]; exact Iff.rfl

theorem rotAcc_eq_next {op : Byte → Bool → Byte × Bool} {s t : State} : rotAcc op s = .next t ↔
    t = ({ s with a := (op s.a s.cf).1, f := accRotFlags (op s.a s.cf) } : State).charge 1 := finish_eq_next

theorem rotReg_eq_next {op : Byte → Bool → Byte × Bool} {r : Reg8} {s t : State} : rotReg op r s = .next t ↔
    t = ((s.setF (rotFlags (op (s.reg r) s.cf))).setReg r (op (s.reg r) s.cf).1).charge 2 := finish_eq_next

theorem rotHl_eq_next {op : Byte → Bool → Byte × Bool} {s t : State} : rotHl op s = .next t ↔
    s.canRead s.hl = true ∧ (s.afterRead s.hl).canWrite s.hl (op (s.byteAt s.hl) s.cf).1 = true ∧
      t = (((s.afterRead s.hl).afterWrite s.hl (op (s.byteAt s.hl) s.cf).1).setF (rotFlags (op (s.byteAt s.hl) s.cf))).charge 4 := by
  rw [rotHl, busRead_eq_next, busWrite_eq_next, finish_eq_next]; exact Iff.rfl

theorem bitOpReg_eq_next {op : Byte → Byte} {r : Reg8} {s t : State} :
    bitOpReg op r s = .next t ↔ t = (s.setReg r (op (s.reg r))).charge 2 := finish_eq_next

theorem bitOpHl_eq_next {op : Byte → Byte} {s t : State} : bitOpHl op s = .next t ↔
    s.canRead s.hl = true ∧ (s.afterRead s.hl).canWrite s.hl (op (s.byteAt s.hl)) = true ∧
      t = ((s.afterRead s.hl).afterWrite s.hl (op (s.byteAt s.hl))).charge 4 := by
  rw [bitOpHl, busRead_eq_next, busWrite_eq_next, finish_eq_next]; exact Iff.rfl

theorem callTo_eq_next {x : Word} {n : Nat} {s t : State} : callTo x n s = .next t ↔
    s.StackWritable s.pc ∧ t = ((s.pushed s.pc).jump x).charge n := by
  rw [callTo, push16_eq_next, finish_eq_next]

theorem returnWith_eq_next {n : Nat} {s t : State} : returnWith n s = .next t ↔
    s.StackReadable ∧ t = (s.popped.jump s.stackTop).charge n := by
  rw [returnWith, pop16_eq_next, finish_eq_next]

/-- `HALT` on a bus that answers its two reads. -/
theorem exec_halt_readable {s : State} (h : s.IrqReadable) : exec .halt s =
    .next ((if s.pending != 0 && !s.ime then { s.irqRead with haltBugArmed := true }
      else { s.irqRead with halted := true }).charge 1) := by
  show execHalt s = _
  rw [execHalt, readIrqRegs_claimed h, ← State.pending_eq]
  show (if (s.pending != 0 && !s.ime) = true then _ else _) = _
  cases (s.pending != 0 && !s.ime) <;> rfl

/-! ### The rows that raise -/

/-- The twelve bytes whose rows raise do so from every state, with the byte and the address it was fetched from. -/
theorem exec_raises {b : Byte} (h : raises (decodeOpcode b) = true) (s : State) :
    exec (decodeOpcode b) s = .fault (.invalidOpcode b s.opAddr) := by
  have hb : ∀ b : Byte, raises (decodeOpcode b) = true → b ∈ [0x10#8, 0xD3#8, 0xDB#8, 0xDD#8, 0xE3#8, 0xE4#8, 0xEB#8, 0xEC#8,
    0xED#8, 0xF4#8, 0xFC#8, 0xFD#8] := by decide
  have hb := hb b h
  simp only [List.mem_cons, List.not_mem_nil, or_false] at hb
  rcases hb with rfl | rfl | rfl | rfl | rfl | rfl | rfl | rfl | rfl | rfl | rfl | rfl <;> rfl

/-! ### The prefix row -/

theorem execPrefixed_eq_exec (i : CbInstr) (s : State) : execPrefixed i s = exec i.toInstr s := by
  obtain ⟨o, p⟩ := i; cases o <;> cases p <;> rfl

/-- The prefix row on a bus that answers its second byte (R142). -/
theorem exec_prefixCb_claimed {s : State} (h : s.canRead s.pc = true) :
    exec .prefixCb s = exec (decodePrefixed (s.byteAt s.pc)).toInstr s.pastImm8 := by
  show execPrefixCb s = _
  rw [execPrefixCb, imm8_claimed h, execPrefixed_eq_exec]

theorem exec_prefixCb_eq_next {s t : State} : exec .prefixCb s = .next t ↔ s.canRead s.pc = true ∧
    exec (decodePrefixed (s.byteAt s.pc)).toInstr s.pastImm8 = .next t := by
  show execPrefixCb s = _ ↔ _
  rw [execPrefixCb, imm8_eq_next, execPrefixed_eq_exec]

/-- The prefix row never selects itself. -/
theorem toInstr_ne_prefixCb (i : CbInstr) : i.toInstr ≠ .prefixCb := by
  obtain ⟨o, p⟩ := i; cases o <;> cases p <;> exact nofun

end Sys2Proof.Machine
end

