-- ==== Sys2Proof/Laws/Flags.lean ====
section
/-! SUPPORT. What the flag helpers say: the four bits of `F`, and the carries and borrows as plain comparisons. -/

namespace Sys2Proof.Machine

theorem flags_toNat (z n h c : Bool) :
    (flags z n h c).toNat = 128 * z.toNat + 64 * n.toNat + 32 * h.toNat + 16 * c.toNat := by
  cases z <;> cases n <;> cases h <;> cases c <;> rfl

@[simp] theorem flags_getLsbD_7 (z n h c : Bool) : (flags z n h c).getLsbD 7 = z := by
  cases z <;> cases n <;> cases h <;> cases c <;> rfl

@[simp] theorem flags_getLsbD_6 (z n h c : Bool) : (flags z n h c).getLsbD 6 = n := by
  cases z <;> cases n <;> cases h <;> cases c <;> rfl

@[simp] theorem flags_getLsbD_5 (z n h c : Bool) : (flags z n h c).getLsbD 5 = h := by
  cases z <;> cases n <;> cases h <;> cases c <;> rfl

@[simp] theorem flags_getLsbD_4 (z n h c : Bool) : (flags z n h c).getLsbD 4 = c := by
  cases z <;> cases n <;> cases h <;> cases c <;> rfl

/-- Bits 3..0 of what `Flags` builds are zero (R21). -/
@[simp] theorem flags_and_0F (z n h c : Bool) : flags z n h c &&& 0x0F#8 = 0#8 := by
  cases z <;> cases n <;> cases h <;> cases c <;> rfl

/-- A carry out of bit 3 of two bytes. -/
theorem carryOut_3 (a b ci : Nat) : carryOut 3 a b ci = decide (a % 16 + b % 16 + ci > 15) := rfl

/-- A carry out of bit 7 of two bytes. -/
theorem carryOut_7 (a b : Byte) (ci : Nat) : carryOut 7 a.toNat b.toNat ci = decide (a.toNat + b.toNat + ci > 255) := by
  have := a.isLt; have := b.isLt
  simp only [carryOut]; congr 1; apply propext
  rw [Nat.mod_eq_of_lt (by omega), Nat.mod_eq_of_lt (by omega)]; norm_num

/-- A carry out of bit 11 of two words. -/
theorem carryOut_11 (a b ci : Nat) : carryOut 11 a b ci = decide (a % 4096 + b % 4096 + ci > 4095) := rfl

/-- A carry out of bit 15 of two words. -/
theorem carryOut_15 (a b : Word) (ci : Nat) : carryOut 15 a.toNat b.toNat ci = decide (a.toNat + b.toNat + ci > 65535) := by
  have := a.isLt; have := b.isLt
  simp only [carryOut]; congr 1; apply propext
  rw [Nat.mod_eq_of_lt (by omega), Nat.mod_eq_of_lt (by omega)]; norm_num

/-- A borrow into bit 3 of two bytes. -/
theorem borrowOut_3 (a b ci : Nat) : borrowOut 3 a b ci = decide (a % 16 < b % 16 + ci) := rfl

/-- A borrow out of two bytes. -/
theorem borrowOut_7 (a b : Byte) (ci : Nat) : borrowOut 7 a.toNat b.toNat ci = decide (a.toNat < b.toNat + ci) := by
  have := a.isLt; have := b.isLt
  simp only [borrowOut]; congr 1; apply propext
  rw [Nat.mod_eq_of_lt (by omega), Nat.mod_eq_of_lt (by omega)]

end Sys2Proof.Machine
end

