-- ==== Sys2Proof/Laws/PerInstr.lean ====
section
/-! SUPPORT. Statements made per instruction. Family `Pattern`: the opcode byte of the row has the bits the table fixes
(spec/opcode_table.json, `mask` and `match`), whatever its operand fields hold. -/

/-- The encoder puts the row's fixed bits in the opcode byte. -/
def Sys2Proof.Laws.Pattern.Statement (i : Sys2Proof.Instr) : Prop :=
  Sys2Proof.opcodeByte i &&& i.rowMask = i.rowMatch

namespace Sys2Proof.Laws.Pattern

theorem nop : Statement (.nop) := rfl
theorem ldA16Sp : Statement (.ldA16Sp) := rfl
theorem stop : Statement (.stop) := rfl
theorem jrE8 : Statement (.jrE8) := rfl
theorem rlca : Statement (.rlca) := rfl
theorem rrca : Statement (.rrca) := rfl
theorem rla : Statement (.rla) := rfl
theorem rra : Statement (.rra) := rfl
theorem daa : Statement (.daa) := rfl
theorem cpl : Statement (.cpl) := rfl
theorem scf : Statement (.scf) := rfl
theorem ccf : Statement (.ccf) := rfl
theorem ldBcA : Statement (.ldBcA) := rfl
theorem ldDeA : Statement (.ldDeA) := rfl
theorem ldHliA : Statement (.ldHliA) := rfl
theorem ldHldA : Statement (.ldHldA) := rfl
theorem ldABc : Statement (.ldABc) := rfl
theorem ldADe : Statement (.ldADe) := rfl
theorem ldAHli : Statement (.ldAHli) := rfl
theorem ldAHld : Statement (.ldAHld) := rfl
theorem incHl : Statement (.incHl) := rfl
theorem decHl : Statement (.decHl) := rfl
theorem ldHlD8 : Statement (.ldHlD8) := rfl
theorem halt : Statement (.halt) := rfl
theorem jpA16 : Statement (.jpA16) := rfl
theorem ret : Statement (.ret) := rfl
theorem reti : Statement (.reti) := rfl
theorem jpHl : Statement (.jpHl) := rfl
theorem ldSpHl : Statement (.ldSpHl) := rfl
theorem prefixCb : Statement (.prefixCb) := rfl
theorem callA16 : Statement (.callA16) := rfl
theorem ldhA8A : Statement (.ldhA8A) := rfl
theorem ldhAA8 : Statement (.ldhAA8) := rfl
theorem ldhCA : Statement (.ldhCA) := rfl
theorem ldhAC : Statement (.ldhAC) := rfl
theorem addSpE8 : Statement (.addSpE8) := rfl
theorem ldHlSpE8 : Statement (.ldHlSpE8) := rfl
theorem ldA16A : Statement (.ldA16A) := rfl
theorem ldAA16 : Statement (.ldAA16) := rfl
theorem di : Statement (.di) := rfl
theorem ei : Statement (.ei) := rfl
theorem popAf : Statement (.popAf) := rfl
theorem illegalD3 : Statement (.illegalD3) := rfl
theorem illegalDB : Statement (.illegalDB) := rfl
theorem illegalDD : Statement (.illegalDD) := rfl
theorem illegalE3 : Statement (.illegalE3) := rfl
theorem illegalE4 : Statement (.illegalE4) := rfl
theorem illegalEB : Statement (.illegalEB) := rfl
theorem illegalEC : Statement (.illegalEC) := rfl
theorem illegalED : Statement (.illegalED) := rfl
theorem illegalF4 : Statement (.illegalF4) := rfl
theorem illegalFC : Statement (.illegalFC) := rfl
theorem illegalFD : Statement (.illegalFD) := rfl
theorem addAHl : Statement (.addAHl) := rfl
theorem adcAHl : Statement (.adcAHl) := rfl
theorem subAHl : Statement (.subAHl) := rfl
theorem sbcAHl : Statement (.sbcAHl) := rfl
theorem andAHl : Statement (.andAHl) := rfl
theorem xorAHl : Statement (.xorAHl) := rfl
theorem orAHl : Statement (.orAHl) := rfl
theorem cpAHl : Statement (.cpAHl) := rfl
theorem addAD8 : Statement (.addAD8) := rfl
theorem adcAD8 : Statement (.adcAD8) := rfl
theorem subAD8 : Statement (.subAD8) := rfl
theorem sbcAD8 : Statement (.sbcAD8) := rfl
theorem andAD8 : Statement (.andAD8) := rfl
theorem xorAD8 : Statement (.xorAD8) := rfl
theorem orAD8 : Statement (.orAD8) := rfl
theorem cpAD8 : Statement (.cpAD8) := rfl
theorem jrCcE8 (cc : Cond) : Statement (.jrCcE8 cc) := by cases cc <;> rfl
theorem ldR16D16 (r : R16) : Statement (.ldR16D16 r) := by cases r <;> rfl
theorem addHlR16 (r : R16) : Statement (.addHlR16 r) := by cases r <;> rfl
theorem incR16 (r : R16) : Statement (.incR16 r) := by cases r <;> rfl
theorem decR16 (r : R16) : Statement (.decR16 r) := by cases r <;> rfl
theorem incR8 (r : Reg8) : Statement (.incR8 r) := by cases r <;> rfl
theorem decR8 (r : Reg8) : Statement (.decR8 r) := by cases r <;> rfl
theorem ldR8D8 (r : Reg8) : Statement (.ldR8D8 r) := by cases r <;> rfl
theorem ldR8Hl (r : Reg8) : Statement (.ldR8Hl r) := by cases r <;> rfl
theorem ldHlR8 (r : Reg8) : Statement (.ldHlR8 r) := by cases r <;> rfl
theorem ldR8R8 (dst : Reg8) (r : Reg8) : Statement (.ldR8R8 dst r) := by cases dst <;> cases r <;> rfl
theorem addAR8 (r : Reg8) : Statement (.addAR8 r) := by cases r <;> rfl
theorem adcAR8 (r : Reg8) : Statement (.adcAR8 r) := by cases r <;> rfl
theorem subAR8 (r : Reg8) : Statement (.subAR8 r) := by cases r <;> rfl
theorem sbcAR8 (r : Reg8) : Statement (.sbcAR8 r) := by cases r <;> rfl
theorem andAR8 (r : Reg8) : Statement (.andAR8 r) := by cases r <;> rfl
theorem xorAR8 (r : Reg8) : Statement (.xorAR8 r) := by cases r <;> rfl
theorem orAR8 (r : Reg8) : Statement (.orAR8 r) := by cases r <;> rfl
theorem cpAR8 (r : Reg8) : Statement (.cpAR8 r) := by cases r <;> rfl
theorem retCc (cc : Cond) : Statement (.retCc cc) := by cases cc <;> rfl
theorem jpCcA16 (cc : Cond) : Statement (.jpCcA16 cc) := by cases cc <;> rfl
theorem callCcA16 (cc : Cond) : Statement (.callCcA16 cc) := by cases cc <;> rfl
theorem popR16 (p : R16Stk) : Statement (.popR16 p) := by cases p <;> rfl
theorem pushR16 (p : R16Stk) : Statement (.pushR16 p) := by cases p <;> rfl
theorem rstT (t : BitVec 3) : Statement (.rstT t) := by revert t; unfold Statement; decide
theorem rlcHl : Statement (.rlcHl) := rfl
theorem rrcHl : Statement (.rrcHl) := rfl
theorem rlHl : Statement (.rlHl) := rfl
theorem rrHl : Statement (.rrHl) := rfl
theorem slaHl : Statement (.slaHl) := rfl
theorem sraHl : Statement (.sraHl) := rfl
theorem swapHl : Statement (.swapHl) := rfl
theorem srlHl : Statement (.srlHl) := rfl
theorem rlcR8 (r : Reg8) : Statement (.rlcR8 r) := by cases r <;> rfl
theorem rrcR8 (r : Reg8) : Statement (.rrcR8 r) := by cases r <;> rfl
theorem rlR8 (r : Reg8) : Statement (.rlR8 r) := by cases r <;> rfl
theorem rrR8 (r : Reg8) : Statement (.rrR8 r) := by cases r <;> rfl
theorem slaR8 (r : Reg8) : Statement (.slaR8 r) := by cases r <;> rfl
theorem sraR8 (r : Reg8) : Statement (.sraR8 r) := by cases r <;> rfl
theorem swapR8 (r : Reg8) : Statement (.swapR8 r) := by cases r <;> rfl
theorem srlR8 (r : Reg8) : Statement (.srlR8 r) := by cases r <;> rfl
theorem bitHl (b : BitVec 3) : Statement (.bitHl b) := by revert b; unfold Statement; decide
theorem bitR8 (b : BitVec 3) (r : Reg8) : Statement (.bitR8 b r) := by cases r <;> (revert b; unfold Statement; decide)
theorem resHl (b : BitVec 3) : Statement (.resHl b) := by revert b; unfold Statement; decide
theorem resR8 (b : BitVec 3) (r : Reg8) : Statement (.resR8 b r) := by cases r <;> (revert b; unfold Statement; decide)
theorem setHl (b : BitVec 3) : Statement (.setHl b) := by revert b; unfold Statement; decide
theorem setR8 (b : BitVec 3) (r : Reg8) : Statement (.setR8 b r) := by cases r <;> (revert b; unfold Statement; decide)

end Sys2Proof.Laws.Pattern
end

