-- ==== Sys2Proof/Tests/Slice0.lean ====
section
/-! SUPPORT. The model's own tests. The names `test_V…` and `test_M…` are rows of spec/95_test_vectors.md; the expected values are
that file's. The theorems `witness_<Name>` show, for the obligation of that name, states and operands that meet its hypotheses,
clause by clause. -/

/-- The state with bytes placed in memory. -/
def Sys2Proof.Machine.State.holding (s : Sys2Proof.Machine.State) (l : List (Sys2Proof.Word × Sys2Proof.Byte)) :
    Sys2Proof.Machine.State :=
  l.foldl (fun s c => s.store c.1 c.2) s

namespace Sys2Proof.Machine.Tests

/-! ### Helpers -/

/-- What a view shows of the state after one step; nothing where the step does not end in a next state. -/
def stepped {α : Type} (s : State) (view : State → α) : Option α :=
  match step s with
  | .next t => some (view t)
  | _ => none

/-- The same of one instruction. -/
def executed {α : Type} (i : Instr) (s : State) (view : State → α) : Option α :=
  match exec i s with
  | .next t => some (view t)
  | _ => none

/-- The bus `SPLIT` of spec/95_test_vectors.md. -/
def split (s : State) : State := { s with claims := [⟨0x0000, 0x7FFF, .memory, .memory⟩, ⟨0xFF00, 0xFFFF, .memory, .memory⟩] }

/-- Registers at the ends of their ranges, on the bus that answers everything. -/
def edge : State :=
  { State.reset with
    a := 0xFF, f := 0xF0, b := 0xFF, c := 0xFF, d := 0xFF, e := 0xFF, h := 0xFF, l := 0xFF, pc := 0xFFFF, sp := 0x0000 }

/-- Nothing answers. -/
def deaf : State := { edge with claims := [] }

/-- Every read is answered, no write. -/
def readOnly : State := { edge with claims := [⟨0x0000, 0xFFFF, .memory, .refused⟩] }

/-- One address is answered. -/
def only (x : Word) : State := { edge with claims := [⟨x, x, .memory, .memory⟩] }

/-- Every read is answered, and the writes of one address. -/
def onlyWrites (x : Word) : State := { edge with claims := [⟨x, x, .memory, .memory⟩, ⟨0x0000, 0xFFFF, .memory, .refused⟩] }

/-! ### Well-formedness: the one check of WellFormed.lean refuses its ill-formed term -/

theorem test_wellFormed_refuses_pop_r16_af : ¬ WellFormed (.popR16 .af) := by decide

theorem test_wellFormed_accepts : WellFormed .popAf ∧ WellFormed (.popR16 .hl) ∧ WellFormed (.pushR16 .af) := by decide

/-! ### Decoding: words written out from the maps of spec/30_encoding.md, fields `x y z` in binary -/

theorem test_decode_load8 : decode [0b01_010_011#8] = some (.ldR8R8 .d .e, []) ∧ decode [0b01_110_000#8] = some (.ldHlR8 .b, []) ∧
    decode [0b01_101_110#8] = some (.ldR8Hl .l, []) ∧ decode [0b00_111_110#8, 0x12] = some (.ldR8D8 .a, [0x12]) := by decide

theorem test_decode_load16 : decode [0b00_10_0001#8] = some (.ldR16D16 .hl, []) ∧ decode [0b11_11_0101#8] = some (.pushR16 .af, []) ∧
    decode [0b11_11_0001#8] = some (.popAf, []) ∧ decode [0b11_01_0001#8] = some (.popR16 .de, []) := by decide

theorem test_decode_alu : decode [0b10_111_001#8] = some (.cpAR8 .c, []) ∧ decode [0b10_101_110#8] = some (.xorAHl, []) ∧
    decode [0b11_001_110#8, 0xFF] = some (.adcAD8, [0xFF]) ∧ decode [0b00_110_101#8] = some (.decHl, []) ∧
    decode [0b00_11_1001#8] = some (.addHlR16 .sp, []) ∧ decode [0b00_00_1011#8] = some (.decR16 .bc, []) := by decide

theorem test_decode_control : decode [0b001_11_000#8] = some (.jrCcE8 .c, []) ∧ decode [0b11_0_10_010#8] = some (.jpCcA16 .nc, []) ∧
    decode [0b11_0_01_100#8] = some (.callCcA16 .z, []) ∧ decode [0b11_111_111#8] = some (.rstT 7, []) ∧
    decode [0b01_110_110#8] = some (.halt, []) := by decide

theorem test_decode_prefixed : decode [0xCB, 0b00_110_111#8] = some (.swapR8 .a, []) ∧
    decode [0xCB, 0b01_011_110#8] = some (.bitHl 3, []) ∧ decode [0xCB, 0b10_000_000#8] = some (.resR8 0 .b, []) ∧
    decode [0xCB, 0b11_111_101#8] = some (.setR8 7 .l, []) ∧ decode [0xCB] = some (.prefixCb, []) := by decide

/-! ### One step of each instruction: V41 to V47 -/

theorem test_V41_1_ldR8R8 :
    stepped (State.holding { State.reset with c := 0x5A } [(0x0100, 0x41)])
      (fun t => (t.b, t.pc, t.ticks)) = some (0x5A, 0x0101, 1) := by decide

theorem test_V41_3_ldR8Hl :
    stepped (State.holding { State.reset with h := 0xC1, l := 0x23 } [(0x0100, 0x56), (0xC123, 0x9C)])
      (fun t => (t.d, t.pc, t.ticks)) = some (0x9C, 0x0101, 2) := by decide

theorem test_V41_4_ldR8Hl :
    stepped (State.holding { State.reset with h := 0xC1, l := 0x23 } [(0x0100, 0x66), (0xC123, 0x9C)])
      (fun t => (t.h, t.pc, t.ticks)) = some (0x9C, 0x0101, 2) := by decide

theorem test_V41_5_ldHlR8 :
    stepped (State.holding { State.reset with h := 0xC1, l := 0x23 } [(0x0100, 0x75)])
      (fun t => (t.pc, t.ticks, [t.byteAt 0xC123])) = some (0x0101, 2, [0x23]) := by decide

theorem test_V41_6_ldR8D8 :
    stepped (State.reset.holding [(0x0100, 0x1E), (0x0101, 0xFF)])
      (fun t => (t.e, t.pc, t.ticks)) = some (0xFF, 0x0102, 2) := by decide

theorem test_V41_7_ldHlD8 :
    stepped (State.holding { State.reset with h := 0xC0 } [(0x0100, 0x36), (0x0101, 0xA5)])
      (fun t => (t.pc, t.ticks, [t.byteAt 0xC000])) = some (0x0102, 3, [0xA5]) := by decide

theorem test_V41_8_ldABc :
    stepped (State.holding { State.reset with b := 0x80, c := 0x01 } [(0x0100, 0x0A), (0x8001, 0x42)])
      (fun t => (t.a, t.pc, t.ticks)) = some (0x42, 0x0101, 2) := by decide

theorem test_V41_9_ldADe :
    stepped (State.holding { State.reset with d := 0xFF, e := 0xFF } [(0x0100, 0x1A), (0xFFFF, 0x1F)])
      (fun t => (t.a, t.pc, t.ticks)) = some (0x1F, 0x0101, 2) := by decide

theorem test_V41_10_ldBcA :
    stepped (State.holding { State.reset with a := 0x11, b := 0xC0, c := 0x10 } [(0x0100, 0x02)])
      (fun t => (t.pc, t.ticks, [t.byteAt 0xC010])) = some (0x0101, 2, [0x11]) := by decide

theorem test_V41_11_ldDeA :
    stepped (State.holding { State.reset with a := 0x22, d := 0xC0, e := 0x11 } [(0x0100, 0x12)])
      (fun t => (t.pc, t.ticks, [t.byteAt 0xC011])) = some (0x0101, 2, [0x22]) := by decide

theorem test_V41_12_ldAHli :
    stepped (State.holding { State.reset with h := 0xFF, l := 0xFF } [(0x0100, 0x2A), (0xFFFF, 0x03)])
      (fun t => (t.a, t.h, t.l, t.pc, t.ticks)) = some (0x03, 0x00, 0x00, 0x0101, 2) := by decide

theorem test_V41_13_ldAHld :
    stepped (State.reset.holding [(0x0000, 0xC3), (0x0100, 0x3A)])
      (fun t => (t.a, t.h, t.l, t.pc, t.ticks)) = some (0xC3, 0xFF, 0xFF, 0x0101, 2) := by decide

theorem test_V41_14_ldHliA :
    stepped (State.holding { State.reset with a := 0x99, h := 0xC0, l := 0xFF } [(0x0100, 0x22)])
      (fun t => (t.h, t.l, t.pc, t.ticks, [t.byteAt 0xC0FF])) = some (0xC1, 0x00, 0x0101, 2, [0x99]) := by decide

theorem test_V41_15_ldHldA :
    stepped (State.holding { State.reset with a := 0x99, h := 0xC1 } [(0x0100, 0x32)])
      (fun t => (t.h, t.l, t.pc, t.ticks, [t.byteAt 0xC100])) = some (0xC0, 0xFF, 0x0101, 2, [0x99]) := by decide

theorem test_V41_16_ldAA16 :
    stepped (State.reset.holding [(0x0100, 0xFA), (0x0101, 0x34), (0x0102, 0xD2), (0xD234, 0x5E)])
      (fun t => (t.a, t.pc, t.ticks)) = some (0x5E, 0x0103, 4) := by decide

theorem test_V41_17_ldA16A :
    stepped (State.holding { State.reset with a := 0x7B } [(0x0100, 0xEA), (0x0101, 0x0F), (0x0102, 0xFF)])
      (fun t => (t.pc, t.ticks, [t.byteAt 0xFF0F])) = some (0x0103, 4, [0x7B]) := by decide

theorem test_V41_18_ldhAA8 :
    stepped (State.reset.holding [(0x0100, 0xF0), (0x0101, 0x44), (0xFF44, 0x90)])
      (fun t => (t.a, t.pc, t.ticks)) = some (0x90, 0x0102, 3) := by decide

theorem test_V41_19_ldhA8A :
    stepped (State.holding { State.reset with a := 0x1F } [(0x0100, 0xE0), (0x0101, 0xFF)])
      (fun t => (t.pc, t.ticks, [t.byteAt 0xFFFF])) = some (0x0102, 3, [0x1F]) := by decide

theorem test_V41_20_ldhAC :
    stepped (State.holding { State.reset with c := 0x0F } [(0x0100, 0xF2), (0xFF0F, 0x05)])
      (fun t => (t.a, t.pc, t.ticks)) = some (0x05, 0x0101, 2) := by decide

theorem test_V41_21_ldhCA :
    stepped (State.holding { State.reset with a := 0x80, c := 0x40 } [(0x0100, 0xE2)])
      (fun t => (t.pc, t.ticks, [t.byteAt 0xFF40])) = some (0x0101, 2, [0x80]) := by decide

theorem test_V42_1_ldR16D16 :
    stepped (State.reset.holding [(0x0100, 0x01), (0x0101, 0x34), (0x0102, 0x12)])
      (fun t => (t.b, t.c, t.pc, t.ticks)) = some (0x12, 0x34, 0x0103, 3) := by decide

theorem test_V42_3_ldA16Sp :
    stepped (State.holding { State.reset with sp := 0xDFF0 } [(0x0100, 0x08), (0x0101, 0x00), (0x0102, 0xC1)])
      (fun t => (t.pc, t.ticks, [t.byteAt 0xC100, t.byteAt 0xC101])) = some (0x0103, 5, [0xF0, 0xDF]) := by decide

theorem test_V42_4_ldA16Sp :
    stepped (State.holding { State.reset with sp := 0x1234 } [(0x0100, 0x08), (0x0101, 0xFF), (0x0102, 0xFF)])
      (fun t => (t.pc, t.ticks, [t.byteAt 0xFFFF, t.byteAt 0x0000])) = some (0x0103, 5, [0x34, 0x12]) := by decide

theorem test_V42_5_ldSpHl :
    stepped (State.holding { State.reset with h := 0xCF, l := 0xFF } [(0x0100, 0xF9)])
      (fun t => (t.sp, t.pc, t.ticks)) = some (0xCFFF, 0x0101, 2) := by decide

theorem test_V42_6_ldHlSpE8 :
    stepped (State.holding { State.reset with f := 0xF0, sp := 0xFFF8 } [(0x0100, 0xF8), (0x0101, 0x02)])
      (fun t => (t.f, t.h, t.l, t.pc, t.ticks)) = some (0x00, 0xFF, 0xFA, 0x0102, 3) := by decide

theorem test_V42_10_ldHlSpE8 :
    stepped (State.holding { State.reset with sp := 0x00FF } [(0x0100, 0xF8), (0x0101, 0x01)])
      (fun t => (t.f, t.h, t.pc, t.ticks)) = some (0x00, 0x01, 0x0102, 3) := by decide

theorem test_V42_12_pushR16 :
    stepped (State.holding { State.reset with b := 0x12, c := 0x34, sp := 0xD000 } [(0x0100, 0xC5)])
      (fun t => (t.sp, t.pc, t.ticks, [t.byteAt 0xCFFF, t.byteAt 0xCFFE])) = some (0xCFFE, 0x0101, 4, [0x12, 0x34]) := by decide

theorem test_V42_14_pushR16 :
    stepped (State.holding { State.reset with h := 0xAB, l := 0xCD } [(0x0100, 0xE5)])
      (fun t => (t.sp, t.pc, t.ticks, [t.byteAt 0xFFFF, t.byteAt 0xFFFE])) = some (0xFFFE, 0x0101, 4, [0xAB, 0xCD]) := by decide

theorem test_V42_15_popR16 :
    stepped (State.holding { State.reset with sp := 0xCFFE } [(0x0100, 0xD1), (0xCFFE, 0x34), (0xCFFF, 0x12)])
      (fun t => (t.d, t.e, t.sp, t.pc, t.ticks)) = some (0x12, 0x34, 0xD000, 0x0101, 3) := by decide

theorem test_V42_16_popAf :
    stepped (State.holding { State.reset with sp := 0xCFFE } [(0x0100, 0xF1), (0xCFFE, 0xFF), (0xCFFF, 0x12)])
      (fun t => (t.a, t.f, t.sp, t.pc, t.ticks)) = some (0x12, 0xF0, 0xD000, 0x0101, 3) := by decide

theorem test_V42_17_popAf :
    stepped (State.holding { State.reset with f := 0xF0, sp := 0xCFFE } [(0x0100, 0xF1), (0xCFFE, 0x0F), (0xCFFF, 0x00)])
      (fun t => (t.f, t.sp, t.pc, t.ticks)) = some (0x00, 0xD000, 0x0101, 3) := by decide

theorem test_V42_18_popR16 :
    stepped (State.holding { State.reset with sp := 0xFFFF } [(0x0000, 0x22), (0x0100, 0xE1), (0xFFFF, 0x11)])
      (fun t => (t.h, t.l, t.sp, t.pc, t.ticks)) = some (0x22, 0x11, 0x0001, 0x0101, 3) := by decide

theorem test_V43_1_addAR8 :
    stepped (State.holding { State.reset with a := 0x0F, b := 0x01 } [(0x0100, 0x80)])
      (fun t => (t.a, t.f, t.pc, t.ticks)) = some (0x10, 0x20, 0x0101, 1) := by decide

theorem test_V43_2_addAR8 :
    stepped (State.holding { State.reset with a := 0xFF, b := 0x01 } [(0x0100, 0x80)])
      (fun t => (t.a, t.f, t.pc, t.ticks)) = some (0x00, 0xB0, 0x0101, 1) := by decide

theorem test_V43_4_addAHl :
    stepped (State.holding { State.reset with a := 0x3A, h := 0xC0 } [(0x0100, 0x86), (0xC000, 0xC6)])
      (fun t => (t.a, t.f, t.pc, t.ticks)) = some (0x00, 0xB0, 0x0101, 2) := by decide

theorem test_V43_5_addAD8 :
    stepped (State.holding { State.reset with a := 0x3C, f := 0xF0 } [(0x0100, 0xC6), (0x0101, 0x12)])
      (fun t => (t.a, t.f, t.pc, t.ticks)) = some (0x4E, 0x00, 0x0102, 2) := by decide

theorem test_V43_6_adcAR8 :
    stepped (State.holding { State.reset with a := 0x0F, f := 0x10 } [(0x0100, 0x89)])
      (fun t => (t.a, t.f, t.pc, t.ticks)) = some (0x10, 0x20, 0x0101, 1) := by decide

theorem test_V43_7_adcAR8 :
    stepped (State.holding { State.reset with a := 0xFF, f := 0x10, c := 0xFF } [(0x0100, 0x89)])
      (fun t => (t.a, t.f, t.pc, t.ticks)) = some (0xFF, 0x30, 0x0101, 1) := by decide

theorem test_V43_8_adcAD8 :
    stepped (State.holding { State.reset with f := 0x10 } [(0x0100, 0xCE), (0x0101, 0xFF)])
      (fun t => (t.a, t.f, t.pc, t.ticks)) = some (0x00, 0xB0, 0x0102, 2) := by decide

theorem test_V43_9_subAR8 :
    stepped (State.holding { State.reset with a := 0x10, b := 0x01 } [(0x0100, 0x90)])
      (fun t => (t.a, t.f, t.pc, t.ticks)) = some (0x0F, 0x60, 0x0101, 1) := by decide

theorem test_V43_10_subAR8 :
    stepped (State.holding { State.reset with b := 0x01 } [(0x0100, 0x90)])
      (fun t => (t.a, t.f, t.pc, t.ticks)) = some (0xFF, 0x70, 0x0101, 1) := by decide

theorem test_V43_12_subAD8 :
    stepped (State.holding { State.reset with a := 0x3E } [(0x0100, 0xD6), (0x0101, 0x3E)])
      (fun t => (t.a, t.f, t.pc, t.ticks)) = some (0x00, 0xC0, 0x0102, 2) := by decide

theorem test_V43_13_sbcAR8 :
    stepped (State.holding { State.reset with f := 0x10 } [(0x0100, 0x98)])
      (fun t => (t.a, t.f, t.pc, t.ticks)) = some (0xFF, 0x70, 0x0101, 1) := by decide

theorem test_V43_15_sbcAD8 :
    stepped (State.holding { State.reset with f := 0x10 } [(0x0100, 0xDE), (0x0101, 0xFF)])
      (fun t => (t.a, t.f, t.pc, t.ticks)) = some (0x00, 0xF0, 0x0102, 2) := by decide

theorem test_V43_16_andAR8 :
    stepped (State.holding { State.reset with a := 0x5A, f := 0x10, b := 0x3F } [(0x0100, 0xA0)])
      (fun t => (t.a, t.f, t.pc, t.ticks)) = some (0x1A, 0x20, 0x0101, 1) := by decide

theorem test_V43_17_andAD8 :
    stepped (State.holding { State.reset with a := 0xF0 } [(0x0100, 0xE6), (0x0101, 0x0F)])
      (fun t => (t.a, t.f, t.pc, t.ticks)) = some (0x00, 0xA0, 0x0102, 2) := by decide

theorem test_V43_18_xorAR8 :
    stepped (State.holding { State.reset with a := 0xFF, f := 0xF0 } [(0x0100, 0xAF)])
      (fun t => (t.a, t.f, t.pc, t.ticks)) = some (0x00, 0x80, 0x0101, 1) := by decide

theorem test_V43_19_xorAD8 :
    stepped (State.holding { State.reset with a := 0xFF } [(0x0100, 0xEE), (0x0101, 0x0F)])
      (fun t => (t.a, t.f, t.pc, t.ticks)) = some (0xF0, 0x00, 0x0102, 2) := by decide

theorem test_V43_20_orAR8 :
    stepped (State.holding { State.reset with f := 0xF0 } [(0x0100, 0xB1)])
      (fun t => (t.a, t.f, t.pc, t.ticks)) = some (0x00, 0x80, 0x0101, 1) := by decide

theorem test_V43_21_orAD8 :
    stepped (State.holding { State.reset with a := 0x5A } [(0x0100, 0xF6), (0x0101, 0x03)])
      (fun t => (t.a, t.f, t.pc, t.ticks)) = some (0x5B, 0x00, 0x0102, 2) := by decide

theorem test_V43_22_cpAR8 :
    stepped (State.holding { State.reset with a := 0x3C, b := 0x3C } [(0x0100, 0xB8)])
      (fun t => (t.a, t.f, t.pc, t.ticks)) = some (0x3C, 0xC0, 0x0101, 1) := by decide

theorem test_V43_23_cpAD8 :
    stepped (State.holding { State.reset with a := 0x3C } [(0x0100, 0xFE), (0x0101, 0x40)])
      (fun t => (t.a, t.f, t.pc, t.ticks)) = some (0x3C, 0x50, 0x0102, 2) := by decide

theorem test_V43_24_cpAHl :
    stepped (State.holding { State.reset with a := 0x3C, h := 0xC0 } [(0x0100, 0xBE), (0xC000, 0x2F)])
      (fun t => (t.a, t.f, t.pc, t.ticks)) = some (0x3C, 0x60, 0x0101, 2) := by decide

theorem test_V43_25_incR8 :
    stepped (State.holding { State.reset with f := 0x10, b := 0x0F } [(0x0100, 0x04)])
      (fun t => (t.a, t.f, t.b, t.pc, t.ticks)) = some (0x00, 0x30, 0x10, 0x0101, 1) := by decide

theorem test_V43_27_incHl :
    stepped (State.holding { State.reset with h := 0xC0 } [(0x0100, 0x34), (0xC000, 0xFF)])
      (fun t => (t.a, t.f, t.pc, t.ticks, [t.byteAt 0xC000])) = some (0x00, 0xA0, 0x0101, 3, [0x00]) := by decide

theorem test_V43_28_decR8 :
    stepped (State.holding { State.reset with b := 0x01 } [(0x0100, 0x05)])
      (fun t => (t.a, t.f, t.b, t.pc, t.ticks)) = some (0x00, 0xC0, 0x00, 0x0101, 1) := by decide

theorem test_V43_31_decHl :
    stepped (State.holding { State.reset with h := 0xC0 } [(0x0100, 0x35), (0xC000, 0x00)])
      (fun t => (t.a, t.f, t.pc, t.ticks, [t.byteAt 0xC000])) = some (0x00, 0x60, 0x0101, 3, [0xFF]) := by decide

theorem test_V43_32_cpl :
    stepped (State.holding { State.reset with a := 0x35, f := 0x90 } [(0x0100, 0x2F)])
      (fun t => (t.a, t.f, t.pc, t.ticks)) = some (0xCA, 0xF0, 0x0101, 1) := by decide

theorem test_V43_33_scf :
    stepped (State.holding { State.reset with f := 0xE0 } [(0x0100, 0x37)])
      (fun t => (t.a, t.f, t.pc, t.ticks)) = some (0x00, 0x90, 0x0101, 1) := by decide

theorem test_V43_34_ccf :
    stepped (State.holding { State.reset with f := 0xF0 } [(0x0100, 0x3F)])
      (fun t => (t.a, t.f, t.pc, t.ticks)) = some (0x00, 0x80, 0x0101, 1) := by decide

theorem test_V43D_1_daa :
    stepped (State.reset.holding [(0x0100, 0x27)])
      (fun t => (t.a, t.f, t.pc, t.ticks)) = some (0x00, 0x80, 0x0101, 1) := by decide

theorem test_V44_1_addHlR16 :
    stepped (State.holding { State.reset with f := 0x80, b := 0x06, c := 0x05, h := 0x8A, l := 0x23 } [(0x0100, 0x09)])
      (fun t => (t.f, t.h, t.l, t.pc, t.ticks)) = some (0xA0, 0x90, 0x28, 0x0101, 2) := by decide

theorem test_V44_5_incR16 :
    stepped (State.holding { State.reset with f := 0xF0, d := 0x23, e := 0x5F } [(0x0100, 0x13)])
      (fun t => (t.f, t.e, t.pc, t.ticks)) = some (0xF0, 0x60, 0x0101, 2) := by decide

theorem test_V44_7_decR16 :
    stepped (State.reset.holding [(0x0100, 0x0B)])
      (fun t => (t.f, t.b, t.c, t.pc, t.ticks)) = some (0x00, 0xFF, 0xFF, 0x0101, 2) := by decide

theorem test_V44_9_addSpE8 :
    stepped (State.holding { State.reset with f := 0xF0, sp := 0xFFF8 } [(0x0100, 0xE8), (0x0101, 0x02)])
      (fun t => (t.f, t.sp, t.pc, t.ticks)) = some (0x00, 0xFFFA, 0x0102, 4) := by decide

theorem test_V45_1_rlca :
    stepped (State.holding { State.reset with a := 0x85, f := 0xF0 } [(0x0100, 0x07)])
      (fun t => (t.a, t.f, t.pc, t.ticks)) = some (0x0B, 0x10, 0x0101, 1) := by decide

theorem test_V45_3_rrca :
    stepped (State.holding { State.reset with a := 0x3B } [(0x0100, 0x0F)])
      (fun t => (t.a, t.f, t.pc, t.ticks)) = some (0x9D, 0x10, 0x0101, 1) := by decide

theorem test_V45_4_rla :
    stepped (State.holding { State.reset with a := 0x95, f := 0x10 } [(0x0100, 0x17)])
      (fun t => (t.a, t.f, t.pc, t.ticks)) = some (0x2B, 0x10, 0x0101, 1) := by decide

theorem test_V45_6_rra :
    stepped (State.holding { State.reset with a := 0x81 } [(0x0100, 0x1F)])
      (fun t => (t.a, t.f, t.pc, t.ticks)) = some (0x40, 0x10, 0x0101, 1) := by decide

theorem test_V45_8_rlcR8 :
    stepped (State.holding { State.reset with b := 0x85 } [(0x0100, 0xCB), (0x0101, 0x00)])
      (fun t => (t.f, t.b, t.pc, t.ticks)) = some (0x10, 0x0B, 0x0102, 2) := by decide

theorem test_V45_9_rlcHl :
    stepped (State.holding { State.reset with h := 0xC0 } [(0x0100, 0xCB), (0x0101, 0x06), (0xC000, 0x00)])
      (fun t => (t.f, t.pc, t.ticks, [t.byteAt 0xC000])) = some (0x80, 0x0102, 4, [0x00]) := by decide

theorem test_V45_10_rrcR8 :
    stepped (State.holding { State.reset with c := 0x01 } [(0x0100, 0xCB), (0x0101, 0x09)])
      (fun t => (t.f, t.c, t.pc, t.ticks)) = some (0x10, 0x80, 0x0102, 2) := by decide

theorem test_V45_11_rlR8 :
    stepped (State.holding { State.reset with l := 0x80 } [(0x0100, 0xCB), (0x0101, 0x15)])
      (fun t => (t.f, t.l, t.pc, t.ticks)) = some (0x90, 0x00, 0x0102, 2) := by decide

theorem test_V45_12_rlHl :
    stepped (State.holding { State.reset with f := 0x10, h := 0xC0 } [(0x0100, 0xCB), (0x0101, 0x16), (0xC000, 0x11)])
      (fun t => (t.f, t.pc, t.ticks, [t.byteAt 0xC000])) = some (0x00, 0x0102, 4, [0x23]) := by decide

theorem test_V45_13_rrR8 :
    stepped (State.holding { State.reset with a := 0x01 } [(0x0100, 0xCB), (0x0101, 0x1F)])
      (fun t => (t.a, t.f, t.pc, t.ticks)) = some (0x00, 0x90, 0x0102, 2) := by decide

theorem test_V45_15_slaR8 :
    stepped (State.holding { State.reset with d := 0x80 } [(0x0100, 0xCB), (0x0101, 0x22)])
      (fun t => (t.f, t.d, t.pc, t.ticks)) = some (0x90, 0x00, 0x0102, 2) := by decide

theorem test_V45_17_sraR8 :
    stepped (State.holding { State.reset with a := 0x8A } [(0x0100, 0xCB), (0x0101, 0x2F)])
      (fun t => (t.a, t.f, t.pc, t.ticks)) = some (0xC5, 0x00, 0x0102, 2) := by decide

theorem test_V45_19_swapR8 :
    stepped (State.holding { State.reset with a := 0xF1, f := 0xF0 } [(0x0100, 0xCB), (0x0101, 0x37)])
      (fun t => (t.a, t.f, t.pc, t.ticks)) = some (0x1F, 0x00, 0x0102, 2) := by decide

theorem test_V45_20_swapHl :
    stepped (State.holding { State.reset with h := 0xC0 } [(0x0100, 0xCB), (0x0101, 0x36), (0xC000, 0x00)])
      (fun t => (t.f, t.pc, t.ticks, [t.byteAt 0xC000])) = some (0x80, 0x0102, 4, [0x00]) := by decide

theorem test_V45_21_srlR8 :
    stepped (State.holding { State.reset with a := 0xFF } [(0x0100, 0xCB), (0x0101, 0x3F)])
      (fun t => (t.a, t.f, t.pc, t.ticks)) = some (0x7F, 0x10, 0x0102, 2) := by decide

theorem test_V45_23_bitR8 :
    stepped (State.holding { State.reset with a := 0x80, f := 0x10 } [(0x0100, 0xCB), (0x0101, 0x7F)])
      (fun t => (t.f, t.pc, t.ticks)) = some (0x30, 0x0102, 2) := by decide

theorem test_V45_25_bitHl :
    stepped (State.holding { State.reset with h := 0xC0 } [(0x0100, 0xCB), (0x0101, 0x46), (0xC000, 0xFE)])
      (fun t => (t.f, t.pc, t.ticks)) = some (0xA0, 0x0102, 3) := by decide

theorem test_V45_26_resR8 :
    stepped (State.holding { State.reset with a := 0x80, f := 0xF0 } [(0x0100, 0xCB), (0x0101, 0xBF)])
      (fun t => (t.a, t.f, t.pc, t.ticks)) = some (0x00, 0xF0, 0x0102, 2) := by decide

theorem test_V45_27_resHl :
    stepped (State.holding { State.reset with h := 0xC0 } [(0x0100, 0xCB), (0x0101, 0x86), (0xC000, 0xFE)])
      (fun t => (t.f, t.pc, t.ticks, [t.byteAt 0xC000])) = some (0x00, 0x0102, 4, [0xFE]) := by decide

theorem test_V45_28_setR8 :
    stepped (State.holding { State.reset with a := 0x80 } [(0x0100, 0xCB), (0x0101, 0xDF)])
      (fun t => (t.a, t.f, t.pc, t.ticks)) = some (0x88, 0x00, 0x0102, 2) := by decide

theorem test_V45_29_setHl :
    stepped (State.holding { State.reset with h := 0xC0 } [(0x0100, 0xCB), (0x0101, 0xFE), (0xC000, 0x00)])
      (fun t => (t.f, t.pc, t.ticks, [t.byteAt 0xC000])) = some (0x00, 0x0102, 4, [0x80]) := by decide

theorem test_V46_1_jpA16 :
    stepped (State.reset.holding [(0x0100, 0xC3), (0x0101, 0x50), (0x0102, 0x01)])
      (fun t => (t.pc, t.ticks)) = some (0x0150, 4) := by decide

theorem test_V46_2_jpCcA16 :
    stepped (State.holding { State.reset with f := 0x80 } [(0x0100, 0xCA), (0x0101, 0x00), (0x0102, 0x02)])
      (fun t => (t.pc, t.ticks)) = some (0x0200, 4) := by decide

theorem test_V46_3_jpCcA16 :
    stepped (State.reset.holding [(0x0100, 0xCA), (0x0101, 0x00), (0x0102, 0x02)])
      (fun t => (t.pc, t.ticks)) = some (0x0103, 3) := by decide

theorem test_V46_5_jpHl :
    stepped (State.holding { State.reset with h := 0x40 } [(0x0100, 0xE9)])
      (fun t => (t.pc, t.ticks)) = some (0x4000, 1) := by decide

theorem test_V46_6_jrE8 :
    stepped (State.reset.holding [(0x0100, 0x18), (0x0101, 0x05)])
      (fun t => (t.pc, t.ticks)) = some (0x0107, 3) := by decide

theorem test_V46_9_jrE8 :
    stepped (State.holding { State.reset with pc := 0xFFFE } [(0xFFFE, 0x18), (0xFFFF, 0x02)])
      (fun t => (t.pc, t.ticks)) = some (0x0002, 3) := by decide

theorem test_V46_10_jrCcE8 :
    stepped (State.holding { State.reset with pc := 0x0104 } [(0x0104, 0x20), (0x0105, 0xFC)])
      (fun t => (t.pc, t.ticks)) = some (0x0102, 3) := by decide

theorem test_V46_11_jrCcE8 :
    stepped (State.holding { State.reset with f := 0x80, pc := 0x0104 } [(0x0104, 0x20), (0x0105, 0xFC)])
      (fun t => (t.pc, t.ticks)) = some (0x0106, 2) := by decide

theorem test_V46_13_callA16 :
    stepped (State.holding { State.reset with sp := 0xD000 } [(0x0100, 0xCD), (0x0101, 0x00), (0x0102, 0x02)])
      (fun t => (t.sp, t.pc, t.ticks, [t.byteAt 0xCFFF, t.byteAt 0xCFFE])) = some (0xCFFE, 0x0200, 6, [0x01, 0x03]) := by decide

theorem test_V46_14_callCcA16 :
    stepped (State.holding { State.reset with sp := 0xD000 } [(0x0100, 0xDC), (0x0101, 0x00), (0x0102, 0x02)])
      (fun t => (t.pc, t.ticks)) = some (0x0103, 3) := by decide

theorem test_V46_16_ret :
    stepped (State.holding { State.reset with sp := 0xCFFE, pc := 0x0200 } [(0x0200, 0xC9), (0xCFFE, 0x03), (0xCFFF, 0x01)])
      (fun t => (t.sp, t.pc, t.ticks)) = some (0xD000, 0x0103, 4) := by decide

theorem test_V46_17_retCc :
    stepped (State.holding { State.reset with f := 0x80, sp := 0xCFFE, pc := 0x0200 }
      [(0x0200, 0xC0), (0xCFFE, 0x03), (0xCFFF, 0x01)])
      (fun t => (t.pc, t.ticks)) = some (0x0201, 2) := by decide

theorem test_V46_19_reti :
    stepped (State.holding { State.reset with sp := 0xCFFE, pc := 0x0040 } [(0x0040, 0xD9), (0xCFFE, 0x50), (0xCFFF, 0x01)])
      (fun t => (t.sp, t.pc, t.ime, t.ticks)) = some (0xD000, 0x0150, true, 4) := by decide

theorem test_V46_20_rstT :
    stepped (State.holding { State.reset with sp := 0xD000, pc := 0x0123 } [(0x0123, 0xEF)])
      (fun t => (t.sp, t.pc, t.ticks, [t.byteAt 0xCFFF, t.byteAt 0xCFFE])) = some (0xCFFE, 0x0028, 4, [0x01, 0x24]) := by decide

theorem test_V46_21_rstT :
    stepped (State.holding { State.reset with sp := 0xD000, pc := 0x0123 } [(0x0123, 0xC7)])
      (fun t => (t.sp, t.pc, t.ticks, [t.byteAt 0xCFFF, t.byteAt 0xCFFE])) = some (0xCFFE, 0x0000, 4, [0x01, 0x24]) := by decide

theorem test_V47_1_nop :
    stepped (State.reset.holding [(0x0100, 0x00)])
      (fun t => (t.pc, t.ticks)) = some (0x0101, 1) := by decide

theorem test_V47_2_di :
    stepped (State.holding { State.reset with ime := true } [(0x0100, 0xF3)])
      (fun t => (t.pc, t.ime, t.ticks)) = some (0x0101, false, 1) := by decide

theorem test_V47_3_ei :
    stepped (State.reset.holding [(0x0100, 0xFB)])
      (fun t => (t.pc, t.deferredEnable, t.ticks)) = some (0x0101, true, 1) := by decide

theorem test_V47_7_halt :
    stepped (State.reset.holding [(0x0100, 0x76)])
      (fun t => (t.pc, t.halted, t.ticks)) = some (0x0101, true, 1) := by decide

theorem test_V47_10_dispatch :
    stepped (State.holding { State.reset with halted := true } [(0x0100, 0x04), (0xFF0F, 0x02), (0xFFFF, 0x02)])
      (fun t => (t.b, t.pc, t.halted, t.ticks)) = some (0x01, 0x0101, false, 1) := by decide

theorem test_V47_11_dispatch :
    stepped (State.holding { State.reset with sp := 0xD000, pc := 0x0234, ime := true, halted := true }
      [(0x0234, 0x04), (0xFF0F, 0x10), (0xFFFF, 0x10)])
      (fun t => ((t.sp, t.pc), t.ime, t.halted, t.ticks, [t.byteAt 0xFF0F, t.byteAt 0xCFFF, t.byteAt 0xCFFE])) =
      some ((0xCFFE, 0x0060), false, false, 5, [0x00, 0x02, 0x34]) := by decide

theorem test_V47_12_dispatch :
    stepped (State.holding { State.reset with ime := true, halted := true } [(0x0100, 0x04), (0xFF0F, 0x1E), (0xFFFF, 0x01)])
      (fun t => (t.pc, t.ticks)) = some (0x0100, 1) := by decide

theorem test_V47_13_dispatch :
    stepped (State.holding { State.reset with sp := 0xD000, ime := true } [(0x0100, 0x00), (0xFF0F, 0x1F), (0xFFFF, 0x1F)])
      (fun t => (t.sp, t.pc, t.ime, t.ticks, [t.byteAt 0xFF0F, t.byteAt 0xCFFF, t.byteAt 0xCFFE])) =
      some (0xCFFE, 0x0040, false, 5, [0x1E, 0x01, 0x00]) := by decide

theorem test_V47_14_dispatch :
    stepped (State.holding { State.reset with sp := 0xD000, pc := 0xABCD, ime := true }
      [(0xABCD, 0x00), (0xFF0F, 0xFC), (0xFFFF, 0x1A)])
      (fun t => (t.sp, t.pc, t.ime, t.ticks, [t.byteAt 0xFF0F, t.byteAt 0xCFFF, t.byteAt 0xCFFE])) =
      some (0xCFFE, 0x0058, false, 5, [0xF4, 0xAB, 0xCD]) := by decide

theorem test_V47_15_dispatch :
    stepped (State.holding { State.reset with sp := 0xD000 } [(0x0100, 0x3C), (0xFF0F, 0x1F), (0xFFFF, 0x1F)])
      (fun t => (t.a, t.pc, t.ticks)) = some (0x01, 0x0101, 1) := by decide

theorem test_V47_16_dispatch :
    stepped (State.holding { State.reset with ime := true } [(0x0100, 0x3C), (0xFF0F, 0xE0), (0xFFFF, 0xE0)])
      (fun t => (t.a, t.pc, t.ticks)) = some (0x01, 0x0101, 1) := by decide

theorem test_V47_20_dispatch :
    stepped (State.holding { State.reset with pc := 0x1234, ime := true } [(0x1234, 0x00), (0xFF0F, 0x01), (0xFFFF, 0x01)])
      (fun t => (t.sp, t.pc, t.ime, t.ticks, [t.byteAt 0xFF0F, t.byteAt 0xFFFF, t.byteAt 0xFFFE])) =
      some (0xFFFE, 0x0040, false, 5, [0x00, 0x12, 0x34]) := by decide

/-! ### The `[HL]` forms no single vector of the spec covers: cells of the matrices M43 and M45, which hold for `[HL]` too -/

theorem test_M43_adcAHl :
    stepped (State.holding { State.reset with a := 0xFF, f := 0x10, h := 0xC0 } [(0x0100, 0x8E), (0xC000, 0x00)])
      (fun t => (t.a, t.f, t.ticks)) = some (0x00, 0xB0, 2) := by decide

theorem test_M43_subAHl :
    stepped (State.holding { State.reset with a := 0x10, f := 0x00, h := 0xC0 } [(0x0100, 0x96), (0xC000, 0x01)])
      (fun t => (t.a, t.f, t.ticks)) = some (0x0F, 0x60, 2) := by decide

theorem test_M43_sbcAHl :
    stepped (State.holding { State.reset with a := 0x10, f := 0x10, h := 0xC0 } [(0x0100, 0x9E), (0xC000, 0x00)])
      (fun t => (t.a, t.f, t.ticks)) = some (0x0F, 0x60, 2) := by decide

theorem test_M43_andAHl :
    stepped (State.holding { State.reset with a := 0xFF, f := 0x00, h := 0xC0 } [(0x0100, 0xA6), (0xC000, 0x01)])
      (fun t => (t.a, t.f, t.ticks)) = some (0x01, 0x20, 2) := by decide

theorem test_M43_xorAHl :
    stepped (State.holding { State.reset with a := 0xFF, f := 0x10, h := 0xC0 } [(0x0100, 0xAE), (0xC000, 0xFF)])
      (fun t => (t.a, t.f, t.ticks)) = some (0x00, 0x80, 2) := by decide

theorem test_M43_orAHl :
    stepped (State.holding { State.reset with a := 0xF0, f := 0x00, h := 0xC0 } [(0x0100, 0xB6), (0xC000, 0x10)])
      (fun t => (t.a, t.f, t.ticks)) = some (0xF0, 0x00, 2) := by decide

theorem test_M45_rrcHl :
    stepped (State.holding { State.reset with f := 0x10, h := 0xC0 } [(0x0100, 0xCB), (0x0101, 0x0E), (0xC000, 0x01)])
      (fun t => (t.byteAt 0xC000, t.f, t.ticks)) = some (0x80, 0x10, 4) := by decide

theorem test_M45_rrHl :
    stepped (State.holding { State.reset with f := 0x10, h := 0xC0 } [(0x0100, 0xCB), (0x0101, 0x1E), (0xC000, 0xFE)])
      (fun t => (t.byteAt 0xC000, t.f, t.ticks)) = some (0xFF, 0x00, 4) := by decide

theorem test_M45_slaHl :
    stepped (State.holding { State.reset with f := 0x10, h := 0xC0 } [(0x0100, 0xCB), (0x0101, 0x26), (0xC000, 0xAA)])
      (fun t => (t.byteAt 0xC000, t.f, t.ticks)) = some (0x54, 0x10, 4) := by decide

theorem test_M45_sraHl :
    stepped (State.holding { State.reset with f := 0x00, h := 0xC0 } [(0x0100, 0xCB), (0x0101, 0x2E), (0xC000, 0x80)])
      (fun t => (t.byteAt 0xC000, t.f, t.ticks)) = some (0xC0, 0x00, 4) := by decide

theorem test_M45_srlHl :
    stepped (State.holding { State.reset with f := 0x00, h := 0xC0 } [(0x0100, 0xCB), (0x0101, 0x3E), (0xC000, 0x01)])
      (fun t => (t.byteAt 0xC000, t.f, t.ticks)) = some (0x00, 0x90, 4) := by decide

/-! ### Errors: V60 -/

theorem test_V60_illegal :
    step (State.holding { State.reset with pc := 0x0150 } [(0x0150, 0xD3)]) = .fault (.invalidOpcode 0xD3 0x0150) ∧
    step (State.holding { State.reset with pc := 0x0150 } [(0x0150, 0xDB)]) = .fault (.invalidOpcode 0xDB 0x0150) ∧
    step (State.holding { State.reset with pc := 0x0150 } [(0x0150, 0xDD)]) = .fault (.invalidOpcode 0xDD 0x0150) ∧
    step (State.holding { State.reset with pc := 0x0150 } [(0x0150, 0xE3)]) = .fault (.invalidOpcode 0xE3 0x0150) ∧
    step (State.holding { State.reset with pc := 0x0150 } [(0x0150, 0xE4)]) = .fault (.invalidOpcode 0xE4 0x0150) ∧
    step (State.holding { State.reset with pc := 0x0150 } [(0x0150, 0xEB)]) = .fault (.invalidOpcode 0xEB 0x0150) ∧
    step (State.holding { State.reset with pc := 0x0150 } [(0x0150, 0xEC)]) = .fault (.invalidOpcode 0xEC 0x0150) ∧
    step (State.holding { State.reset with pc := 0x0150 } [(0x0150, 0xED)]) = .fault (.invalidOpcode 0xED 0x0150) ∧
    step (State.holding { State.reset with pc := 0x0150 } [(0x0150, 0xF4)]) = .fault (.invalidOpcode 0xF4 0x0150) ∧
    step (State.holding { State.reset with pc := 0x0150 } [(0x0150, 0xFC)]) = .fault (.invalidOpcode 0xFC 0x0150) ∧
    step (State.holding { State.reset with pc := 0x0150 } [(0x0150, 0xFD)]) = .fault (.invalidOpcode 0xFD 0x0150) := by
  refine ⟨?_, ?_, ?_, ?_, ?_, ?_, ?_, ?_, ?_, ?_, ?_⟩ <;> rfl

theorem test_V60_10_stop :
    step (State.reset.holding [(0x0100, 0x10), (0x0101, 0x00)]) = .fault (.invalidOpcode 0x10 0x0100) := rfl

theorem test_V60_a_read_unmapped :
    step (split (State.holding { State.reset with h := 0x90 } [(0x0100, 0x7E)])) = .fault (.outOfRange 0x9000 .read) := rfl

theorem test_V60_c_push_unmapped :
    step (split (State.holding { State.reset with sp := 0x8001, b := 0x12, c := 0x34 } [(0x0100, 0xC5)])) =
      .fault (.outOfRange 0x8000 .write) := rfl

theorem test_V60_f_illegal_before_operands :
    step (split (State.holding { State.reset with pc := 0x7FFF } [(0x7FFF, 0xDD)])) = .fault (.invalidOpcode 0xDD 0x7FFF) := rfl

theorem test_V60_h_not_taken_reads_operands :
    step (split (State.holding { State.reset with pc := 0x7FFF } [(0x7FFF, 0xCA)])) = .fault (.outOfRange 0x8000 .read) := rfl

/-! ### The order of the bus operations: V42.3, V47.11 -/

theorem test_V42_3_order :
    stepped (State.holding { State.reset with sp := 0xDFF0 } [(0x0100, 0x08), (0x0101, 0x00), (0x0102, 0xC1)])
      (fun t => t.busLog.reverse) = some [.read 0xFFFF 0x00, .read 0xFF0F 0x00, .read 0x0100 0x08, .read 0x0101 0x00,
        .read 0x0102 0xC1, .write 0xC100 0xF0, .write 0xC101 0xDF] := by decide

theorem test_V47_11_order :
    stepped (State.holding { State.reset with halted := true, ime := true, sp := 0xD000, pc := 0x0234 }
      [(0x0234, 0x04), (0xFF0F, 0x10), (0xFFFF, 0x10)]) (fun t => t.busLog.reverse) =
      some [.read 0xFFFF 0x10, .read 0xFF0F 0x10, .write 0xFF0F 0x00, .write 0xCFFF 0x02, .write 0xCFFE 0x34] := by decide

/-! ### What other agents do between steps (R75), and the placing of a table word -/

theorem test_environment_stores_before_the_step :
    stepped ({ State.reset with env := [[.store 0x0100 0x3C], [.store 0x0101 0x76]] } : State)
      (fun t => (t.a, t.env, t.byteAt 0x0101)) = some (0x01, [[.store 0x0101 0x76]], 0x00) := by decide

theorem test_environment_moves_the_bus_state :
    stepped ({ State.reset with env := [[.device 5]] } : State) (fun t => (t.device, t.env)) = some (5, []) := by decide

/-! ### A bus that is not plain memory: ROM, and the parameter `BUS` -/

/-- 0x0000 to 0x7FFF is ROM, the rest is plain memory. -/
def rom (s : State) : State := { s with claims := [⟨0x0000, 0x7FFF, .memory, .dropped⟩, ⟨0x8000, 0xFFFF, .memory, .memory⟩] }

theorem test_rom_takes_a_store_and_forgets_it :
    stepped (rom (State.holding { State.reset with a := 0x55, h := 0x20 } [(0x0100, 0x77), (0x2000, 0x11)]))
      (fun t => (t.byteAt 0x2000, t.busLog.head?)) = some (0x11, some (.write 0x2000 0x55)) := by decide

/-- The whole bus is the parameter: every read and every write is its functions' affair. -/
def anyBus (n : Nat) : State := { State.reset with device := n, claims := [⟨0x0000, 0xFFFF, .device, .device⟩] }

theorem test_any_bus_answers_as_its_functions_say (n : Nat) (x : Byte) (m : Nat)
    (h : Config.deviceRead n 0x8000 = some (x, m)) :
    exec (.ldR8Hl .a) { anyBus n with h := 0x80 } =
      .next { anyBus n with h := 0x80, a := x, device := m, ticks := 2, busLog := [.read 0x8000 x] } := by
  have hr : State.readAnswer { anyBus n with h := 0x80 } 0x8000 = some (x, m) := h
  have hc : State.canRead { anyBus n with h := 0x80 } 0x8000 = true := by rw [State.canRead, hr]; rfl
  have hl : State.hl { anyBus n with h := 0x80 } = 0x8000 := by
    show word 0x80 0x00 = 0x8000; decide
  show execLdR8Hl .a _ = _
  rw [execLdR8Hl, hl, busRead_claimed hc]
  simp only [State.byteAt, State.afterRead, hr]; rfl

theorem test_table_words :
    decodeTableWord 8 0x78 = some (.ldR8R8 .a .b) ∧ decodeTableWord 8 0xCB = some .prefixCb ∧
    decodeTableWord 16 0x7FCB = some (.bitR8 7 .a) ∧ decodeTableWord 24 0x000200C3 = some .jpA16 ∧
    decodeTableWord 8 0xDD = some .illegalDD := by decide

theorem test_withFetchWord_runs_the_word :
    stepped (State.reset.withFetchWord 16 0x2A06) (fun t => (t.b, t.pc)) = some (0x2A, 0x0102) := by decide

theorem test_withFetchWord_on_a_bus_that_answers_nothing :
    stepped (({ State.reset with claims := [], halted := true, ime := true, env := [[.store 0xFF0F 0xFF]] } : State).withFetchWord
      16 0x2A06) (fun t => (t.b, t.pc, t.halted)) = some (0x2A, 0x0102, false) := by decide

theorem test_withFetchWord_of_a_prefixed_row :
    stepped (State.reset.withFetchWord 16 0xCBCB) (fun t => (t.e, t.pc)) = some (0x02, 0x0102) := by decide

/-! ### Witnesses: states that meet the hypotheses of the obligations, clause by clause, at the ends of the ranges -/

/-- An enabled request on every line. -/
def requested (s : State) : State := s.holding [(0xFFFF, 0x1F), (0xFF0F, 0x1F)]

/-- The addresses 0x0100 and 0x0101 are answered, and no other; `PC` = 0x0100. -/
def operandsOnly : State := { State.reset with claims := [⟨0x0100, 0x0101, .memory, .memory⟩] }

theorem witness_StepKeepsInvariant : State.reset.Inv ∧ ∃ t, step State.reset = .next t :=
  ⟨⟨Memory.wf_reset, by decide, by decide, by decide, rfl⟩, _, rfl⟩

theorem reset_readRule (x : Word) : State.reset.readRule x = .memory ∧ State.reset.writeRule x = .memory := by
  have h : x ≤ (0xFFFF : Word) := by
    have := x.isLt; simp only [BitVec.le_def]; exact Nat.le_of_lt_succ this
  have h' : (0x0000 : Word) ≤ x := by simp [BitVec.le_def]
  simpa [State.readRule, State.writeRule, State.reset, readRuleIn, writeRuleIn, Region.covers] using And.intro h' h

theorem reset_answers : State.reset.BusAnswers := by
  intro d x
  refine ⟨?_, fun v => ?_⟩
  · rw [State.canRead, State.readAnswer_memory (by exact (reset_readRule x).1)]; rfl
  · rw [State.canWrite, State.writeAnswer_memory (by exact (reset_readRule x).2)]; rfl

theorem witness_DecodeReadsBackEveryEncoding :
    (WellFormed (.popR16 .hl) ∧ Instr.popR16 .hl ≠ .prefixCb) ∧ (WellFormed .prefixCb ∧ ([] : List Byte) = []) := by decide

theorem witness_MemoryReadsBackWrites : (0xFFFF : Word) ≠ 0x0000 ∧ Memory.wf [(0x0000, 0x01#8), (0xFFFF, 0xFF#8)] := by decide

theorem witness_CanonicalMemoriesReadingAlikeAreEqual :
    Memory.wf [(0xFFFF, 0xFF#8)] ∧ Memory.wf (Memory.write [] 0xFFFF 0xFF) ∧
      ∀ x : Word, Memory.read [(0xFFFF, 0xFF#8)] x.toNat = (Memory.write [] 0xFFFF 0xFF).read x.toNat :=
  ⟨by decide, by decide, fun _ => rfl⟩

/-- One range of each kind: refused, memory, dropped, device; and none. -/
def kinds : State :=
  { State.reset with claims := [⟨0x0000, 0x0FFF, .refused, .refused⟩, ⟨0x1000, 0x1FFF, .memory, .memory⟩,
    ⟨0x2000, 0x2FFF, .memory, .dropped⟩, ⟨0x3000, 0xFFFF, .device, .device⟩] }

theorem witness_BusOperationsFollowTheClaimedRanges :
    (kinds.readRule 0x0FFF = .refused ∧ kinds.readRule 0x1000 = .memory ∧ kinds.readRule 0x2FFF = .memory ∧
      kinds.readRule 0xFFFF = .device) ∧
    (kinds.writeRule 0x0FFF = .refused ∧ kinds.writeRule 0x1FFF = .memory ∧ kinds.writeRule 0x2000 = .dropped ∧
      kinds.writeRule 0x3000 = .device) ∧ deaf.claims = [] := by decide

theorem witness_RegisterLoads : edge.canRead edge.hl = true ∧ edge.canRead edge.pc = true ∧ deaf.canRead deaf.hl = false ∧
    deaf.canRead deaf.pc = false ∧ Reg8.b ≠ .a := by decide

theorem witness_StoresThroughHl : edge.canWrite edge.hl (edge.reg .b) = true ∧ edge.canRead edge.pc = true ∧
    edge.pastImm8.canWrite edge.hl (edge.byteAt edge.pc) = true ∧ readOnly.canWrite readOnly.hl (readOnly.reg .b) = false ∧
    readOnly.canRead readOnly.pc = true ∧ readOnly.pastImm8.canWrite readOnly.hl (readOnly.byteAt readOnly.pc) = false ∧
    deaf.canRead deaf.pc = false := by decide

theorem witness_AccumulatorThroughPairs :
    (edge.canRead edge.bc = true ∧ edge.canRead edge.de = true ∧ edge.canRead edge.hl = true) ∧
    (edge.canWrite edge.bc edge.a = true ∧ edge.canWrite edge.de edge.a = true ∧ edge.canWrite edge.hl edge.a = true) ∧
    (deaf.canRead deaf.bc = false ∧ deaf.canRead deaf.de = false ∧ deaf.canRead deaf.hl = false) ∧
    (deaf.canWrite deaf.bc deaf.a = false ∧ deaf.canWrite deaf.de deaf.a = false ∧ deaf.canWrite deaf.hl deaf.a = false) := by decide

theorem operands16_edge : edge.Operands16 := by unfold State.Operands16; decide

theorem operands16_readOnly : readOnly.Operands16 := by unfold State.Operands16; decide

/-- Both clauses of `Fetches16`: the first operand byte, and the second past the end of the address space, are not answered. -/
theorem witness_Fetches16 : deaf.canRead deaf.pc = false ∧ ((only 0xFFFF).canRead (only 0xFFFF).pc = true ∧
    ((only 0xFFFF).afterRead (only 0xFFFF).pc).canRead ((only 0xFFFF).pc + 1) = false) := by decide

/-- Both clauses of `PushFails`, with operands and the condition of every conditional form met. -/
theorem witness_PushFails :
    (readOnly.canWrite (readOnly.sp - 1) 0x00 = false ∧ readOnly.Operands16 ∧ condHolds .z readOnly = true ∧
      readOnly.pastImm16.canWrite (readOnly.sp - 1) (hiByte (readOnly.pc + 2)) = false) ∧
    (let s := onlyWrites 0xFFFF
     s.canWrite (s.sp - 1) 0x00 = true ∧ (s.afterWrite (s.sp - 1) 0x00).canWrite (s.sp - 2) 0x00 = false ∧
     s.Operands16 ∧ condHolds .z s = true ∧ s.pastImm16.canWrite (s.sp - 1) (hiByte (s.pc + 2)) = true ∧
     (s.pastImm16.afterWrite (s.sp - 1) (hiByte (s.pc + 2))).canWrite (s.sp - 2) (loByte (s.pc + 2)) = false) := by
  unfold State.Operands16; decide

/-- Both clauses of `PopFails`. -/
theorem witness_PopFails : (deaf.canRead deaf.sp = false ∧ condHolds .z deaf = true) ∧
    ((only 0x0000).canRead (only 0x0000).sp = true ∧ condHolds .z (only 0x0000) = true ∧
      ((only 0x0000).afterRead (only 0x0000).sp).canRead ((only 0x0000).sp + 1) = false) := by decide

theorem stackReadable_edge : edge.StackReadable := by unfold State.StackReadable; decide

theorem stackWritable_edge : edge.StackWritable edge.bc ∧ edge.StackWritable edge.pc ∧
    edge.pastImm16.StackWritable (edge.pc + 2) := by unfold State.StackWritable; decide

theorem witness_AccumulatorAtAddresses :
    (edge.Operands16 ∧ edge.pastImm16.canRead edge.operand16 = true ∧ edge.pastImm16.canWrite edge.operand16 edge.a = true) ∧
    (edge.canRead edge.pc = true ∧ edge.pastImm8.canRead (0xFF#8 ++ edge.byteAt edge.pc) = true ∧
      edge.pastImm8.canWrite (0xFF#8 ++ edge.byteAt edge.pc) edge.a = true) ∧
    (edge.canRead (0xFF#8 ++ edge.c) = true ∧ edge.canWrite (0xFF#8 ++ edge.c) edge.a = true) ∧
    (let s := operandsOnly
     s.Operands16 ∧ s.pastImm16.canRead s.operand16 = false ∧ s.pastImm16.canWrite s.operand16 s.a = false ∧
     s.pastImm8.canRead (0xFF#8 ++ s.byteAt s.pc) = false ∧ s.pastImm8.canWrite (0xFF#8 ++ s.byteAt s.pc) s.a = false) ∧
    (deaf.canRead (0xFF#8 ++ deaf.c) = false ∧ deaf.canWrite (0xFF#8 ++ deaf.c) deaf.a = false ∧
      deaf.canRead deaf.pc = false) := by
  unfold State.Operands16; decide

theorem witness_SixteenBitLoads : edge.Operands16 := operands16_edge

/-- The operand address 0xFFFF, whose second byte is at 0x0000. -/
def storeAtTop (s : State) : State := s.holding [(0xFFFF, 0xFF), (0x0000, 0xFF)]

theorem witness_StoreStackPointer :
    (let s := storeAtTop edge
     s.operand16 = 0xFFFF ∧ s.Operands16 ∧ s.pastImm16.canWrite s.operand16 (loByte s.sp) = true ∧
     (s.pastImm16.afterWrite s.operand16 (loByte s.sp)).canWrite (s.operand16 + 1) (hiByte s.sp) = true) ∧
    (let s := storeAtTop readOnly
     s.operand16 = 0xFFFF ∧ s.Operands16 ∧ s.pastImm16.canWrite s.operand16 (loByte s.sp) = false) ∧
    (let s := storeAtTop (onlyWrites 0xFFFF)
     s.operand16 = 0xFFFF ∧ s.Operands16 ∧ s.pastImm16.canWrite s.operand16 (loByte s.sp) = true ∧
     (s.pastImm16.afterWrite s.operand16 (loByte s.sp)).canWrite (s.operand16 + 1) (hiByte s.sp) = false) := by
  unfold State.Operands16; decide

theorem witness_PushStoresHighByteFirst : edge.StackWritable (edge.regStk .bc) ∧ edge.writeRule (edge.sp - 1) = .memory ∧
    edge.writeRule (edge.sp - 2) = .memory := ⟨stackWritable_edge.1, by decide, by decide⟩

theorem witness_PopReadsLowByteFirst : edge.StackReadable ∧ R16Stk.hl ≠ .af := ⟨stackReadable_edge, by decide⟩

theorem witness_PopAfDropsLowNibble : edge.StackReadable := stackReadable_edge

theorem witness_StackPointerRelative : edge.canRead edge.pc = true ∧ deaf.canRead deaf.pc = false := by decide

/-- The hypotheses of the three accumulator statements (`AluForms`). -/
theorem witness_AluForms : edge.canRead edge.hl = true ∧ edge.canRead edge.pc = true ∧ deaf.canRead deaf.hl = false ∧
    deaf.canRead deaf.pc = false := by decide

theorem witness_IncrementDecrementByte :
    (edge.canRead edge.hl = true ∧ (edge.afterRead edge.hl).canWrite edge.hl (edge.byteAt edge.hl + 1) = true ∧
      (edge.afterRead edge.hl).canWrite edge.hl (edge.byteAt edge.hl - 1) = true) ∧ deaf.canRead deaf.hl = false ∧
    (let s := readOnly
     s.canRead s.hl = true ∧ (s.afterRead s.hl).canWrite s.hl (s.byteAt s.hl + 1) = false ∧
     (s.afterRead s.hl).canWrite s.hl (s.byteAt s.hl - 1) = false) := by decide

/-- The hypotheses of the addition-mode clause of `DecimalAdjust`, for a value of `A` on entry, the result and the carry. -/
def daaCase (a r : Byte) (c : Bool) : Prop :=
  let s : State := { State.reset with a := a }
  let six := s.hf = true ∨ s.a.toNat % 16 > 9
  let sixty := s.cf = true ∨ s.a.toNat > 0x99
  s.nf = false ∧ (six → sixty → r = s.a + 0x66) ∧ (six → ¬sixty → r = s.a + 0x06) ∧ (¬six → sixty → r = s.a + 0x60) ∧
    (¬six → ¬sixty → r = s.a) ∧ (c = true ↔ sixty)

/-- Subtraction mode; and in addition mode the four cases of the two tests, `A` at their boundaries. -/
theorem witness_DecimalAdjust : edge.nf = true ∧ daaCase 0x9A 0x00 true ∧ daaCase 0x0A 0x10 false ∧ daaCase 0xA0 0x00 true ∧
    daaCase 0x99 0x99 false := by
  refine ⟨by decide, ?_, ?_, ?_, ?_⟩ <;> exact ⟨rfl, by decide, by decide, by decide, by decide, by decide⟩

/-- Two operands of 99 with the carry set. -/
def ninetyNines : State := { State.reset with a := 0x99, b := 0x99, f := 0x10 }

theorem witness_DaaGivesPackedDecimals : isBcd ninetyNines.a ∧ isBcd (ninetyNines.reg .b) ∧
    (∃ t u, exec (.addAR8 .b) ninetyNines = .next t ∧ exec .daa t = .next u) ∧
    (∃ t u, exec (.adcAR8 .b) ninetyNines = .next t ∧ exec .daa t = .next u) ∧
    (∃ t u, exec (.subAR8 .b) ninetyNines = .next t ∧ exec .daa t = .next u) ∧
    (∃ t u, exec (.sbcAR8 .b) ninetyNines = .next t ∧ exec .daa t = .next u) :=
  ⟨by unfold isBcd; decide, by unfold isBcd; decide, ⟨_, _, rfl, rfl⟩, ⟨_, _, rfl, rfl⟩, ⟨_, _, rfl, rfl⟩, ⟨_, _, rfl, rfl⟩⟩

/-- The hypotheses of the two statements on prefixed rotates and shifts (`RotForms`). -/
theorem witness_RotForms : (edge.canRead edge.hl = true ∧
      ∀ v : Byte, (edge.afterRead edge.hl).canWrite edge.hl v = true) ∧ deaf.canRead deaf.hl = false ∧
    (readOnly.canRead readOnly.hl = true ∧ ∀ v : Byte, (readOnly.afterRead readOnly.hl).canWrite readOnly.hl v = false) :=
  ⟨⟨by decide, fun _ => rfl⟩, by decide, by decide, fun _ => rfl⟩

theorem witness_BitTests : edge.canRead edge.hl = true ∧ deaf.canRead deaf.hl = false := by decide

/-- `RES 7` of 0xFF in a register, `SET 0` of 0x00 in memory. -/
theorem witness_BitResetAndSet :
    (∀ j, j < 8 → (0x7F#8).getLsbD j = if j = (7 : BitVec 3).toNat then false else (edge.reg .a).getLsbD j) ∧
    (∀ j, j < 8 → (0x01#8).getLsbD j = if j = (0 : BitVec 3).toNat then true else (edge.byteAt edge.hl).getLsbD j) ∧
    edge.canRead edge.hl = true ∧ (edge.afterRead edge.hl).canWrite edge.hl 0x01 = true ∧ readOnly.canRead readOnly.hl = true ∧
    (readOnly.afterRead readOnly.hl).canWrite readOnly.hl 0x01 = false ∧ deaf.canRead deaf.hl = false := by decide

theorem witness_PrefixRunsSecondByte : (edge.holding [(0xFFFF, 0xCB)]).canRead (edge.holding [(0xFFFF, 0xCB)]).pc = true ∧
    (edge.holding [(0xFFFF, 0xCB)]).byteAt (edge.holding [(0xFFFF, 0xCB)]).pc = 0xCB ∧ deaf.canRead deaf.pc = false := by decide

theorem witness_UnconditionalJumps : edge.Operands16 ∧ edge.canRead edge.pc = true ∧ deaf.canRead deaf.pc = false :=
  ⟨operands16_edge, by decide, by decide⟩

/-- Operands readable with each condition met and not met. -/
theorem witness_ConditionalJumps : (edge.Operands16 ∧ ({ edge with f := 0x00 } : State).Operands16) ∧
    (condHolds .z edge = true ∧ condHolds .c edge = true ∧ condHolds .nz edge = false ∧ condHolds .nc edge = false) ∧
    (condHolds .nz { edge with f := 0x00 } = true ∧ condHolds .nc { edge with f := 0x00 } = true ∧
      condHolds .z { edge with f := 0x00 } = false ∧ condHolds .c { edge with f := 0x00 } = false) ∧
    deaf.canRead deaf.pc = false :=
  ⟨⟨operands16_edge, operands16_edge⟩, by decide, by decide, by decide⟩

theorem witness_CallsAndRestarts : edge.Operands16 ∧ edge.pastImm16.StackWritable (edge.pc + 2) ∧ edge.StackWritable edge.pc :=
  ⟨operands16_edge, stackWritable_edge.2.2, stackWritable_edge.2.1⟩

theorem witness_ConditionalCalls : edge.Operands16 ∧ edge.pastImm16.StackWritable (edge.pc + 2) ∧ condHolds .c edge = true ∧
    condHolds .nc edge = false := ⟨operands16_edge, stackWritable_edge.2.2, by decide, by decide⟩

theorem witness_Returns : edge.StackReadable ∧ condHolds .c edge = true ∧ condHolds .nc edge = false :=
  ⟨stackReadable_edge, by decide, by decide⟩

theorem witness_ReturnFromInterruptSetsIme : edge.StackReadable := stackReadable_edge

theorem witness_HaltEntersHaltedOrArmsTheBug :
    (edge.IrqReadable ∧ edge.pending = 0) ∧
    ((requested edge).IrqReadable ∧ (requested edge).pending ≠ 0 ∧ (requested edge).ime = false) ∧
    ((requested { edge with ime := true }).pending ≠ 0 ∧ (requested { edge with ime := true }).ime = true) ∧
    deaf.canRead 0xFFFF = false ∧
    ((only 0xFFFF).canRead 0xFFFF = true ∧ ((only 0xFFFF).afterRead 0xFFFF).canRead 0xFF0F = false) := by
  unfold State.IrqReadable; decide

theorem witness_IllegalBytesRaiseInvalidOpcode : 0xFD#8 ∈ [0xD3#8, 0xDB#8, 0xDD#8, 0xE3#8, 0xE4#8, 0xEB#8, 0xEC#8, 0xED#8,
    0xF4#8, 0xFC#8, 0xFD#8] := by decide

/-- The conditions of a fetch: nothing pending, or `IME` = 0 with everything pending. -/
theorem witness_StepRunsTheDecodedInstruction :
    (edge.fault = none ∧ edge.begun.IrqReadable ∧ edge.begun.irqRead.canRead edge.begun.irqRead.pc = true ∧
      edge.begun.irqRead.halted = false ∧ edge.begun.pending = 0) ∧
    ((requested edge).begun.irqRead.halted = false ∧ (requested edge).begun.pending ≠ 0 ∧
      (requested edge).begun.irqRead.ime = false) ∧
    (edge.env = [] ∧ ({ edge with env := [[.store 0xFFFF 0x1F]] } : State).env = [[.store 0xFFFF 0x1F]]) := by
  unfold State.IrqReadable; decide

/-- A machine whose next step is preceded by another agent's request of every line. -/
def requestedBefore (s : State) : State := { s with env := [[.store 0xFF0F 0x1F]] }.holding [(0xFFFF, 0x1F)]

/-- Idle; dispatch and wake on a request that another agent stores just before the step; and a wake whose fetch fails. -/
theorem witness_HaltedStep :
    (let s : State := { edge with halted := true }
     s.fault = none ∧ s.begun.halted = true ∧ s.begun.IrqReadable ∧ s.begun.pending = 0) ∧
    (let s := requestedBefore { edge with halted := true, ime := true }
     s.fault = none ∧ s.begun.halted = true ∧ s.begun.IrqReadable ∧ s.begun.pending ≠ 0 ∧ s.begun.irqRead.ime = true) ∧
    (let s := requestedBefore { edge with halted := true }
     s.fault = none ∧ s.begun.halted = true ∧ s.begun.IrqReadable ∧ s.begun.pending ≠ 0 ∧ s.begun.irqRead.ime = false ∧
     s.begun.irqRead.canRead s.begun.irqRead.pc = true) ∧
    (let s := requestedBefore { State.reset with halted := true, claims := [⟨0xFF0F, 0xFFFF, .memory, .memory⟩] }
     s.fault = none ∧ s.begun.halted = true ∧ s.begun.IrqReadable ∧ s.begun.pending ≠ 0 ∧ s.begun.irqRead.ime = false ∧
     s.begun.irqRead.canRead s.begun.irqRead.pc = false) := by
  unfold State.IrqReadable; decide

/-- All five lines requested by another agent just before the step: bit 0 is taken; only line 4, from Halted: bit 4 is. And the three
writes that can fail. -/
theorem witness_DispatchTakesTheLowestPendingInterrupt :
    (let s := requestedBefore { edge with ime := true }
     s.fault = none ∧ s.begun.ime = true ∧ s.begun.IrqReadable ∧
     s.begun.pending.getLsbD 0 = true ∧ (∀ j, j < 0 → s.begun.pending.getLsbD j = false) ∧
     (∀ j, j < 8 → (0x1E#8).getLsbD j = (s.begun.ifRead.getLsbD j && !decide (j = 0))) ∧
     s.begun.irqRead.canWrite 0xFF0F 0x1E = true ∧ (s.begun.irqRead.afterWrite 0xFF0F 0x1E).StackWritable s.begun.irqRead.pc) ∧
    (let s := ({ edge with ime := true, halted := true } : State).holding [(0xFFFF, 0x10), (0xFF0F, 0xF0)]
     s.fault = none ∧ s.begun.ime = true ∧ s.begun.IrqReadable ∧
     s.begun.pending.getLsbD 4 = true ∧ (∀ j, j < 4 → s.begun.pending.getLsbD j = false) ∧
     (∀ j, j < 8 → (0xE0#8).getLsbD j = (s.begun.ifRead.getLsbD j && !decide (j = 4)))) ∧
    (requested { readOnly with ime := true }).begun.irqRead.canWrite 0xFF0F 0x1E = false ∧
    (let u := (requested { onlyWrites 0xFF0F with ime := true }).begun.irqRead
     u.canWrite 0xFF0F 0x1E = true ∧ (u.afterWrite 0xFF0F 0x1E).canWrite (u.sp - 1) (hiByte u.pc) = false) ∧
    (let u := (requested { edge with
       ime := true
       claims := [⟨0xFF0F, 0xFF0F, .memory, .memory⟩, ⟨0xFFFF, 0xFFFF, .memory, .memory⟩,
         ⟨0x0000, 0xFFFF, .memory, .refused⟩] }).begun.irqRead
     let w := u.afterWrite 0xFF0F 0x1E
     u.canWrite 0xFF0F 0x1E = true ∧ w.canWrite (u.sp - 1) (hiByte u.pc) = true ∧
     (w.afterWrite (u.sp - 1) (hiByte u.pc)).canWrite (u.sp - 2) (loByte u.pc) = false) := by
  unfold State.IrqReadable State.StackWritable; decide

theorem witness_HaltBugReadsTheByteTwice :
    let s := requestedBefore (({ State.reset with haltBugArmed := true } : State).holding [(0x0100, 0x3E)])
    let u := s.begun.irqRead
    s.fault = none ∧ s.begun.halted = false ∧ s.begun.haltBugArmed = true ∧ s.begun.ime = false ∧ s.begun.IrqReadable ∧
    u.canRead u.pc = true ∧ (u.afterRead u.pc).canRead u.pc = true ∧ u.readRule u.pc = .memory ∧
    decodeOpcode (u.byteAt u.pc) = .ldR8D8 .a := by
  unfold State.IrqReadable; decide

/-- The state one step ahead; the state itself where the step does not end in a next state. -/
def afterStep (s : State) : State :=
  match step s with
  | .next t => t
  | _ => s

/-- `EI` at 0xFF80, then the byte `next`, with every request stored by another agent before the first step. -/
def eiThen (next : Byte) : State := requestedBefore (({ State.reset with pc := 0xFF80 } : State).holding [(0xFF80, 0xFB), (0xFF81, next)])

/-- `EI`, then `NOP`, `DI`, `EI`, `HALT`, `RET`: the hypotheses of the first step and of the second. -/
theorem witness_EiTakesEffectAfterOneInstruction : ∀ next ∈ [0x00#8, 0xF3#8, 0xFB#8, 0x76#8, 0xC9#8],
    let s := eiThen next
    let u := s.begun.irqRead
    let v := (afterStep s).begun.irqRead
    let w : State := { v.afterRead v.pc with opAddr := v.pc, pc := v.pc + 1, ime := true, deferredEnable := false }
    s.fault = none ∧ s.begun.halted = false ∧ s.begun.haltBugArmed = false ∧ s.begun.ime = false ∧
    s.begun.deferredEnable = false ∧ s.begun.IrqReadable ∧ u.canRead u.pc = true ∧ u.byteAt u.pc = 0xFB ∧
    (afterStep s).begun.IrqReadable ∧ (afterStep s).begun.pending ≠ 0 ∧ v.canRead v.pc = true ∧ v.byteAt v.pc = next ∧
    w.IrqReadable ∧ w.StackReadable := by
  unfold State.IrqReadable State.StackReadable; decide

/-- The second step's fetch fails: nothing answers at 0x8000. -/
theorem witness_EiTakesEffectAfterOneInstruction_fetch :
    let s : State := split (State.holding { State.reset with pc := 0x7FFF } [(0x7FFF, 0xFB)])
    let v := (afterStep s).begun.irqRead
    s.begun.IrqReadable ∧ s.begun.irqRead.byteAt s.begun.irqRead.pc = 0xFB ∧ (afterStep s).begun.IrqReadable ∧
    v.canRead v.pc = false := by
  unfold State.IrqReadable; decide

theorem witness_StepReportsTheFirstError :
    ({ edge with fault := some (.invalidOpcode 0xDD 0xFFFF) } : State).fault = some (.invalidOpcode 0xDD 0xFFFF) ∧
    (deaf.fault = none ∧ deaf.begun.canRead 0xFFFF = false) ∧
    ((only 0xFFFF).fault = none ∧ (only 0xFFFF).begun.canRead 0xFFFF = true ∧
      ((only 0xFFFF).begun.afterRead 0xFFFF).canRead 0xFF0F = false) ∧
    (let s : State := { State.reset with claims := [⟨0xFF0F, 0xFFFF, .memory, .memory⟩] }
     let u := s.begun.irqRead
     s.fault = none ∧ s.begun.IrqReadable ∧ s.begun.halted = false ∧ s.begun.pending = 0 ∧ u.canRead u.pc = false) ∧
    (let s : State := requested { State.reset with halted := true, claims := [⟨0xFF0F, 0xFFFF, .memory, .memory⟩] }
     let u := s.begun.irqRead
     s.begun.IrqReadable ∧ s.begun.pending ≠ 0 ∧ s.begun.ime = false ∧ u.canRead u.pc = false) ∧
    (let s : State := ({ State.reset with pc := 0xFF0E, claims := [⟨0xFF0E, 0xFFFF, .memory, .memory⟩] } : State).holding [(0xFF0E, 0x10)]
     let u := s.begun.irqRead
     s.fault = none ∧ s.begun.IrqReadable ∧ s.begun.halted = false ∧ s.begun.pending = 0 ∧ u.canRead u.pc = true ∧
     raises (decodeOpcode (u.byteAt u.pc)) = true) := by
  unfold State.IrqReadable; decide

theorem witness_OnlyTheFlagTableWritesFlags : (∃ t, exec (.ldR16D16 .sp) edge = .next t) ∧
    writesFlags (effective (.ldR16D16 .sp) edge) = false ∧ (∃ t, exec .prefixCb (edge.holding [(0xFFFF, 0xC7)]) = .next t) ∧
    writesFlags (effective .prefixCb (edge.holding [(0xFFFF, 0xC7)])) = false := ⟨⟨_, rfl⟩, by decide, ⟨_, rfl⟩, by decide⟩

theorem witness_RegistersOutsideTheDestinationsAreKept : (∃ t, exec .ldAHli edge = .next t) ∧
    mayWriteReg (effective .ldAHli edge) .b = false ∧ mayWriteSp (effective .ldAHli edge) = false ∧
    transfersControl .ldAHli = false := ⟨⟨_, rfl⟩, by decide⟩

theorem witness_MemoryOutsideTheStoresIsKept : (∃ t, exec (.pushR16 .bc) edge = .next t) ∧
    (0x0000 : Word) ∉ storesTo (effective (.pushR16 .bc) edge) edge := ⟨⟨_, rfl⟩, by decide⟩

theorem witness_OnlyFourInstructionsMoveTheRunState :
    ((∃ t, exec .nop edge = .next t) ∧ movesRunState .nop = false) ∧
    executed .halt edge (fun t => t.halted != edge.halted) = some true ∧
    executed .halt (requested edge) (fun t => t.haltBugArmed != edge.haltBugArmed) = some true ∧
    executed .ei edge (fun t => t.deferredEnable != edge.deferredEnable) = some true ∧
    executed .di { edge with ime := true } (fun t => t.ime != true) = some true ∧
    executed .reti edge (fun t => t.ime != edge.ime) = some true := ⟨⟨⟨_, rfl⟩, rfl⟩, by decide⟩

theorem witness_CostsAreThoseOfTheCycleTable : (∃ t, exec (.retCc .z) edge = .next t) ∧ (∃ t, exec (.retCc .nz) edge = .next t) ∧
    (∃ t, exec .prefixCb edge = .next t) := ⟨⟨_, rfl⟩, ⟨_, rfl⟩, ⟨_, rfl⟩⟩

theorem witness_RegularCostsCountBusOperations : (∃ t, exec .ldA16Sp edge = .next t) ∧ hasInternalDelay .ldA16Sp true = false ∧
    (∃ t, exec (.callCcA16 .nz) edge = .next t) ∧
    hasInternalDelay (.callCcA16 .nz) (takenIn (.callCcA16 .nz) edge) = false := ⟨⟨_, rfl⟩, rfl, ⟨_, rfl⟩, by decide⟩

theorem witness_EveryInstructionCompletesOnAnAnsweringBus : State.reset.BusAnswers ∧ edge.BusAnswers :=
  ⟨reset_answers, reset_answers⟩

theorem witness_TicksCountAndInfluenceNothing : ∃ t, step State.reset = .next t := ⟨_, rfl⟩

end Sys2Proof.Machine.Tests
end

section
/-! Proofs of the family 00_scope.md: the packing of the flags, and what the bus answers range by range. -/

namespace Sys2Proof.Machine

/-! ### What an answer of the bus settles

A read is determined by `readAnswer` and a write by `writeAnswer`; which rule gave the answer does not matter. -/

section Answers

variable {s : State} {addr : Word} {v : Byte}

theorem State.canRead_of_readAnswer_none (h : s.readAnswer addr = none) : s.canRead addr = false := by
  simp [State.canRead, h]

theorem State.read_of_readAnswer_some {w : Byte} {d : Nat} (h : s.readAnswer addr = some (w, d)) :
    s.canRead addr = true ∧ s.byteAt addr = w ∧
      s.afterRead addr = { s with device := d, busLog := .read addr w :: s.busLog } := by
  simp [State.canRead, State.byteAt, State.afterRead, h]

theorem State.canWrite_of_writeAnswer_none (h : s.writeAnswer addr v = none) : s.canWrite addr v = false := by
  simp [State.canWrite, h]

theorem State.write_of_writeAnswer_some {m : Memory} {d : Nat} (h : s.writeAnswer addr v = some (m, d)) :
    s.canWrite addr v = true ∧
      s.afterWrite addr v = { s with mem := m, device := d, busLog := .write addr v :: s.busLog } := by
  simp [State.canWrite, State.afterWrite, h]

end Answers

/-! ### The first range of the claims

It decides where it covers the address and claims the operation; everywhere else the ranges after it do (R62). -/

theorem Region.covers_iff {r : Region} {addr : Word} : r.covers addr = true ↔ r.first ≤ addr ∧ addr ≤ r.last := by
  simp [Region.covers]

section FirstRange

variable {s : State} {r : Region} {cs : List Region} {addr : Word} (hc : s.claims = r :: cs)
include hc

theorem State.readRule_of_head_claims (hin : r.first ≤ addr ∧ addr ≤ r.last) (hr : r.reads ≠ .refused) :
    s.readRule addr = r.reads := by
  simp [State.readRule, hc, readRuleIn, Region.covers_iff.2 hin, hr]

theorem State.readRule_of_head_passes (hp : ¬(r.first ≤ addr ∧ addr ≤ r.last) ∨ r.reads = .refused) :
    s.readRule addr = ({ s with claims := cs } : State).readRule addr := by
  rw [← Region.covers_iff] at hp
  rcases hp with hout | hr
  · simp [State.readRule, hc, readRuleIn, hout]
  · simp [State.readRule, hc, readRuleIn, hr]

theorem State.writeRule_of_head_claims (hin : r.first ≤ addr ∧ addr ≤ r.last) (hw : r.writes ≠ .refused) :
    s.writeRule addr = r.writes := by
  simp [State.writeRule, hc, writeRuleIn, Region.covers_iff.2 hin, hw]

theorem State.writeRule_of_head_passes (hp : ¬(r.first ≤ addr ∧ addr ≤ r.last) ∨ r.writes = .refused) :
    s.writeRule addr = ({ s with claims := cs } : State).writeRule addr := by
  rw [← Region.covers_iff] at hp
  rcases hp with hout | hw
  · simp [State.writeRule, hc, writeRuleIn, hout]
  · simp [State.writeRule, hc, writeRuleIn, hw]

end FirstRange

theorem State.rules_of_claims_nil {s : State} (h : s.claims = []) (addr : Word) :
    s.readRule addr = .refused ∧ s.writeRule addr = .refused := by
  simp [State.readRule, State.writeRule, h, readRuleIn, writeRuleIn]

/-! ### The obligations -/

/-- Settles O7: the number and the four bits of `Flags(z,n,h,c)`, one law of the flags each. -/
theorem flagsPackFourBits : Obligations.FlagsPackFourBits := fun _ z n h c =>
  ⟨flags_toNat z n h c, flags_getLsbD_7 z n h c, flags_getLsbD_6 z n h c, flags_getLsbD_5 z n h c,
    flags_getLsbD_4 z n h c⟩

/-- Settles O10: each rule fixes the answer of the bus, and the answer fixes the operation; the claims are searched from their
first range. -/
theorem busOperationsFollowTheClaimedRanges : Obligations.BusOperationsFollowTheClaimedRanges := by
  intro s addr v
  refine ⟨fun h => ?readRefused, fun h => ?readMemory, fun h => ?readDevice, fun h => ?writeRefused, fun h => ?writeMemory,
    fun h => ?writeDropped, fun h => ?writeDevice, fun h => s.rules_of_claims_nil h addr, fun r cs hc => ?firstRange⟩
  case readRefused => exact State.canRead_of_readAnswer_none (State.readAnswer_refused h)
  case readMemory => exact State.read_of_readAnswer_some (State.readAnswer_memory h)
  case readDevice =>
    have answer := State.readAnswer_device h
    cases hd : Config.deviceRead s.device addr with
    | none => exact State.canRead_of_readAnswer_none (answer.trans hd)
    | some p => exact State.read_of_readAnswer_some (answer.trans hd)
  case writeRefused => exact State.canWrite_of_writeAnswer_none (State.writeAnswer_refused h v)
  case writeMemory => exact State.write_of_writeAnswer_some (State.writeAnswer_memory h v)
  case writeDropped => exact State.write_of_writeAnswer_some (State.writeAnswer_dropped h v)
  case writeDevice =>
    have answer := State.writeAnswer_device h v
    cases hd : Config.deviceWrite s.device addr v with
    | none => exact State.canWrite_of_writeAnswer_none (by rw [answer, hd, Option.map_none])
    | some d => exact State.write_of_writeAnswer_some (by rw [answer, hd, Option.map_some])
  case firstRange =>
    exact ⟨State.readRule_of_head_claims hc, State.readRule_of_head_passes hc, State.writeRule_of_head_claims hc,
      State.writeRule_of_head_passes hc⟩

end Sys2Proof.Machine
end

section
/-! Proofs of the family 10_state.md, the facts they stand on: the state every instruction leaves when it completes (`completed`,
tied to `exec` by `exec_eq_next`), and what that state keeps of the one before, field by field. -/

namespace Sys2Proof.Machine

/-! ### The state a row leaves -/

/-- The state in which the row that runs starts: for the 0xCB row, past the second opcode byte (R142). -/
def State.atRow (s : State) : Instr → State
  | .prefixCb => s.pastImm8
  | _ => s

/-- `A` loaded from an address. -/
@[simp] def State.loadedA (s : State) (x : Word) : State := (s.afterRead x).setReg .a (s.byteAt x)

/-- The result of an accumulator rotate, with the `F` it leaves. -/
def withAccRotFlags (op : Byte → Bool → Byte × Bool) (v : Byte) (c : Bool) : Byte × Byte :=
  ((op v c).1, accRotFlags (op v c))

/-- The result of a rotate or shift of the 0xCB space, with the `F` it leaves. -/
def withRotFlags (op : Byte → Bool → Byte × Bool) (v : Byte) (c : Bool) : Byte × Byte :=
  ((op v c).1, rotFlags (op v c))

/-- A register replaced by a value computed from it and `cf`, with the flags. -/
@[simp] def steppedReg (op : Byte → Bool → Byte × Byte) (r : Reg8) (s : State) : State :=
  (s.setF (op (s.reg r) s.cf).2).setReg r (op (s.reg r) s.cf).1

/-- The byte at `HL` replaced by a value computed from it. -/
@[simp] def rewrittenHl (op : Byte → Byte) (s : State) : State := (s.afterRead s.hl).afterWrite s.hl (op (s.byteAt s.hl))

/-- The byte at `HL` replaced by a value computed from it and `cf`, with the flags. -/
@[simp] def steppedHl (op : Byte → Bool → Byte × Byte) (s : State) : State :=
  (rewrittenHl (fun v => (op v s.cf).1) s).setF (op (s.byteAt s.hl) s.cf).2

/-- The state a row leaves when it completes, from its starting state; `exec_row_eq_next` ties it to `exec`. Of no meaning for the
rows that do not complete by themselves: the 0xCB row, which runs another, and the twelve that raise. -/
def completed (i : Instr) (s : State) : State :=
  match i with
  | .nop => s.charge 1
  | .ldA16Sp =>
    ((s.pastImm16.afterWrite s.operand16 (loByte s.sp)).afterWrite (s.operand16 + 1) (hiByte s.sp)).charge 5
  | .jrE8 => (s.pastImm8.jump (s.pc + 1 + sext16 (s.byteAt s.pc))).charge 3
  | .rlca => (s.setAF (withAccRotFlags rotLeft s.a s.cf)).charge 1
  | .rrca => (s.setAF (withAccRotFlags rotRight s.a s.cf)).charge 1
  | .rla => (s.setAF (withAccRotFlags rotLeftCarry s.a s.cf)).charge 1
  | .rra => (s.setAF (withAccRotFlags rotRightCarry s.a s.cf)).charge 1
  | .daa => (s.setAF (daaFlags s.a s.nf s.hf s.cf)).charge 1
  | .cpl => (s.setAF (~~~s.a, flags s.zf true true s.cf)).charge 1
  | .scf => (s.setF (flags s.zf false false true)).charge 1
  | .ccf => (s.setF (flags s.zf false false (!s.cf))).charge 1
  | .ldBcA => (s.afterWrite s.bc s.a).charge 2
  | .ldDeA => (s.afterWrite s.de s.a).charge 2
  | .ldHliA => ((s.afterWrite s.hl s.a).setHl (s.hl + 1)).charge 2
  | .ldHldA => ((s.afterWrite s.hl s.a).setHl (s.hl - 1)).charge 2
  | .ldABc => (s.loadedA s.bc).charge 2
  | .ldADe => (s.loadedA s.de).charge 2
  | .ldAHli => ((s.loadedA s.hl).setHl (s.hl + 1)).charge 2
  | .ldAHld => ((s.loadedA s.hl).setHl (s.hl - 1)).charge 2
  | .incHl => (steppedHl incFlags s).charge 3
  | .decHl => (steppedHl decFlags s).charge 3
  | .ldHlD8 => (s.pastImm8.afterWrite s.hl (s.byteAt s.pc)).charge 3
  | .halt =>
    (if s.pending != 0 && !s.ime then { s.irqRead with haltBugArmed := true } else { s.irqRead with halted := true }).charge 1
  | .jpA16 => (s.pastImm16.jump s.operand16).charge 4
  | .ret => (s.popped.jump s.stackTop).charge 4
  | .reti => { s.popped with pc := s.stackTop, ime := true }.charge 4
  | .jpHl => (s.jump s.hl).charge 1
  | .ldSpHl => (s.setSp s.hl).charge 2
  | .callA16 => ((s.pastImm16.pushed (s.pc + 2)).jump s.operand16).charge 6
  | .ldhA8A => (s.pastImm8.afterWrite (highPage (s.byteAt s.pc)) s.a).charge 3
  | .ldhAA8 => (s.pastImm8.loadedA (highPage (s.byteAt s.pc))).charge 3
  | .ldhCA => (s.afterWrite (highPage s.c) s.a).charge 2
  | .ldhAC => (s.loadedA (highPage s.c)).charge 2
  | .addSpE8 =>
    ((s.pastImm8.setSp (spRel Config.sprelFlags s.sp (s.byteAt s.pc)).1).setF
      (spRel Config.sprelFlags s.sp (s.byteAt s.pc)).2).charge 4
  | .ldHlSpE8 =>
    ((s.pastImm8.setHl (spRel Config.sprelFlags s.sp (s.byteAt s.pc)).1).setF
      (spRel Config.sprelFlags s.sp (s.byteAt s.pc)).2).charge 3
  | .ldA16A => (s.pastImm16.afterWrite s.operand16 s.a).charge 4
  | .ldAA16 => (s.pastImm16.loadedA s.operand16).charge 4
  | .di => { s with ime := false }.charge 1
  | .ei => { s with deferredEnable := true }.charge 1
  | .popAf => (s.popped.setRegStk .af s.stackTop).charge 3
  | .addAHl => ((s.afterRead s.hl).setAF (addFlags s.a (s.byteAt s.hl) false)).charge 2
  | .adcAHl => ((s.afterRead s.hl).setAF (addFlags s.a (s.byteAt s.hl) s.cf)).charge 2
  | .subAHl => ((s.afterRead s.hl).setAF (subFlags s.a (s.byteAt s.hl) false)).charge 2
  | .sbcAHl => ((s.afterRead s.hl).setAF (subFlags s.a (s.byteAt s.hl) s.cf)).charge 2
  | .andAHl => ((s.afterRead s.hl).setAF (andFlags s.a (s.byteAt s.hl))).charge 2
  | .xorAHl => ((s.afterRead s.hl).setAF (xorFlags s.a (s.byteAt s.hl))).charge 2
  | .orAHl => ((s.afterRead s.hl).setAF (orFlags s.a (s.byteAt s.hl))).charge 2
  | .cpAHl => ((s.afterRead s.hl).setF (subFlags s.a (s.byteAt s.hl) false).2).charge 2
  | .addAD8 => (s.pastImm8.setAF (addFlags s.a (s.byteAt s.pc) false)).charge 2
  | .adcAD8 => (s.pastImm8.setAF (addFlags s.a (s.byteAt s.pc) s.cf)).charge 2
  | .subAD8 => (s.pastImm8.setAF (subFlags s.a (s.byteAt s.pc) false)).charge 2
  | .sbcAD8 => (s.pastImm8.setAF (subFlags s.a (s.byteAt s.pc) s.cf)).charge 2
  | .andAD8 => (s.pastImm8.setAF (andFlags s.a (s.byteAt s.pc))).charge 2
  | .xorAD8 => (s.pastImm8.setAF (xorFlags s.a (s.byteAt s.pc))).charge 2
  | .orAD8 => (s.pastImm8.setAF (orFlags s.a (s.byteAt s.pc))).charge 2
  | .cpAD8 => (s.pastImm8.setF (subFlags s.a (s.byteAt s.pc) false).2).charge 2
  | .jrCcE8 cc =>
    if condHolds cc s then (s.pastImm8.jump (s.pc + 1 + sext16 (s.byteAt s.pc))).charge 3 else s.pastImm8.charge 2
  | .ldR16D16 r => (s.pastImm16.setReg16 r s.operand16).charge 3
  | .addHlR16 r => ((s.setHl (s.hl + s.reg16 r)).setF (addHlFlags s.zf s.hl (s.reg16 r))).charge 2
  | .incR16 r => (s.setReg16 r (s.reg16 r + 1)).charge 2
  | .decR16 r => (s.setReg16 r (s.reg16 r - 1)).charge 2
  | .incR8 r => (steppedReg incFlags r s).charge 1
  | .decR8 r => (steppedReg decFlags r s).charge 1
  | .ldR8D8 r => (s.pastImm8.setReg r (s.byteAt s.pc)).charge 2
  | .ldR8Hl r => ((s.afterRead s.hl).setReg r (s.byteAt s.hl)).charge 2
  | .ldHlR8 r => (s.afterWrite s.hl (s.reg r)).charge 2
  | .ldR8R8 dst r => (s.setReg dst (s.reg r)).charge 1
  | .addAR8 r => (s.setAF (addFlags s.a (s.reg r) false)).charge 1
  | .adcAR8 r => (s.setAF (addFlags s.a (s.reg r) s.cf)).charge 1
  | .subAR8 r => (s.setAF (subFlags s.a (s.reg r) false)).charge 1
  | .sbcAR8 r => (s.setAF (subFlags s.a (s.reg r) s.cf)).charge 1
  | .andAR8 r => (s.setAF (andFlags s.a (s.reg r))).charge 1
  | .xorAR8 r => (s.setAF (xorFlags s.a (s.reg r))).charge 1
  | .orAR8 r => (s.setAF (orFlags s.a (s.reg r))).charge 1
  | .cpAR8 r => (s.setF (subFlags s.a (s.reg r) false).2).charge 1
  | .retCc cc => if condHolds cc s then (s.popped.jump s.stackTop).charge 5 else s.charge 2
  | .jpCcA16 cc => if condHolds cc s then (s.pastImm16.jump s.operand16).charge 4 else s.pastImm16.charge 3
  | .callCcA16 cc =>
    if condHolds cc s then ((s.pastImm16.pushed (s.pc + 2)).jump s.operand16).charge 6 else s.pastImm16.charge 3
  | .popR16 p => (s.popped.setRegStk p s.stackTop).charge 3
  | .pushR16 p => (s.pushed (s.regStk p)).charge 4
  | .rstT t => ((s.pushed s.pc).jump (t.setWidth 16 * 8)).charge 4
  | .rlcHl => (steppedHl (withRotFlags rotLeft) s).charge 4
  | .rrcHl => (steppedHl (withRotFlags rotRight) s).charge 4
  | .rlHl => (steppedHl (withRotFlags rotLeftCarry) s).charge 4
  | .rrHl => (steppedHl (withRotFlags rotRightCarry) s).charge 4
  | .slaHl => (steppedHl (withRotFlags shiftLeft) s).charge 4
  | .sraHl => (steppedHl (withRotFlags shiftRightArith) s).charge 4
  | .swapHl => (steppedHl (withRotFlags swapNibbles) s).charge 4
  | .srlHl => (steppedHl (withRotFlags shiftRightLogic) s).charge 4
  | .rlcR8 r => (steppedReg (withRotFlags rotLeft) r s).charge 2
  | .rrcR8 r => (steppedReg (withRotFlags rotRight) r s).charge 2
  | .rlR8 r => (steppedReg (withRotFlags rotLeftCarry) r s).charge 2
  | .rrR8 r => (steppedReg (withRotFlags rotRightCarry) r s).charge 2
  | .slaR8 r => (steppedReg (withRotFlags shiftLeft) r s).charge 2
  | .sraR8 r => (steppedReg (withRotFlags shiftRightArith) r s).charge 2
  | .swapR8 r => (steppedReg (withRotFlags swapNibbles) r s).charge 2
  | .srlR8 r => (steppedReg (withRotFlags shiftRightLogic) r s).charge 2
  | .bitHl b => ((s.afterRead s.hl).setF (bitFlags b (s.byteAt s.hl) s.cf)).charge 3
  | .bitR8 b r => (s.setF (bitFlags b (s.reg r) s.cf)).charge 2
  | .resHl b => (rewrittenHl (resBit b) s).charge 4
  | .resR8 b r => (s.setReg r (resBit b (s.reg r))).charge 2
  | .setHl b => (rewrittenHl (setBit b) s).charge 4
  | .setR8 b r => (s.setReg r (setBit b (s.reg r))).charge 2
  | .prefixCb | .stop | .illegalD3 | .illegalDB | .illegalDD | .illegalE3 | .illegalE4 | .illegalEB | .illegalEC | .illegalED
  | .illegalF4 | .illegalFC | .illegalFD => s

/-! ### `exec` answers that state and no other -/

/-- A meaning that ends one way or the other, by a condition. -/
theorem finish_ite_eq_next {c : Bool} {m n : Nat} {u v t : State} :
    (if c then finish m u else finish n v) = .next t ↔ t = if c then u.charge m else v.charge n := by
  cases c <;> exact finish_eq_next

/-- A row that answers a next state answers its `completed` state, and is none of the twelve that raise. -/
theorem exec_row_eq_next {i : Instr} {s t : State} (hi : i ≠ .prefixCb) (h : exec i s = .next t) :
    raises i = false ∧ t = completed i s := by
  cases i <;> dsimp only [exec] at h
  case prefixCb => exact absurd rfl hi
  case stop | illegalD3 | illegalDB | illegalDD | illegalE3 | illegalE4 | illegalEB | illegalEC | illegalED | illegalF4 |
      illegalFC | illegalFD => exact (raiseInvalidOpcode_eq_next.1 h).elim
  all_goals refine ⟨rfl, ?_⟩
  case addAR8 | adcAR8 | subAR8 | sbcAR8 | andAR8 | xorAR8 | orAR8 | cpAR8 => exact aluReg_eq_next.1 h
  case addAHl | adcAHl | subAHl | sbcAHl | andAHl | xorAHl | orAHl | cpAHl => exact (aluHl_eq_next.1 h).2
  case addAD8 | adcAD8 | subAD8 | sbcAD8 | andAD8 | xorAD8 | orAD8 | cpAD8 => exact (aluImm_eq_next.1 h).2
  case incR8 | decR8 => exact stepReg_eq_next.1 h
  case incHl | decHl => exact (stepHl_eq_next.1 h).2.2
  case rlca | rrca | rla | rra => exact rotAcc_eq_next.1 h
  case rlcR8 | rrcR8 | rlR8 | rrR8 | slaR8 | sraR8 | swapR8 | srlR8 => exact rotReg_eq_next.1 h
  case rlcHl | rrcHl | rlHl | rrHl | slaHl | sraHl | swapHl | srlHl => exact (rotHl_eq_next.1 h).2.2
  case resR8 | setR8 => exact bitOpReg_eq_next.1 h
  case resHl | setHl => exact (bitOpHl_eq_next.1 h).2.2
  case callCcA16 =>
    rw [execCallCcA16, imm16_eq_next] at h
    rcases ite_eq_next.1 h.2 with ⟨hc, h⟩ | ⟨hc, h⟩
    · simp [completed, hc, (callTo_eq_next.1 h).2]
    · simp [completed, hc, finish_eq_next.1 h]
  case retCc =>
    rcases ite_eq_next.1 h with ⟨hc, h⟩ | ⟨hc, h⟩
    · simp [completed, hc, (returnWith_eq_next.1 h).2]
    · simp [completed, hc, finish_eq_next.1 h]
  case jpCcA16 =>
    rw [execJpCcA16, imm16_eq_next] at h
    exact finish_ite_eq_next.1 h.2
  case jrCcE8 =>
    rw [execJrCcE8, imm8_eq_next] at h
    exact finish_ite_eq_next.1 h.2
  case ret => exact (returnWith_eq_next.1 h).2
  case reti => exact (returnFromInterrupt_eq_next.1 h).2
  case halt =>
    obtain ⟨hr, -⟩ := readIrqRegs_eq_next.1 h
    exact (Host.Outcome.next.inj ((exec_halt_readable hr).symm.trans h)).symm
  -- The rows left read their operand bytes, make their bus operations and end.
  case' addSpE8 => dsimp only [execAddSpE8, addSpE8] at h
  case' ldHlSpE8 => dsimp only [execLdHlSpE8, ldHlSpE8] at h
  case' ldR8D8 | jrE8 | ldHlD8 | ldhA8A | ldhAA8 | addSpE8 | ldHlSpE8 => obtain ⟨-, h⟩ := imm8_eq_next.1 h
  case' ldR16D16 | jpA16 | ldA16A | ldAA16 | ldA16Sp | callA16 => obtain ⟨-, h⟩ := imm16_eq_next.1 h
  case callA16 | rstT => exact (callTo_eq_next.1 h).2
  case' ldR8Hl | bitHl => obtain ⟨-, h⟩ := busRead_eq_next.1 h
  case' ldABc | ldADe | ldAHli | ldAHld | ldhAC | ldhAA8 | ldAA16 => obtain ⟨-, h⟩ := loadA_eq_next.1 h
  case' ldBcA | ldDeA | ldHliA | ldHldA | ldhCA | ldHlR8 | ldHlD8 | ldhA8A | ldA16A | ldA16Sp =>
    obtain ⟨-, h⟩ := busWrite_eq_next.1 h
  case' ldA16Sp => obtain ⟨-, h⟩ := busWrite_eq_next.1 h
  case' pushR16 => obtain ⟨-, h⟩ := push16_eq_next.1 h
  case' popR16 | popAf => obtain ⟨-, h⟩ := pop16_eq_next.1 h
  all_goals exact finish_eq_next.1 h

theorem effective_of_ne {i : Instr} (hi : i ≠ .prefixCb) (s : State) : effective i s = i := by
  unfold effective
  split
  · exact absurd rfl hi
  · rfl

theorem State.atRow_of_ne (s : State) {i : Instr} (hi : i ≠ .prefixCb) : s.atRow i = s := by
  unfold State.atRow
  split
  · exact absurd rfl hi
  · rfl

/-- The inversion of `exec`, for every instruction: the row that runs neither selects another nor raises, and the next state is the
one it leaves. -/
theorem exec_eq_next {i : Instr} {s t : State} (h : exec i s = .next t) :
    effective i s ≠ .prefixCb ∧ raises (effective i s) = false ∧ t = completed (effective i s) (s.atRow i) := by
  by_cases hi : i = .prefixCb
  · subst hi
    obtain ⟨-, h⟩ := exec_prefixCb_eq_next.1 h
    exact ⟨toInstr_ne_prefixCb _, exec_row_eq_next (toInstr_ne_prefixCb _) h⟩
  · rw [effective_of_ne hi, s.atRow_of_ne hi]
    exact ⟨hi, exec_row_eq_next hi h⟩

@[simp] theorem State.atRow_f (s : State) (i : Instr) : (s.atRow i).f = s.f := by unfold State.atRow; split <;> rfl

@[simp] theorem State.atRow_sp (s : State) (i : Instr) : (s.atRow i).sp = s.sp := by unfold State.atRow; split <;> rfl

@[simp] theorem State.atRow_ticks (s : State) (i : Instr) : (s.atRow i).ticks = s.ticks := by
  unfold State.atRow; split <;> rfl

@[simp] theorem State.atRow_reg (s : State) (i : Instr) (r : Reg8) : (s.atRow i).reg r = s.reg r := by
  unfold State.atRow
  split
  · exact s.pastImm8_reg r
  · rfl

/-! ### Updates of the registers, seen from another register -/

theorem State.reg_setAF_ne (s : State) {r : Reg8} (h : r ≠ .a) (p : Byte × Byte) : (s.setAF p).reg r = s.reg r :=
  s.reg_setReg_ne h p.1

theorem State.reg_setHl_ne (s : State) {r : Reg8} (hh : r ≠ .h) (hl : r ≠ .l) (w : Word) : (s.setHl w).reg r = s.reg r := by
  cases r with
  | h => exact absurd rfl hh
  | l => exact absurd rfl hl
  | a | b | c | d | e => rfl

/-- The halves of a pair are the registers that a row writing the pair may write. -/
theorem State.reg_setReg16_ne (s : State) {p : R16} {r : Reg8} (h : mayWriteReg (.incR16 p) r = false) (w : Word) :
    (s.setReg16 p w).reg r = s.reg r := by
  cases p <;> cases r <;> simp [mayWriteReg] at h <;> rfl

theorem State.reg_setRegStk_ne (s : State) {p : R16Stk} {r : Reg8} (h : mayWriteReg (.popR16 p) r = false) (w : Word) :
    (s.setRegStk p w).reg r = s.reg r := by
  cases p <;> cases r <;> simp [mayWriteReg] at h <;> rfl

theorem State.setReg16_sp_of_ne (s : State) {p : R16} (h : p ≠ .sp) (w : Word) : (s.setReg16 p w).sp = s.sp := by
  cases p with
  | sp => exact absurd rfl h
  | bc | de | hl => rfl

theorem State.setRegStk_f_of_ne (s : State) {p : R16Stk} (h : p ≠ .af) (w : Word) : (s.setRegStk p w).f = s.f := by
  cases p with
  | af => exact absurd rfl h
  | bc | de | hl => rfl

/-! ### What the state a row leaves keeps

Each proof goes through the rows. The hypothesis drops the rows that may write the field; the rows with a condition leave one of
two states, and `apply_ite` takes the field of both. -/

theorem completed_f {i : Instr} (h : writesFlags i = false) (s : State) : (completed i s).f = s.f := by
  cases i <;> simp only [writesFlags, reduceCtorEq] at h
  case popR16 => exact State.setRegStk_f_of_ne _ (by simpa using h) _
  case jrCcE8 | jpCcA16 | callCcA16 | retCc | halt => simp [completed, apply_ite State.f]
  all_goals simp [completed]

theorem daaFlags_low (a : Byte) (n h c : Bool) : (daaFlags a n h c).2 &&& 0x0F#8 = 0#8 := by
  cases n <;> exact flags_and_0F ..

theorem and_F0_low (v : Byte) : v &&& 0xF0#8 &&& 0x0F#8 = 0#8 := by
  rw [BitVec.and_assoc]; exact BitVec.and_zero

/-- A row that writes `F` writes what `Flags` builds, or a popped byte without its low half (R21, R196). -/
theorem completed_f_low {i : Instr} (h : writesFlags i = true) (s : State) : (completed i s).f &&& 0x0F = 0 := by
  cases i <;> simp only [writesFlags, reduceCtorEq] at h
  case daa => exact daaFlags_low ..
  case popAf => exact and_F0_low _
  case popR16 p =>
    obtain rfl : p = .af := by simpa using h
    exact and_F0_low _
  case incR8 | decR8 | rlcR8 | rrcR8 | rlR8 | rrR8 | slaR8 | sraR8 | swapR8 | srlR8 =>
    rw [completed, State.charge_f, steppedReg, State.setReg_f]
    exact flags_and_0F ..
  all_goals exact flags_and_0F ..

theorem completed_reg {i : Instr} {r : Reg8} (h : mayWriteReg i r = false) (s : State) :
    (completed i s).reg r = s.reg r := by
  cases i
  case ldR16D16 | incR16 | decR16 => exact State.reg_setReg16_ne _ h _
  case popR16 => exact State.reg_setRegStk_ne _ h _
  case popAf => exact State.reg_setRegStk_ne (p := .af) s.popped h s.stackTop
  case halt => rw [completed, State.charge_reg]; split <;> cases r <;> rfl
  case reti | di | ei => rw [completed, State.charge_reg]; cases r <;> rfl
  case jrCcE8 | jpCcA16 | callCcA16 | retCc => simp [completed, apply_ite (State.reg · r)]
  all_goals simp [mayWriteReg] at h
  all_goals simp [completed, State.reg_setReg_ne, State.reg_setAF_ne, State.reg_setHl_ne, h]

theorem completed_sp {i : Instr} (h : mayWriteSp i = false) (s : State) : (completed i s).sp = s.sp := by
  cases i <;> simp only [mayWriteSp, reduceCtorEq] at h
  case ldR16D16 | incR16 | decR16 => exact State.setReg16_sp_of_ne _ (by simpa using h) _
  case jrCcE8 | jpCcA16 | halt => simp [completed, apply_ite State.sp]
  all_goals simp [completed]

/-- `PC` moves past the operand bytes (R24). -/
theorem completed_pc {i : Instr} (hp : i ≠ .prefixCb) (h : transfersControl i = false) (s : State) :
    (completed i s).pc = s.pc + BitVec.ofNat 16 i.operandBytes := by
  cases i <;> simp only [transfersControl, reduceCtorEq] at h
  case prefixCb => exact absurd rfl hp
  case halt => simp [completed, Instr.operandBytes, apply_ite State.pc]
  all_goals simp [completed, Instr.operandBytes]

theorem completed_mem {i : Instr} {s : State} (h : storesTo i s = []) : (completed i s).mem = s.mem := by
  cases i <;> simp [storesTo] at h
  case callCcA16 => simp [completed, h]
  case jrCcE8 | jpCcA16 | retCc | halt => simp [completed, apply_ite State.mem]
  all_goals simp [completed]

theorem completed_runState {i : Instr} (h : movesRunState i = false) (s : State) :
    (completed i s).halted = s.halted ∧ (completed i s).ime = s.ime ∧ (completed i s).deferredEnable = s.deferredEnable ∧
      (completed i s).haltBugArmed = s.haltBugArmed := by
  cases i <;> simp only [movesRunState, reduceCtorEq] at h
  case jrCcE8 cc | jpCcA16 cc | callCcA16 cc | retCc cc => cases hc : condHolds cc s <;> simp [completed, hc]
  all_goals simp [completed]

theorem completed_fault (i : Instr) (s : State) : (completed i s).fault = s.fault := by
  cases i
  case jrCcE8 | jpCcA16 | callCcA16 | retCc | halt => simp [completed, apply_ite State.fault]
  all_goals simp [completed]

/-- The cost is that of the cycle table (R378). -/
theorem completed_ticks (i : Instr) (s : State) : (completed i s).ticks = s.ticks + cycles i (takenIn i s) := by
  cases i
  case jrCcE8 cc | jpCcA16 cc | callCcA16 cc | retCc cc =>
    cases hc : condHolds cc s <;> simp [completed, cycles, takenIn, conditionOf, hc]
  case halt => simp [completed, cycles, apply_ite State.ticks]
  all_goals simp [completed, cycles]

theorem Memory.wf_pushed {s : State} (h : Memory.wf s.mem) (w : Word) : Memory.wf (s.pushed w).mem :=
  Memory.wf_afterWrite (Memory.wf_afterWrite h (s.sp - 1) (hiByte w)) (s.sp - 2) (loByte w)

/-- A row that stores makes bus writes, and each keeps the canonical form. -/
theorem wf_completed (i : Instr) {s : State} (h : Memory.wf s.mem) : Memory.wf (completed i s).mem := by
  by_cases hs : storesTo i s = []
  · rw [completed_mem hs]
    exact h
  cases i <;> simp only [storesTo, not_true] at hs <;>
    simp only [completed, steppedHl, rewrittenHl, State.charge_mem, State.setHl_mem, State.setF_mem, State.jump_mem]
  case pushR16 | rstT | callA16 => exact Memory.wf_pushed (by exact h) _
  case callCcA16 cc =>
    have hc : condHolds cc s = true := by simpa using hs
    rw [if_pos hc]
    exact Memory.wf_pushed (by exact h) _
  all_goals apply Memory.wf_afterWrite
  case ldA16Sp => exact Memory.wf_afterWrite (by exact h) _ _
  all_goals exact h

end Sys2Proof.Machine
end

section
/-! Proofs of the family 10_state.md: `ticks` influences nothing (R379). Each operation from a state with `n` cycles more answers
what it answers from the state, with `n` cycles more: `addTicks`. An operation that hands on to a continuation keeps this if the
continuation does. -/

namespace Sys2Proof.Machine

/-- The same outcome, with `n` cycles more on the total of a next state. -/
def addTicks (n : Nat) : Result → Result
  | .next t => .next (t.charge n)
  | .fault e => .fault e
  | .refused r => .refused r

theorem State.charge_comm (s : State) (m n : Nat) : (s.charge m).charge n = (s.charge n).charge m := by
  simp only [State.charge, Nat.add_right_comm]

section Ticks

variable {n : Nat} {s : State}

/-! ### The shared operations -/

theorem finish_charge {c : Nat} {u v : State} (h : u = v.charge n) : finish c u = addTicks n (finish c v) := by
  subst h
  exact congrArg Host.Outcome.next (v.charge_comm n c)

theorem busRead_charge {x : Word} {k k' : Byte → State → Result} (hk : ∀ b u, k b (u.charge n) = addTicks n (k' b u)) :
    busRead x (s.charge n) k = addTicks n (busRead x s k') := by
  cases h : s.canRead x with
  | true => rw [busRead_claimed h, busRead_claimed (by exact h)]; exact hk _ (s.afterRead x)
  | false => rw [busRead_unclaimed h, busRead_unclaimed (by exact h)]; rfl

theorem busWrite_charge {x : Word} {v : Byte} {k k' : State → Result} (hk : ∀ u, k (u.charge n) = addTicks n (k' u)) :
    busWrite x v (s.charge n) k = addTicks n (busWrite x v s k') := by
  cases h : s.canWrite x v with
  | true => rw [busWrite_claimed h, busWrite_claimed (by exact h)]; exact hk (s.afterWrite x v)
  | false => rw [busWrite_unclaimed h, busWrite_unclaimed (by exact h)]; rfl

theorem imm8_charge {k k' : Byte → State → Result} (hk : ∀ b u, k b (u.charge n) = addTicks n (k' b u)) :
    imm8 (s.charge n) k = addTicks n (imm8 s k') := busRead_charge fun b u => hk b u.advancePc

theorem imm16_charge {k k' : Word → State → Result} (hk : ∀ w u, k w (u.charge n) = addTicks n (k' w u)) :
    imm16 (s.charge n) k = addTicks n (imm16 s k') := imm8_charge fun _ _ => imm8_charge fun _ _ => hk _ _

theorem loadA_charge {x : Word} {k k' : State → Result} (hk : ∀ u, k (u.charge n) = addTicks n (k' u)) :
    loadA x (s.charge n) k = addTicks n (loadA x s k') := busRead_charge fun b u => hk { u with a := b }

theorem push16_charge {w : Word} {k k' : State → Result} (hk : ∀ u, k (u.charge n) = addTicks n (k' u)) :
    push16 w (s.charge n) k = addTicks n (push16 w s k') :=
  busWrite_charge (s := s.setSp (s.sp - 1)) fun u => busWrite_charge (s := u.setSp (u.sp - 1)) hk

theorem pop16_charge {k k' : Word → State → Result} (hk : ∀ w u, k w (u.charge n) = addTicks n (k' w u)) :
    pop16 (s.charge n) k = addTicks n (pop16 s k') :=
  busRead_charge fun _ _ => busRead_charge fun _ u => hk _ (u.setSp (u.sp + 2))

theorem readIrqRegs_charge {k k' : Byte → Byte → State → Result}
    (hk : ∀ b c u, k b c (u.charge n) = addTicks n (k' b c u)) :
    readIrqRegs (s.charge n) k = addTicks n (readIrqRegs s k') := by
  simp only [readIrqRegs, readIrqRegsIn, Config.irqReadOrder]
  exact busRead_charge fun ie _ => busRead_charge fun iff u => hk ie iff u

theorem ite_charge {c : Bool} {x x' y y' : Result} (hx : x = addTicks n x') (hy : y = addTicks n y') :
    (if c then x else y) = addTicks n (if c then x' else y') := by
  cases c with
  | true => exact hx
  | false => exact hy

/-! ### Reads and updates of the registers -/

theorem condHolds_charge (cc : Cond) : condHolds cc (s.charge n) = condHolds cc s := by cases cc <;> rfl

theorem State.setReg_charge (r : Reg8) (v : Byte) : (s.charge n).setReg r v = (s.setReg r v).charge n := by cases r <;> rfl

theorem State.setReg16_charge (r : R16) (w : Word) : (s.charge n).setReg16 r w = (s.setReg16 r w).charge n := by
  cases r <;> rfl

theorem State.setRegStk_charge (p : R16Stk) (w : Word) : (s.charge n).setRegStk p w = (s.setRegStk p w).charge n := by
  cases p <;> rfl

/-! ### The shapes several meanings share -/

theorem callTo_charge {x : Word} {c : Nat} : callTo x c (s.charge n) = addTicks n (callTo x c s) :=
  push16_charge fun _ => finish_charge rfl

theorem returnWith_charge {c : Nat} : returnWith c (s.charge n) = addTicks n (returnWith c s) :=
  pop16_charge fun _ _ => finish_charge rfl

theorem returnFromInterrupt_charge : returnFromInterrupt (s.charge n) = addTicks n (returnFromInterrupt s) :=
  pop16_charge fun _ _ => finish_charge rfl

theorem takeInterrupt_charge (iff v : Byte) : takeInterrupt iff v (s.charge n) = addTicks n (takeInterrupt iff v s) :=
  busWrite_charge fun _ => push16_charge fun _ => finish_charge rfl

theorem addSpE8_charge (p : Config.SprelFlags) : addSpE8 p (s.charge n) = addTicks n (addSpE8 p s) :=
  imm8_charge fun _ _ => finish_charge rfl

theorem ldHlSpE8_charge (p : Config.SprelFlags) : ldHlSpE8 p (s.charge n) = addTicks n (ldHlSpE8 p s) :=
  imm8_charge fun _ _ => finish_charge rfl

theorem aluReg_charge {op : Byte → State → State} (h : ∀ x (u : State), op x (u.charge n) = (op x u).charge n) (r : Reg8) :
    aluReg op r (s.charge n) = addTicks n (aluReg op r s) :=
  finish_charge (by rw [State.charge_reg, h])

theorem aluHl_charge {op : Byte → State → State} (h : ∀ x (u : State), op x (u.charge n) = (op x u).charge n) :
    aluHl op (s.charge n) = addTicks n (aluHl op s) :=
  busRead_charge fun _ _ => finish_charge (h _ _)

theorem aluImm_charge {op : Byte → State → State} (h : ∀ x (u : State), op x (u.charge n) = (op x u).charge n) :
    aluImm op (s.charge n) = addTicks n (aluImm op s) :=
  imm8_charge fun _ _ => finish_charge (h _ _)

theorem stepReg_charge (op : Byte → Bool → Byte × Byte) (r : Reg8) :
    stepReg op r (s.charge n) = addTicks n (stepReg op r s) :=
  finish_charge (by rw [State.charge_reg]; exact State.setReg_charge (s := s.setF _) ..)

theorem rotReg_charge (op : Byte → Bool → Byte × Bool) (r : Reg8) :
    rotReg op r (s.charge n) = addTicks n (rotReg op r s) :=
  finish_charge (by rw [State.charge_reg]; exact State.setReg_charge (s := s.setF _) ..)

theorem bitOpReg_charge (op : Byte → Byte) (r : Reg8) : bitOpReg op r (s.charge n) = addTicks n (bitOpReg op r s) :=
  finish_charge (by rw [State.charge_reg]; exact State.setReg_charge ..)

theorem stepHl_charge (op : Byte → Bool → Byte × Byte) : stepHl op (s.charge n) = addTicks n (stepHl op s) :=
  busRead_charge fun v u => busWrite_charge (s := u.setF (op v u.cf).2) fun _ => finish_charge rfl

theorem rotHl_charge (op : Byte → Bool → Byte × Bool) : rotHl op (s.charge n) = addTicks n (rotHl op s) :=
  busRead_charge fun v u => busWrite_charge (s := u.setF (rotFlags (op v u.cf))) fun _ => finish_charge rfl

theorem bitOpHl_charge (op : Byte → Byte) : bitOpHl op (s.charge n) = addTicks n (bitOpHl op s) :=
  busRead_charge fun _ _ => busWrite_charge fun _ => finish_charge rfl

/-! ### The instructions and the step -/

theorem exec_row_charge {i : Instr} (hi : i ≠ .prefixCb) : exec i (s.charge n) = addTicks n (exec i s) := by
  cases i <;> dsimp only [exec]
  case prefixCb => exact absurd rfl hi
  case stop | illegalD3 | illegalDB | illegalDD | illegalE3 | illegalE4 | illegalEB | illegalEC | illegalED | illegalF4 |
      illegalFC | illegalFD => rfl
  case nop | jpHl | ldSpHl | di | ei | daa | cpl | scf | ccf | rlca | rrca | rla | rra => exact finish_charge rfl
  case addAR8 | adcAR8 | subAR8 | sbcAR8 | andAR8 | xorAR8 | orAR8 | cpAR8 => exact aluReg_charge (fun _ _ => rfl) _
  case addAHl | adcAHl | subAHl | sbcAHl | andAHl | xorAHl | orAHl | cpAHl => exact aluHl_charge fun _ _ => rfl
  case addAD8 | adcAD8 | subAD8 | sbcAD8 | andAD8 | xorAD8 | orAD8 | cpAD8 => exact aluImm_charge fun _ _ => rfl
  case incR8 | decR8 => exact stepReg_charge _ _
  case incHl | decHl => exact stepHl_charge _
  case rlcR8 | rrcR8 | rlR8 | rrR8 | slaR8 | sraR8 | swapR8 | srlR8 => exact rotReg_charge _ _
  case rlcHl | rrcHl | rlHl | rrHl | slaHl | sraHl | swapHl | srlHl => exact rotHl_charge _
  case resR8 | setR8 => exact bitOpReg_charge _ _
  case resHl | setHl => exact bitOpHl_charge _
  case bitR8 => exact finish_charge (by rw [State.charge_reg]; rfl)
  case ldR8R8 => exact finish_charge (by rw [State.charge_reg, State.setReg_charge])
  case addHlR16 => exact finish_charge (by rw [State.charge_reg16]; rfl)
  case incR16 | decR16 => exact finish_charge (by rw [State.charge_reg16, State.setReg16_charge])
  case ldBcA | ldDeA | ldHliA | ldHldA | ldhCA => exact busWrite_charge fun _ => finish_charge rfl
  case ldHlR8 =>
    rw [execLdHlR8, State.charge_reg]
    exact busWrite_charge fun _ => finish_charge rfl
  case ldABc | ldADe | ldAHli | ldAHld | ldhAC => exact loadA_charge fun _ => finish_charge rfl
  case ldR8Hl => exact busRead_charge fun _ _ => finish_charge (State.setReg_charge ..)
  case bitHl => exact busRead_charge fun _ _ => finish_charge rfl
  case ldR8D8 => exact imm8_charge fun _ _ => finish_charge (State.setReg_charge ..)
  case jrE8 => exact imm8_charge fun _ _ => finish_charge rfl
  case addSpE8 => exact addSpE8_charge _
  case ldHlSpE8 => exact ldHlSpE8_charge _
  case ldHlD8 | ldhA8A => exact imm8_charge fun _ _ => busWrite_charge fun _ => finish_charge rfl
  case ldhAA8 => exact imm8_charge fun _ _ => loadA_charge fun _ => finish_charge rfl
  case ldR16D16 => exact imm16_charge fun _ _ => finish_charge (State.setReg16_charge ..)
  case jpA16 => exact imm16_charge fun _ _ => finish_charge rfl
  case ldA16A => exact imm16_charge fun _ _ => busWrite_charge fun _ => finish_charge rfl
  case ldAA16 => exact imm16_charge fun _ _ => loadA_charge fun _ => finish_charge rfl
  case ldA16Sp => exact imm16_charge fun _ _ => busWrite_charge fun _ => busWrite_charge fun _ => finish_charge rfl
  case callA16 => exact imm16_charge fun _ _ => callTo_charge
  case rstT => exact callTo_charge
  case ret => exact returnWith_charge
  case reti => exact returnFromInterrupt_charge
  case pushR16 =>
    rw [execPushR16, State.charge_regStk]
    exact push16_charge fun _ => finish_charge rfl
  case popR16 => exact pop16_charge fun _ _ => finish_charge (State.setRegStk_charge ..)
  case popAf => exact pop16_charge fun _ _ => finish_charge rfl
  case jpCcA16 =>
    simp only [execJpCcA16, condHolds_charge]
    exact imm16_charge fun _ _ => ite_charge (finish_charge rfl) (finish_charge rfl)
  case jrCcE8 =>
    simp only [execJrCcE8, condHolds_charge]
    exact imm8_charge fun _ _ => ite_charge (finish_charge rfl) (finish_charge rfl)
  case callCcA16 =>
    simp only [execCallCcA16, condHolds_charge]
    exact imm16_charge fun _ _ => ite_charge callTo_charge (finish_charge rfl)
  case retCc =>
    simp only [execRetCc, condHolds_charge]
    exact ite_charge returnWith_charge (finish_charge rfl)
  case halt => exact readIrqRegs_charge fun _ _ _ => ite_charge (finish_charge rfl) (finish_charge rfl)

theorem execPrefixed_charge (i : CbInstr) : execPrefixed i (s.charge n) = addTicks n (execPrefixed i s) := by
  rw [execPrefixed_eq_exec, execPrefixed_eq_exec, exec_row_charge (toInstr_ne_prefixCb i)]

theorem exec_charge (i : Instr) : exec i (s.charge n) = addTicks n (exec i s) := by
  by_cases hi : i = .prefixCb
  · subst hi
    show execPrefixCb (s.charge n) = addTicks n (execPrefixCb s)
    exact imm8_charge fun _ _ => execPrefixed_charge _
  · exact exec_row_charge hi

theorem State.foldl_onEvent_charge (es : List BusEvent) :
    es.foldl State.onEvent (s.charge n) = (es.foldl State.onEvent s).charge n := by
  induction es generalizing s with
  | nil => rfl
  | cons e es ih =>
    have he : (s.charge n).onEvent e = (s.onEvent e).charge n := by cases e <;> rfl
    rw [List.foldl_cons, he, ih, List.foldl_cons]

theorem State.begun_charge : (s.charge n).begun = s.begun.charge n := by
  unfold State.begun State.environment
  rw [State.charge_env]
  split
  · rfl
  · next es rest _ =>
    exact congrArg (fun u : State => { u with busLog := [] }) (State.foldl_onEvent_charge (s := { s with env := rest }) es)

theorem fetchExecute_charge : fetchExecute exec (s.charge n) = addTicks n (fetchExecute exec s) :=
  busRead_charge fun _ u => exec_charge (s := u.fetched) _

theorem afterIrqRead_charge (ie iff : Byte) :
    afterIrqRead exec ie iff (s.charge n) = addTicks n (afterIrqRead exec ie iff s) := by
  unfold afterIrqRead
  refine ite_charge ?_ (ite_charge ?_ ?_)
  · split
    · exact finish_charge rfl
    · exact ite_charge (takeInterrupt_charge (s := s.wake) ..) (fetchExecute_charge (s := s.wake))
  · exact takeInterrupt_charge ..
  · exact fetchExecute_charge

theorem step_charge : step (s.charge n) = addTicks n (step s) := by
  cases hf : s.fault with
  | some e =>
    simp only [step, engine, State.charge_fault, hf]
    rfl
  | none =>
    simp only [step, engine, State.charge_fault, hf, stepBody, State.begun_charge]
    exact readIrqRegs_charge fun _ _ _ => afterIrqRead_charge ..

end Ticks

end Sys2Proof.Machine
end

section
/-! Proofs of the family 10_state.md: the obligations, from the state a completed instruction leaves and from what a step can do
(`step_eq_next`). -/

namespace Sys2Proof.Machine

/-! ### The invariant under the operations of a step -/

namespace State.Inv

variable {s : State} (h : s.Inv)
include h

theorem charge (n : Nat) : (s.charge n).Inv :=
  ⟨h.memory, h.flagsLow, h.haltedQuiet, h.haltBugMasked, h.notFaulted⟩

theorem afterRead (x : Word) : (s.afterRead x).Inv :=
  ⟨h.memory, h.flagsLow, h.haltedQuiet, h.haltBugMasked, h.notFaulted⟩

theorem afterWrite (x : Word) (v : Byte) : (s.afterWrite x v).Inv :=
  ⟨Memory.wf_afterWrite h.memory x v, h.flagsLow, h.haltedQuiet, h.haltBugMasked, h.notFaulted⟩

theorem pushed (w : Word) : (s.pushed w).Inv :=
  ⟨Memory.wf_pushed h.memory w, h.flagsLow, h.haltedQuiet, h.haltBugMasked, h.notFaulted⟩

theorem irqRead : s.irqRead.Inv := ⟨h.memory, h.flagsLow, h.haltedQuiet, h.haltBugMasked, h.notFaulted⟩

theorem wake : s.wake.Inv := ⟨h.memory, h.flagsLow, nofun, h.haltBugMasked, h.notFaulted⟩

/-- A fetch disarms both one-shot flags. -/
theorem fetched : s.fetched.Inv := ⟨h.memory, h.flagsLow, fun _ => ⟨rfl, rfl⟩, nofun, h.notFaulted⟩

/-- A dispatch clears `IME`, which an armed halt bug asks for. -/
theorem dispatched (w : Word) : ({ s with pc := w, ime := false } : State).Inv :=
  ⟨h.memory, h.flagsLow, h.haltedQuiet, fun hb => ⟨rfl, (h.haltBugMasked hb).2⟩, h.notFaulted⟩

theorem atRow (i : Instr) : (s.atRow i).Inv := by
  unfold State.atRow
  split
  · exact ⟨h.memory, h.flagsLow, h.haltedQuiet, h.haltBugMasked, h.notFaulted⟩
  · exact h

end State.Inv

theorem Memory.wf_foldl_onEvent (es : List BusEvent) {s : State} (h : Memory.wf s.mem) :
    Memory.wf (es.foldl State.onEvent s).mem := by
  induction es generalizing s with
  | nil => exact h
  | cons e es ih =>
    refine ih ?_
    cases e with
    | store x v => exact Memory.wf_store h x v
    | device | remap => exact h

theorem Memory.wf_begun {s : State} (h : Memory.wf s.mem) : Memory.wf s.begun.mem := by
  show Memory.wf s.environment.mem
  unfold State.environment
  split
  · exact h
  · exact Memory.wf_foldl_onEvent _ h

/-- Whatever other agents do before the step (R75). -/
theorem State.Inv.begun {s : State} (h : s.Inv) : s.begun.Inv where
  memory := Memory.wf_begun h.memory
  flagsLow := by simpa using h.flagsLow
  haltedQuiet := by simpa using h.haltedQuiet
  haltBugMasked := by simpa using h.haltBugMasked
  notFaulted := by simpa using h.notFaulted

theorem takeInterrupt_keeps_inv {iff v : Byte} {s t : State} (hs : s.Inv) (h : takeInterrupt iff v s = .next t) : t.Inv := by
  obtain ⟨-, -, rfl⟩ := takeInterrupt_eq_next.1 h
  exact (((hs.afterWrite 0xFF0F (clearRequest iff (lowestBit v))).pushed s.pc).dispatched _).charge 5

/-! ### The invariant under an instruction -/

/-- Running, and nothing armed: every state in which an instruction begins to execute, since the fetch has disarmed both flags. -/
structure State.Quiet (s : State) : Prop where
  running : s.halted = false
  noEnable : s.deferredEnable = false
  noHaltBug : s.haltBugArmed = false

theorem State.Quiet.atRow {s : State} (h : s.Quiet) (i : Instr) : (s.atRow i).Quiet := by
  unfold State.atRow
  split
  · exact ⟨h.running, h.noEnable, h.noHaltBug⟩
  · exact h

/-- From a quiet state `HALT` enters Halted or arms the bug with `IME` = 0, `EI` arms the enable alone, and nothing else arms. -/
theorem completed_runState_inv (i : Instr) {s : State} (hq : s.Quiet) :
    ((completed i s).halted = true → (completed i s).deferredEnable = false ∧ (completed i s).haltBugArmed = false) ∧
    ((completed i s).haltBugArmed = true → (completed i s).ime = false ∧ (completed i s).deferredEnable = false) := by
  obtain ⟨hh, hd, hb⟩ := hq
  by_cases hm : movesRunState i = false
  · obtain ⟨hh', -, hd', hb'⟩ := completed_runState hm s
    simp [hh', hb', hh, hb]
  cases i <;> simp only [movesRunState, not_true_eq_false] at hm
  case halt =>
    rw [completed]
    split
    · next hp =>
      obtain ⟨-, hi⟩ : s.pending ≠ 0 ∧ s.ime = false := by simpa using hp
      simp [hh, hd, hi]
    · simp [hd, hb]
  case reti | di | ei => simp [completed, hh, hb]

theorem completed_keeps_inv (i : Instr) {s : State} (hs : s.Inv) (hq : s.Quiet) : (completed i s).Inv where
  memory := wf_completed i hs.memory
  flagsLow := by
    cases hf : writesFlags i with
    | false => rw [completed_f hf]; exact hs.flagsLow
    | true => exact completed_f_low hf s
  haltedQuiet := (completed_runState_inv i hq).1
  haltBugMasked := (completed_runState_inv i hq).2
  notFaulted := by rw [completed_fault, hs.notFaulted]

theorem exec_keeps_inv {i : Instr} {s t : State} (hs : s.Inv) (hq : s.Quiet) (h : exec i s = .next t) : t.Inv := by
  obtain ⟨-, -, rfl⟩ := exec_eq_next h
  exact completed_keeps_inv _ (hs.atRow i) (hq.atRow i)

/-- Settles O2, by the three things a completed step can do: idle, dispatch, or run the instruction at `PC`. -/
theorem stepKeepsInvariant : Obligations.StepKeepsInvariant := by
  intro s t hs h
  have hu : s.begun.irqRead.Inv := hs.begun.irqRead
  obtain ⟨-, -, ⟨-, -, rfl⟩ | ⟨-, -, h⟩ | ⟨-, -, h⟩⟩ := step_eq_next h
  · exact hu.charge 1
  · exact takeInterrupt_keeps_inv hu.wake h
  · exact exec_keeps_inv (hu.wake.afterRead s.begun.pc).fetched ⟨rfl, rfl, rfl⟩ h

/-! ### Frames of an instruction -/

/-- Settles O52: the row that runs leaves `F`, and so does the read of its second byte, if it has one. -/
theorem onlyTheFlagTableWritesFlags : Obligations.OnlyTheFlagTableWritesFlags := by
  intro i s t h hf
  obtain ⟨-, -, rfl⟩ := exec_eq_next h
  rw [completed_f hf, State.atRow_f]

/-- The rows of the 0xCB space read no operand byte and transfer no control: their second opcode byte has been read. -/
theorem toInstr_pc (i : CbInstr) : i.toInstr.operandBytes = 0 ∧ transfersControl i.toInstr = false := by
  obtain ⟨o, p⟩ := i
  cases o <;> cases p <;> exact ⟨rfl, rfl⟩

theorem exec_pc {i : Instr} {s t : State} (h : exec i s = .next t) (hc : transfersControl i = false) :
    t.pc = s.pc + BitVec.ofNat 16 i.operandBytes := by
  obtain ⟨hne, -, rfl⟩ := exec_eq_next h
  by_cases hi : i = .prefixCb
  · subst hi
    obtain ⟨hb, ht⟩ := toInstr_pc (decodePrefixed (s.byteAt s.pc))
    calc (completed (effective .prefixCb s) (s.atRow .prefixCb)).pc
        = s.pastImm8.pc + BitVec.ofNat 16 (decodePrefixed (s.byteAt s.pc)).toInstr.operandBytes := completed_pc hne ht _
      _ = s.pc + BitVec.ofNat 16 Instr.prefixCb.operandBytes := by rw [hb, State.pastImm8_pc, BitVec.add_zero]; rfl
  · rw [effective_of_ne hi, s.atRow_of_ne hi, completed_pc hi hc]

/-- Settles O53: the row that runs leaves the registers and `SP`; `PC` also counts the second byte of a 0xCB row. -/
theorem registersOutsideTheDestinationsAreKept : Obligations.RegistersOutsideTheDestinationsAreKept := by
  intro i s t h
  have hpc := exec_pc h
  obtain ⟨-, -, rfl⟩ := exec_eq_next h
  exact ⟨fun r hr => by rw [completed_reg hr, State.atRow_reg], fun hsp => by rw [completed_sp hsp, State.atRow_sp], hpc⟩

/-! ### Cycles -/

/-- A row that completes by itself costs 1 to 6 cycles in the table of R378. -/
theorem cycles_bounds {i : Instr} (hp : i ≠ .prefixCb) (hr : raises i = false) (taken : Bool) :
    1 ≤ cycles i taken ∧ cycles i taken ≤ 6 := by
  cases i
  case prefixCb => exact absurd rfl hp
  case stop | illegalD3 | illegalDB | illegalDD | illegalE3 | illegalE4 | illegalEB | illegalEC | illegalED | illegalF4 |
      illegalFC | illegalFD => cases hr
  case jrCcE8 | jpCcA16 | callCcA16 | retCc => cases taken <;> simp [cycles]
  all_goals simp [cycles]

theorem exec_ticks {i : Instr} {s t : State} (h : exec i s = .next t) : s.ticks + 1 ≤ t.ticks ∧ t.ticks ≤ s.ticks + 6 := by
  obtain ⟨hp, hr, rfl⟩ := exec_eq_next h
  have hb := cycles_bounds hp hr (takenIn (effective i s) (s.atRow i))
  rw [completed_ticks, State.atRow_ticks]
  omega

theorem step_ticks {s t : State} (h : step s = .next t) : s.ticks + 1 ≤ t.ticks ∧ t.ticks ≤ s.ticks + 6 := by
  obtain ⟨-, -, ⟨-, -, rfl⟩ | ⟨-, -, h⟩ | ⟨-, -, h⟩⟩ := step_eq_next h
  · simp
  · obtain ⟨-, -, rfl⟩ := takeInterrupt_eq_next.1 h
    simp
  · simpa using exec_ticks h

/-- Settles O59: the bound by what a completed step can do, the independence by `step_charge`. -/
theorem ticksCountAndInfluenceNothing : Obligations.TicksCountAndInfluenceNothing := by
  refine ⟨fun s t h => step_ticks h, fun s n => ?_⟩
  rw [show ({ s with ticks := s.ticks + n } : State) = s.charge n from rfl, step_charge]
  cases step s <;> rfl

/-! ### Reset -/

theorem State.reset_rules (addr : Word) : State.reset.readRule addr = .memory ∧ State.reset.writeRule addr = .memory := by
  have hc : State.reset.claims = [⟨0x0000, 0xFFFF, .memory, .memory⟩] := rfl
  have hin : (0x0000 : Word) ≤ addr ∧ addr ≤ 0xFFFF := ⟨by bv_omega, by bv_omega⟩
  exact ⟨State.readRule_of_head_claims hc hin (by decide), State.writeRule_of_head_claims hc hin (by decide)⟩

theorem State.reset_busAnswers : State.reset.BusAnswers := by
  intro d addr
  obtain ⟨hr, hw⟩ := State.reset_rules addr
  exact ⟨(State.read_of_readAnswer_some (State.readAnswer_memory (by exact hr))).1,
    fun v => (State.write_of_writeAnswer_some (State.writeAnswer_memory (by exact hw) v)).1⟩

theorem State.reset_inv : State.reset.Inv := ⟨Memory.wf_reset, rfl, nofun, nofun, rfl⟩

theorem State.reset_byteAt (addr : Word) : State.reset.byteAt addr = 0 :=
  State.byteAt_memory (State.reset_rules addr).1

/-- Settles O1: the fields are those of `State.reset`; the bus by its one range, which covers every address. -/
theorem resetState : Obligations.ResetState :=
  ⟨by decide, rfl, rfl, by decide, by decide, State.reset_busAnswers,
    fun addr => ⟨(State.reset_rules addr).1, (State.reset_rules addr).2, State.reset_byteAt addr⟩, State.reset_inv⟩

/-! ### The pairs -/

/-- A write to `AF` clears the low half of `F` and keeps the rest of the word (R21, R22). -/
theorem word_clearing_low_nibble (w : Word) : word (hiByte w) (loByte w &&& 0xF0) = w &&& 0xFFF0 :=
  calc word (hiByte w) (loByte w &&& 0xF0)
      = word (hiByte w &&& 0xFF) (loByte w &&& 0xF0) := by rw [show hiByte w &&& 0xFF = hiByte w from BitVec.and_allOnes]
    _ = word (hiByte w) (loByte w) &&& word 0xFF 0xF0 := BitVec.and_append.symm
    _ = w &&& 0xFFF0 := by rw [word_hiByte_loByte]; rfl

/-- Settles O6: the views are the definitions; reading back is the concatenation of the two halves. -/
theorem pairsAreViewsOverBytePairs : Obligations.PairsAreViewsOverBytePairs :=
  ⟨fun _ => ⟨rfl, rfl, rfl, rfl⟩,
    fun _ w => ⟨rfl, rfl, rfl, rfl, word_hiByte_loByte w, word_hiByte_loByte w, word_hiByte_loByte w,
      word_clearing_low_nibble w⟩,
    fun _ _ => ⟨rfl, rfl⟩⟩

/-! ### Conditional jumps -/

/-- The target of a relative jump, as an integer modulo 65536 and as the sum of words (R294). -/
theorem ofInt_relative (pc : Word) (e : Byte) : BitVec.ofInt 16 ((pc.toNat : Int) + 1 + e.toInt) = pc + 1 + sext16 e := by
  rw [BitVec.ofInt_add, BitVec.ofInt_add, BitVec.ofInt_natCast, BitVec.ofNat_toNat, BitVec.setWidth_eq]
  rfl

theorem exec_jpCcA16 (cc : Cond) (s : State) : exec (.jpCcA16 cc) s =
    imm16 s fun a u => if condHolds cc s then finish 4 (u.jump a) else finish 3 u := rfl

theorem exec_jrCcE8 (cc : Cond) (s : State) : exec (.jrCcE8 cc) s =
    imm8 s fun e u => if condHolds cc s then finish 3 (u.jump (u.pc + sext16 e)) else finish 2 u := rfl

/-- Settles O37: the operand fetch first, in both cases, then the condition as it was before the fetch (R290). -/
theorem conditionalJumps : Obligations.ConditionalJumps := by
  refine ⟨fun cc => ?encodings, fun s => ?conditions, fun s cc h => ?jp,
    fun cc => ⟨fun s h => ?jpFirst, fun s h h' => ?jpSecond⟩, fun s cc h => ?jr, fun s cc h => ?jrFails⟩
  case encodings => cases cc <;> decide
  case conditions => simp [condHolds]
  case jp =>
    rw [exec_jpCcA16, imm16_claimed h]
    cases condHolds cc s <;> rfl
  case jpFirst => rw [exec_jpCcA16, imm16_fails_first h]
  case jpSecond => rw [exec_jpCcA16, imm16_fails_second h h']
  case jr =>
    rw [exec_jrCcE8, imm8_claimed h, ofInt_relative]
    cases condHolds cc s <;> rfl
  case jrFails => rw [exec_jrCcE8, imm8_unclaimed h]

end Sys2Proof.Machine
end

section
/-! Proofs of the family 20_memory.md: plain memory, a read after a write and the canonical form (log 1). -/

namespace Sys2Proof.Machine

namespace Memory

theorem mem_of_read {m : Memory} {a : Nat} (h : m.read a ≠ unlisted a) : (a, m.read a) ∈ m := by
  induction m with
  | nil => exact absurd rfl h
  | cons c m ih =>
    obtain ⟨k, w⟩ := c
    by_cases hk : k = a
    · simp [read, hk]
    · simp only [read, if_neg hk] at h ⊢
      exact List.mem_cons_of_mem _ (ih h)

theorem read_of_mem {m : Memory} (hp : m.Pairwise fun c d => c.1 < d.1) {c : Host.Cell} (hc : c ∈ m) :
    m.read c.1 = c.2 := by
  induction m with
  | nil => cases hc
  | cons d m ih =>
    obtain ⟨hd, hp⟩ := List.pairwise_cons.1 hp
    rcases List.mem_cons.1 hc with rfl | hc
    · exact if_pos rfl
    · exact (if_neg (hd c hc).ne).trans (ih hp hc)

/-- A canonical memory lists exactly the addresses within 16 bits that do not read as an unlisted one, with their bytes. -/
theorem mem_iff_read {m : Memory} (h : wf m) {c : Host.Cell} :
    c ∈ m ↔ c.1 < 65536 ∧ m.read c.1 = c.2 ∧ c.2 ≠ unlisted c.1 := by
  obtain ⟨hp, hv⟩ := h
  constructor
  · intro hc
    exact ⟨(hv c hc).1, read_of_mem hp hc, (hv c hc).2⟩
  · rintro ⟨-, hr, hne⟩
    have hm : (c.1, m.read c.1) ∈ m := mem_of_read (by rwa [hr])
    rwa [hr] at hm

/-- The canonical form is determined by what the addresses read as: it is the only rising list of its cells. -/
theorem eq_of_read_eq {m n : Memory} (hm : wf m) (hn : wf n) (h : ∀ a < 65536, m.read a = n.read a) : m = n := by
  have : Std.Irrefl fun c d : Host.Cell => c.1 < d.1 := ⟨fun c => Nat.lt_irrefl c.1⟩
  have : Std.Asymm fun c d : Host.Cell => c.1 < d.1 := ⟨fun _ _ => Nat.lt_asymm⟩
  refine hm.1.eq_of_mem_iff hn.1 fun c => ?_
  rw [mem_iff_read hm, mem_iff_read hn]
  exact and_congr_right fun hc => by rw [h c.1 hc]

end Memory

/-- Settles O8, by the law of a read after a write and the canonical form that a write keeps. -/
theorem memoryReadsBackWrites : Obligations.MemoryReadsBackWrites := fun m addr v =>
  ⟨m.read_write_same addr.toNat v, fun _ hne => m.read_write_ne (fun h => hne (BitVec.eq_of_toNat_eq h)) v,
    fun h => Memory.wf_write h addr.isLt v⟩

/-- Settles O9: every number below 65536 is an address, and a canonical memory is determined by what those read as. -/
theorem canonicalMemoriesReadingAlikeAreEqual : Obligations.CanonicalMemoriesReadingAlikeAreEqual := fun _ _ hm hn h =>
  Memory.eq_of_read_eq hm hn fun a ha => by simpa [Nat.mod_eq_of_lt ha] using h (BitVec.ofNat 16 a)

end Sys2Proof.Machine
end

section
/-! Proofs of the family 20_memory.md: what an instruction does to the bus. The operations each row makes, in order (`busOps`), tied
to the state the row leaves by `did_busOps`; they write at the addresses of `storesTo` and nowhere else. -/

namespace Sys2Proof.Machine

/-! ### The operations a row makes -/

/-- A read of the address, with the byte the bus answers now. -/
def State.readOp (s : State) (x : Word) : BusOp := .read x (s.byteAt x)

/-- The read of the operand byte at `PC` (R137). -/
def State.imm8Ops (s : State) : List BusOp := [s.readOp s.pc]

/-- The reads of the two operand bytes at `PC` (R138). -/
def State.imm16Ops (s : State) : List BusOp := [s.readOp s.pc, (s.afterRead s.pc).readOp (s.pc + 1)]

/-- The writes of a push (R139). -/
def State.pushOps (s : State) (w : Word) : List BusOp := [.write (s.sp - 1) (hiByte w), .write (s.sp - 2) (loByte w)]

/-- The reads of a pop (R140). -/
def State.popOps (s : State) : List BusOp := [s.readOp s.sp, (s.afterRead s.sp).readOp (s.sp + 1)]

/-- The read and the write of the byte at `HL`, replaced by a value computed from it. -/
def State.rewriteHlOps (s : State) (op : Byte → Byte) : List BusOp := [s.readOp s.hl, .write s.hl (op (s.byteAt s.hl))]

/-- The bus operations a row makes when it completes, in order; `did_busOps` ties them to the state it leaves. -/
def busOps (i : Instr) (s : State) : List BusOp :=
  match i with
  | .ldABc => [s.readOp s.bc]
  | .ldADe => [s.readOp s.de]
  | .ldhAC => [s.readOp (highPage s.c)]
  | .ldAHli | .ldAHld | .ldR8Hl _ | .bitHl _
  | .addAHl | .adcAHl | .subAHl | .sbcAHl | .andAHl | .xorAHl | .orAHl | .cpAHl => [s.readOp s.hl]
  | .ldBcA => [.write s.bc s.a]
  | .ldDeA => [.write s.de s.a]
  | .ldhCA => [.write (highPage s.c) s.a]
  | .ldHliA | .ldHldA => [.write s.hl s.a]
  | .ldHlR8 r => [.write s.hl (s.reg r)]
  | .jrE8 | .jrCcE8 _ | .addSpE8 | .ldHlSpE8 | .ldR8D8 _
  | .addAD8 | .adcAD8 | .subAD8 | .sbcAD8 | .andAD8 | .xorAD8 | .orAD8 | .cpAD8 => s.imm8Ops
  | .ldHlD8 => s.imm8Ops ++ [.write s.hl (s.byteAt s.pc)]
  | .ldhA8A => s.imm8Ops ++ [.write (highPage (s.byteAt s.pc)) s.a]
  | .ldhAA8 => s.imm8Ops ++ [s.pastImm8.readOp (highPage (s.byteAt s.pc))]
  | .jpA16 | .jpCcA16 _ | .ldR16D16 _ => s.imm16Ops
  | .ldA16A => s.imm16Ops ++ [.write s.operand16 s.a]
  | .ldAA16 => s.imm16Ops ++ [s.pastImm16.readOp s.operand16]
  | .ldA16Sp => s.imm16Ops ++ [.write s.operand16 (loByte s.sp), .write (s.operand16 + 1) (hiByte s.sp)]
  | .callA16 => s.imm16Ops ++ s.pushOps (s.pc + 2)
  | .callCcA16 cc => s.imm16Ops ++ if condHolds cc s then s.pushOps (s.pc + 2) else []
  | .rstT _ => s.pushOps s.pc
  | .pushR16 p => s.pushOps (s.regStk p)
  | .ret | .reti | .popAf | .popR16 _ => s.popOps
  | .retCc cc => if condHolds cc s then s.popOps else []
  | .halt => [s.readOp 0xFFFF, (s.afterRead 0xFFFF).readOp 0xFF0F]
  | .incHl => s.rewriteHlOps fun v => (incFlags v s.cf).1
  | .decHl => s.rewriteHlOps fun v => (decFlags v s.cf).1
  | .rlcHl => s.rewriteHlOps fun v => (rotLeft v s.cf).1
  | .rrcHl => s.rewriteHlOps fun v => (rotRight v s.cf).1
  | .rlHl => s.rewriteHlOps fun v => (rotLeftCarry v s.cf).1
  | .rrHl => s.rewriteHlOps fun v => (rotRightCarry v s.cf).1
  | .slaHl => s.rewriteHlOps fun v => (shiftLeft v s.cf).1
  | .sraHl => s.rewriteHlOps fun v => (shiftRightArith v s.cf).1
  | .swapHl => s.rewriteHlOps fun v => (swapNibbles v s.cf).1
  | .srlHl => s.rewriteHlOps fun v => (shiftRightLogic v s.cf).1
  | .resHl b => s.rewriteHlOps (resBit b)
  | .setHl b => s.rewriteHlOps (setBit b)
  | _ => []

/-! ### They are what becomes of the bus -/

theorem SameBus.charge_setReg (s : State) (r : Reg8) (v : Byte) (n : Nat) : SameBus ((s.setReg r v).charge n) s := by
  cases r <;> exact ⟨rfl, rfl, rfl, rfl⟩

theorem SameBus.charge_setReg16 (s : State) (r : R16) (w : Word) (n : Nat) : SameBus ((s.setReg16 r w).charge n) s := by
  cases r <;> exact ⟨rfl, rfl, rfl, rfl⟩

theorem SameBus.charge_setRegStk (s : State) (p : R16Stk) (w : Word) (n : Nat) : SameBus ((s.setRegStk p w).charge n) s := by
  cases p <;> exact ⟨rfl, rfl, rfl, rfl⟩

namespace Did

theorem writes (s : State) (x y : Word) (v w : Byte) :
    Did s [.write x v, .write y w] ((s.afterWrite x v).afterWrite y w) := (write s x v).trans (write _ y w)

theorem readWrite (s : State) (x : Word) (v : Byte) : Did s [s.readOp x, .write x v] ((s.afterRead x).afterWrite x v) :=
  (read s x).trans (write _ x v)

end Did

/-- The bus of the state a row leaves is what the row's operations, made one after another, leave of it. -/
theorem did_busOps (i : Instr) (s : State) : Did s (busOps i s) (completed i s) := by
  cases i
  -- The registers an update writes are not of the bus, whichever register it is.
  case ldR8R8 | incR8 | decR8 | rlcR8 | rrcR8 | rlR8 | rrR8 | slaR8 | sraR8 | swapR8 | srlR8 | resR8 | setR8 =>
    exact (Did.none s).congr (.trans (.charge_setReg ..) ⟨rfl, rfl, rfl, rfl⟩)
  case incR16 | decR16 => exact (Did.none s).congr (.charge_setReg16 ..)
  case ldR8D8 => exact (Did.imm8 s).congr (.charge_setReg ..)
  case ldR8Hl => exact (Did.read s s.hl).congr (.charge_setReg ..)
  case ldR16D16 => exact (Did.imm16 s).congr (.charge_setReg16 ..)
  case popR16 => exact (Did.pop s).congr (.charge_setRegStk ..)
  -- The rows with a condition leave one of two states.
  case jrCcE8 => rw [completed]; split <;> exact (Did.imm8 s).congr ⟨rfl, rfl, rfl, rfl⟩
  case jpCcA16 => rw [completed]; split <;> exact (Did.imm16 s).congr ⟨rfl, rfl, rfl, rfl⟩
  case halt => rw [completed]; split <;> exact (Did.irqReads s).congr ⟨rfl, rfl, rfl, rfl⟩
  case retCc =>
    rw [completed, busOps]
    split
    · exact (Did.pop s).congr ⟨rfl, rfl, rfl, rfl⟩
    · exact (Did.none s).congr ⟨rfl, rfl, rfl, rfl⟩
  case callCcA16 =>
    rw [completed, busOps]
    split
    · exact ((Did.imm16 s).trans (.push s.pastImm16 _)).congr ⟨rfl, rfl, rfl, rfl⟩
    · exact (Did.imm16 s).congr ⟨rfl, rfl, rfl, rfl⟩
  -- The others leave the bus as the operations of one shape leave it.
  case ldABc | ldADe | ldhAC | ldAHli | ldAHld | bitHl | addAHl | adcAHl | subAHl | sbcAHl | andAHl | xorAHl | orAHl | cpAHl =>
    exact (Did.read s _).congr ⟨rfl, rfl, rfl, rfl⟩
  case ldBcA | ldDeA | ldhCA | ldHliA | ldHldA | ldHlR8 => exact (Did.write s _ _).congr ⟨rfl, rfl, rfl, rfl⟩
  case jrE8 | addSpE8 | ldHlSpE8 | addAD8 | adcAD8 | subAD8 | sbcAD8 | andAD8 | xorAD8 | orAD8 | cpAD8 =>
    exact (Did.imm8 s).congr ⟨rfl, rfl, rfl, rfl⟩
  case ldHlD8 | ldhA8A => exact ((Did.imm8 s).trans (.write _ _ _)).congr ⟨rfl, rfl, rfl, rfl⟩
  case ldhAA8 => exact ((Did.imm8 s).trans (.read _ _)).congr ⟨rfl, rfl, rfl, rfl⟩
  case jpA16 => exact (Did.imm16 s).congr ⟨rfl, rfl, rfl, rfl⟩
  case ldA16A => exact ((Did.imm16 s).trans (.write _ _ _)).congr ⟨rfl, rfl, rfl, rfl⟩
  case ldAA16 => exact ((Did.imm16 s).trans (.read _ _)).congr ⟨rfl, rfl, rfl, rfl⟩
  case ldA16Sp => exact ((Did.imm16 s).trans (.writes _ _ _ _ _)).congr ⟨rfl, rfl, rfl, rfl⟩
  case callA16 => exact ((Did.imm16 s).trans (.push s.pastImm16 _)).congr ⟨rfl, rfl, rfl, rfl⟩
  case rstT | pushR16 => exact (Did.push s _).congr ⟨rfl, rfl, rfl, rfl⟩
  case ret | reti | popAf => exact (Did.pop s).congr ⟨rfl, rfl, rfl, rfl⟩
  case incHl | decHl | rlcHl | rrcHl | rlHl | rrHl | slaHl | sraHl | swapHl | srlHl | resHl | setHl =>
    exact (Did.readWrite s _ _).congr ⟨rfl, rfl, rfl, rfl⟩
  all_goals exact (Did.none s).congr ⟨rfl, rfl, rfl, rfl⟩

/-! ### Where they write -/

/-- The address an operation writes at, if it is a write. -/
def BusOp.writtenTo : BusOp → Option Word
  | .read _ _ => none
  | .write x _ => some x

theorem writtenTo_busOps (i : Instr) (s : State) : (busOps i s).filterMap BusOp.writtenTo = storesTo i s := by
  cases i
  case callCcA16 | retCc => simp only [busOps, storesTo]; split <;> rfl
  all_goals rfl

theorem State.memAt_perform {op : BusOp} {addr : Word} (h : op.writtenTo ≠ some addr) (s : State) :
    (s.perform op).memAt addr = s.memAt addr := by
  cases op with
  | read x v => rfl
  | write x v => exact s.memAt_afterWrite_ne (fun e => h (congrArg some e.symm)) v

theorem State.memAt_foldl_perform {ops : List BusOp} {addr : Word} (h : addr ∉ ops.filterMap BusOp.writtenTo) (s : State) :
    (ops.foldl State.perform s).memAt addr = s.memAt addr := by
  induction ops generalizing s with
  | nil => rfl
  | cons op ops ih =>
    have hop : op.writtenTo ≠ some addr := fun e => h (List.mem_filterMap.2 ⟨op, List.mem_cons_self, e⟩)
    have hops : addr ∉ ops.filterMap BusOp.writtenTo := fun e =>
      h (((List.sublist_cons_self op ops).filterMap BusOp.writtenTo).subset e)
    rw [List.foldl_cons, ih hops, State.memAt_perform hop]

theorem State.claims_foldl_perform (ops : List BusOp) (s : State) : (ops.foldl State.perform s).claims = s.claims := by
  induction ops generalizing s with
  | nil => rfl
  | cons op ops ih => rw [List.foldl_cons, ih]; cases op <;> rfl

namespace Did

variable {s t : State} {ops : List BusOp} (h : Did s ops t)
include h

theorem memAt {addr : Word} (ha : addr ∉ ops.filterMap BusOp.writtenTo) : t.memAt addr = s.memAt addr := by
  rw [← State.memAt_foldl_perform ha s]
  simp only [State.memAt, h.bus.mem]

theorem claims : t.claims = s.claims := h.bus.claims.trans (State.claims_foldl_perform ops s)

end Did

/-! ### What no row touches -/

theorem completed_env (i : Instr) (s : State) : (completed i s).env = s.env := by
  cases i
  case jrCcE8 | jpCcA16 | callCcA16 | retCc | halt => simp [completed, apply_ite State.env]
  all_goals simp [completed]

theorem completed_opAddr (i : Instr) (s : State) : (completed i s).opAddr = s.opAddr := by
  cases i
  case jrCcE8 | jpCcA16 | callCcA16 | retCc | halt => simp [completed, apply_ite State.opAddr]
  all_goals simp [completed]

@[simp] theorem State.atRow_env (s : State) (i : Instr) : (s.atRow i).env = s.env := by unfold State.atRow; split <;> rfl

@[simp] theorem State.atRow_fault (s : State) (i : Instr) : (s.atRow i).fault = s.fault := by
  unfold State.atRow; split <;> rfl

@[simp] theorem State.atRow_opAddr (s : State) (i : Instr) : (s.atRow i).opAddr = s.opAddr := by
  unfold State.atRow; split <;> rfl

/-! ### An instruction, the second byte of a 0xCB row included -/

/-- The bus operations of an instruction: of the 0xCB row, the read of its second byte comes first (R142). -/
def execOps (i : Instr) (s : State) : List BusOp :=
  match i with
  | .prefixCb => s.imm8Ops ++ busOps (effective .prefixCb s) s.pastImm8
  | i => busOps i s

theorem execOps_of_ne {i : Instr} (hi : i ≠ .prefixCb) (s : State) : execOps i s = busOps i s := by
  unfold execOps
  split
  · exact absurd rfl hi
  · rfl

theorem exec_did {i : Instr} {s t : State} (h : exec i s = .next t) : Did s (execOps i s) t := by
  obtain ⟨-, -, rfl⟩ := exec_eq_next h
  by_cases hi : i = .prefixCb
  · subst hi
    exact (Did.imm8 s).trans (did_busOps ..)
  · rw [effective_of_ne hi, s.atRow_of_ne hi, execOps_of_ne hi]
    exact did_busOps i s

/-- The rows of the 0xCB space store at `HL` or nowhere, which the read of their second byte leaves. -/
theorem storesTo_toInstr_pastImm8 (i : CbInstr) (s : State) : storesTo i.toInstr s.pastImm8 = storesTo i.toInstr s := by
  obtain ⟨o, p⟩ := i
  cases o <;> cases p <;> rfl

theorem writtenTo_execOps (i : Instr) (s : State) :
    (execOps i s).filterMap BusOp.writtenTo = storesTo (effective i s) s := by
  by_cases hi : i = .prefixCb
  · subst hi
    calc (execOps .prefixCb s).filterMap BusOp.writtenTo
        = (busOps (effective .prefixCb s) s.pastImm8).filterMap BusOp.writtenTo := rfl
      _ = storesTo (effective .prefixCb s) s.pastImm8 := writtenTo_busOps ..
      _ = storesTo (effective .prefixCb s) s := storesTo_toInstr_pastImm8 ..
  · rw [execOps_of_ne hi, effective_of_ne hi, writtenTo_busOps]

/-- Settles O54: the recorded operations are those of `execOps`, which write at the addresses of the stores only; what is not of the
bus no row touches. -/
theorem memoryOutsideTheStoresIsKept : Obligations.MemoryOutsideTheStoresIsKept := by
  intro i s t h
  have hd := exec_did h
  obtain ⟨-, -, ht⟩ := exec_eq_next h
  refine ⟨fun addr ha => hd.memAt (by rwa [writtenTo_execOps]), hd.claims, ?env, ?fault, ?opAddr,
    execOps i s, hd.log, hd.bus.busLog, hd.bus.mem, hd.bus.device⟩
  case env => rw [ht, completed_env, State.atRow_env]
  case fault => rw [ht, completed_fault, State.atRow_fault]
  case opAddr => rw [ht, completed_opAddr, State.atRow_opAddr]

end Sys2Proof.Machine
end

section
/-! Proofs of the family 30_encoding.md. The fields of an opcode byte and the operand codes read back; so does, row by row, the
opcode byte of an instruction in its space; and `decode` reads the front of a byte list as one of the two spaces does. -/

namespace Sys2Proof

/-! ### The fields of a byte put together from fields (R91) -/

@[simp] theorem fieldX_opcodeXyz (x : BitVec 2) (y z : BitVec 3) : fieldX (opcodeXyz x y z) = x :=
  calc (x ++ y ++ z).extractLsb' 6 2
      = (x ++ y).extractLsb' 3 2 := BitVec.extractLsb'_append_eq_of_le (by decide)
    _ = x := BitVec.extractLsb'_append_eq_left

@[simp] theorem fieldY_opcodeXyz (x : BitVec 2) (y z : BitVec 3) : fieldY (opcodeXyz x y z) = y :=
  calc (x ++ y ++ z).extractLsb' 3 3
      = (x ++ y).extractLsb' 0 3 := BitVec.extractLsb'_append_eq_of_le (by decide)
    _ = y := BitVec.extractLsb'_append_eq_right

@[simp] theorem fieldZ_opcodeXyz (x : BitVec 2) (y z : BitVec 3) : fieldZ (opcodeXyz x y z) = z :=
  BitVec.extractLsb'_append_eq_right

/-! ### The operand codes, read back (R25) -/

@[simp] theorem Operand8.ofCode_code (r : Reg8) : ofCode r.code = .reg r := by cases r <;> rfl

@[simp] theorem Operand8.ofCode_six : ofCode 6#3 = .hl := rfl

/-! ### From an instruction to its opcode byte and back -/

/-- A well-formed bare row is what the bare table gives for its opcode byte (R105). -/
theorem decodeOpcode_opcodeByte {i : Instr} (hw : WellFormed i) (hb : i.isPrefixed = false) :
    decodeOpcode (opcodeByte i) = i := by
  cases i
  -- The rows of the 0xCB space.
  case rlcHl | rrcHl | rlHl | rrHl | slaHl | sraHl | swapHl | srlHl | rlcR8 | rrcR8 | rlR8 | rrR8 | slaR8 | sraR8 | swapR8 | srlR8 |
      bitHl | bitR8 | resHl | resR8 | setHl | setR8 => cases hb
  -- The rows whose operand is a field `y` or `z`.
  case incR8 | decR8 | ldR8D8 => simp [opcodeByte, decodeOpcode, decodeBlock0]
  case ldR8Hl | ldHlR8 | ldR8R8 => simp [opcodeByte, decodeOpcode, decodeBlock1]
  case addAR8 | adcAR8 | subAR8 | sbcAR8 | andAR8 | xorAR8 | orAR8 | cpAR8 =>
    simp [opcodeByte, decodeOpcode, decodeBlock2, AluOp.ofCode, aluRegRow]
  case rstT => simp [opcodeByte, decodeOpcode, decodeBlock3]
  -- The rows whose operand is a part of the field `y`, the rest of which selects the row.
  case jrCcE8 cc | retCc cc | jpCcA16 cc | callCcA16 cc => cases cc <;> rfl
  case ldR16D16 r | addHlR16 r | incR16 r | decR16 r => cases r <;> rfl
  case pushR16 p => cases p <;> rfl
  case popR16 p =>
    cases p with
    | af => cases hw
    | bc | de | hl => rfl
  -- The rows of one byte.
  all_goals rfl

/-- A row of the 0xCB space is what the prefixed table gives for its opcode byte (R106). -/
theorem decodePrefixed_opcodeByte {i : Instr} (hp : i.isPrefixed = true) : (decodePrefixed (opcodeByte i)).toInstr = i := by
  cases i
  case rlcHl | rrcHl | rlHl | rrHl | slaHl | sraHl | swapHl | srlHl => rfl
  case rlcR8 | rrcR8 | rlR8 | rrR8 | slaR8 | sraR8 | swapR8 | srlR8 =>
    simp [opcodeByte, decodePrefixed, CbOp.ofRotCode, CbInstr.toInstr]
  case bitHl | bitR8 | resHl | resR8 | setHl | setR8 => simp [opcodeByte, decodePrefixed, CbInstr.toInstr]
  all_goals cases hp

/-! ### Reading the front of a byte list -/

theorem decode_bare {b : Byte} {rest : List Byte} (h : decodeOpcode b = .prefixCb → rest = []) :
    decode (b :: rest) = some (decodeOpcode b, rest) := by
  cases rest with
  | nil => rfl
  | cons b' rest =>
    have hb : decodeOpcode b ≠ .prefixCb := fun e => by cases h e
    rw [decode]
    split
    next e => exact absurd e hb
    next => rfl

theorem decode_prefixed (b : Byte) (rest : List Byte) :
    decode (0xCB :: b :: rest) = some ((decodePrefixed b).toInstr, rest) := rfl

/-- The round trip: the encoder's one or two bytes are read in the space they are of. -/
theorem decode_encode {i : Instr} {rest : List Byte} (hw : WellFormed i) (hr : i = .prefixCb → rest = []) :
    decode (encode i ++ rest) = some (i, rest) := by
  unfold encode
  split
  next hp =>
    calc decode (0xCB :: opcodeByte i :: rest)
        = some ((decodePrefixed (opcodeByte i)).toInstr, rest) := decode_prefixed ..
      _ = some (i, rest) := by rw [decodePrefixed_opcodeByte hp]
  next hp =>
    have hi := decodeOpcode_opcodeByte hw (Bool.eq_false_iff.2 hp)
    calc decode (opcodeByte i :: rest)
        = some (decodeOpcode (opcodeByte i), rest) := decode_bare fun e => hr (hi.symm.trans e)
      _ = some (i, rest) := by rw [hi]

/-- Settles O3, by the opcode byte of each row read back in the row's own space. -/
theorem decodeReadsBackEveryEncoding : Obligations.DecodeReadsBackEveryEncoding := fun _ _ => decode_encode

/-! ### From a byte to its row and back

The two tables are finite, so what holds of each of their entries is decided byte by byte. -/

theorem opcodeByte_decodeOpcode (b : Byte) : opcodeByte (decodeOpcode b) = b := by decide +revert

theorem opcodeByte_decodePrefixed (b : Byte) : opcodeByte (decodePrefixed b).toInstr = b := by decide +revert

theorem wellFormed_decodeOpcode (b : Byte) : WellFormed (decodeOpcode b) := by decide +revert

/-- The bare table gives no row of the 0xCB space. -/
theorem isPrefixed_decodeOpcode (b : Byte) : (decodeOpcode b).isPrefixed = false := by decide +revert

theorem isPrefixed_toInstr (c : CbInstr) : c.toInstr.isPrefixed = true := by
  obtain ⟨o, p⟩ := c
  cases o <;> cases p <;> rfl

theorem wellFormed_toInstr (c : CbInstr) : WellFormed c.toInstr := by
  obtain ⟨o, p⟩ := c
  cases o <;> cases p <;> rfl

theorem encode_decodeOpcode (b : Byte) : encode (decodeOpcode b) = [b] := by
  rw [encode, isPrefixed_decodeOpcode, opcodeByte_decodeOpcode]; rfl

theorem encode_decodePrefixed (b : Byte) : encode (decodePrefixed b).toInstr = [0xCB, b] := by
  rw [encode, isPrefixed_toInstr, opcodeByte_decodePrefixed]; rfl

/-! ### The eleven gaps of the bare table (R107, D10) -/

theorem decodeLegal_eq_none {b : Byte} : decodeLegal b = none ↔ (decodeOpcode b).isIllegal = true := by
  simp [decodeLegal]

theorem isIllegal_decodeOpcode (b : Byte) : (decodeOpcode b).isIllegal = true ↔
    b ∈ [0xD3#8, 0xDB#8, 0xDD#8, 0xE3#8, 0xE4#8, 0xEB#8, 0xEC#8, 0xED#8, 0xF4#8, 0xFC#8, 0xFD#8] := by decide +revert

/-- Settles O4: in each space the encoder undoes the table, and the source's decode leaves out the rows of the gaps. -/
theorem everyByteHasOneMeaning : Obligations.EveryByteHasOneMeaning :=
  ⟨fun b => ⟨wellFormed_decodeOpcode b, encode_decodeOpcode b⟩,
    fun b => ⟨wellFormed_toInstr _, encode_decodePrefixed b⟩,
    fun b => decodeLegal_eq_none.trans (isIllegal_decodeOpcode b)⟩

/-- Settles O5: the decoder run on each word. -/
theorem sampleWordsDecode : Obligations.SampleWordsDecode := by
  unfold Obligations.SampleWordsDecode
  and_intros <;> rfl

theorem Machine.raises_of_isIllegal {i : Instr} (h : i.isIllegal = true) : raises i = true := by
  unfold raises
  split
  · rfl
  · exact h

/-- Settles O45: the eleven bytes are the gaps of O4, whose rows raise from every state. -/
theorem illegalBytesRaiseInvalidOpcode : Obligations.IllegalBytesRaiseInvalidOpcode := fun b hb =>
  have hi := (isIllegal_decodeOpcode b).2 hb
  ⟨decodeLegal_eq_none.2 hi, Machine.exec_raises (Machine.raises_of_isIllegal hi)⟩

end Sys2Proof
end

section
/-! Proofs of the family 40_step_engine.md: the fetch of a running machine, as the instruction executed from the fetched state, and
what follows for the 0xCB row, the halt bug and the deferred enable. -/

namespace Sys2Proof.Machine

/-! ### The fetch of a running machine (R130 parts 1 to 3) -/

section Fetch

variable {s : State} (hf : s.fault = none) (hirq : s.begun.IrqReadable) (hh : s.halted = false)
  (hp : s.begun.pending = 0 ∨ s.ime = false)
include hf hirq hh hp

/-- A running machine with no dispatch due fetches in the state after the two reads of R336, pending or not. -/
theorem step_running : step s = fetchExecute exec s.begun.irqRead := by
  have hwake : s.begun.irqRead.wake = s.begun.irqRead := State.wake_running (by simpa using hh)
  rw [step_fetches hf hirq, hwake]
  by_cases h0 : s.begun.pending = 0
  · exact .inl ⟨h0, hh⟩
  · exact .inr ⟨h0, hp.resolve_left h0⟩

theorem step_running_claimed (hr : s.begun.irqRead.canRead s.begun.irqRead.pc = true) :
    step s = exec (decodeOpcode (s.begun.irqRead.byteAt s.begun.irqRead.pc))
      (s.begun.irqRead.afterRead s.begun.irqRead.pc).fetched := by
  rw [step_running hf hirq hh hp, fetchExecute_claimed hr]

theorem step_running_unclaimed (hr : s.begun.irqRead.canRead s.begun.irqRead.pc = false) :
    step s = .fault (.outOfRange s.begun.irqRead.pc .read) := by
  rw [step_running hf hirq hh hp, fetchExecute_unclaimed hr]

end Fetch

theorem State.begun_of_env_cons {s : State} {e : List BusEvent} {rest : List (List BusEvent)} (h : s.env = e :: rest) :
    s.begun = { e.foldl State.onEvent { s with env := rest } with busLog := [] } := by
  simp only [State.begun, State.environment, h]

/-- Settles O46: the fetch of a running machine; what is named of `s.begun` is its definition. -/
theorem stepRunsTheDecodedInstruction : Obligations.StepRunsTheDecodedInstruction := by
  refine ⟨fun s hf => ?step, fun _ => rfl, fun _ => State.begun_of_env_nil, fun _ _ _ => State.begun_of_env_cons⟩
  intro u hirq hr hh hp
  exact step_running_claimed hf hirq (by simpa [u] using hh) (by simpa [u] using hp) hr

/-! ### The 0xCB row -/

theorem exec_prefixCb_unclaimed {s : State} (h : s.canRead s.pc = false) :
    exec .prefixCb s = .fault (.outOfRange s.pc .read) := by
  show execPrefixCb s = _
  rw [execPrefixCb, imm8_unclaimed h]

/-- Settles O35: the row that the second byte selects; a second 0xCB is the byte of `SET 1,E`, run by its own meaning. -/
theorem prefixRunsSecondByte : Obligations.PrefixRunsSecondByte := by
  refine ⟨rfl, fun s h => exec_prefixCb_claimed h, fun s h hcb => ?setOneE, fun s h => exec_prefixCb_unclaimed h⟩
  case setOneE =>
    rw [exec_prefixCb_claimed h, hcb]
    rfl

/-! ### After an armed halt bug -/

theorem exec_ldR8D8 (r : Reg8) {s : State} (h : s.canRead s.pc = true) :
    exec (.ldR8D8 r) s = .next ((s.pastImm8.setReg r (s.byteAt s.pc)).charge 2) := by
  show execLdR8D8 r s = _
  rw [execLdR8D8, imm8_claimed h]
  rfl

theorem State.fetched_pc_of_haltBug {s : State} (h : s.haltBugArmed = true) : s.fetched.pc = s.pc := if_pos h

/-- A second read of plain memory answers the same byte. -/
theorem State.byteAt_afterRead_memory {s : State} {x : Word} (h : s.readRule x = .memory) :
    (s.afterRead x).byteAt x = s.byteAt x := by
  rw [State.byteAt_memory h, State.byteAt_memory (by exact h), State.afterRead_memAt]

/-- Settles O49: `LD r8,d8` executed from a fetched state whose `PC` the halt bug held at the opcode. -/
theorem haltBugReadsTheByteTwice : Obligations.HaltBugReadsTheByteTwice := by
  intro s r hf hh hb hi hirq u hr hr2 hdec
  have hpc : (u.afterRead u.pc).fetched.pc = u.pc := State.fetched_pc_of_haltBug hb
  have hstep : step s = exec (decodeOpcode (u.byteAt u.pc)) (u.afterRead u.pc).fetched :=
    step_running_claimed hf hirq (by simpa using hh) (.inr (by simpa using hi)) hr
  rw [hdec, exec_ldR8D8 r (by rw [hpc]; exact hr2), hpc] at hstep
  refine ⟨_, hstep, ?reg, fun hm => ?memory, ?pc, ?bug, ?ticks, ?log⟩
  case reg => simp
  case memory => simpa using State.byteAt_afterRead_memory hm
  case pc => rw [State.charge_pc, State.setReg_pc, State.pastImm8_pc, hpc]
  case bug => simp
  case ticks => simp
  case log =>
    rw [State.charge_busLog, State.setReg_busLog, State.pastImm8, hpc]
    rfl

/-! ### After `EI` (R133) -/

/-- Between `EI` and the instruction after it: running with `IME` = 0, the deferred enable armed. -/
structure State.Enabling (s : State) : Prop where
  notFaulted : s.fault = none
  running : s.halted = false
  noHaltBug : s.haltBugArmed = false
  masked : s.ime = false
  armed : s.deferredEnable = true

/-- The fetch in which the deferred enable fires. -/
theorem State.fetched_of_armed {s : State} (hb : s.haltBugArmed = false) (hd : s.deferredEnable = true) :
    s.fetched = { s with opAddr := s.pc, pc := s.pc + 1, ime := true, deferredEnable := false } := by
  simp [State.fetched, hb, hd]

/-- With `IME` = 1 a `HALT` enters Halted, pending or not. -/
theorem exec_halt_of_ime {s : State} (hi : s.ime = true) (h : s.IrqReadable) :
    exec .halt s = .next ({ s.irqRead with halted := true }.charge 1) := by
  rw [exec_halt_readable h, hi, Bool.not_true, Bool.and_false]
  rfl

theorem exec_ret_readable {s : State} (h : s.StackReadable) :
    exec .ret s = .next ({ s.popped with pc := s.stackTop }.charge 4) := by
  show execRet s = _
  rw [execRet, returnWith, pop16_readable h]
  rfl

theorem exec_ei (s : State) : exec .ei s = .next ({ s with deferredEnable := true }.charge 1) := rfl

theorem State.Enabling.of_ei {s : State} (hf : s.fault = none) (hh : s.halted = false) (hb : s.haltBugArmed = false)
    (hi : s.ime = false) : ({ s with deferredEnable := true }.charge 1).Enabling :=
  ⟨hf, hh, hb, hi, rfl⟩

/-- The step of `EI`: the fetch, in which nothing was armed, and the deferred enable. -/
theorem step_ei {s : State} (hf : s.fault = none) (hh : s.halted = false) (hb : s.haltBugArmed = false) (hi : s.ime = false)
    (hd : s.deferredEnable = false) (hirq : s.begun.IrqReadable)
    (hr : s.begun.irqRead.canRead s.begun.irqRead.pc = true) (hei : s.begun.irqRead.byteAt s.begun.irqRead.pc = 0xFB) :
    ∃ t, step s = .next t ∧ t.Enabling ∧ t.pc = s.begun.irqRead.pc + 1 ∧ t.sp = s.begun.irqRead.sp ∧
      t.mem = s.begun.irqRead.mem := by
  have hstep := step_running_claimed hf hirq hh (.inr hi) hr
  rw [hei, show decodeOpcode 0xFB = .ei from rfl, exec_ei] at hstep
  refine ⟨_, hstep, State.Enabling.of_ei ?fault ?running rfl ?masked, ?pc, ?sp, ?mem⟩
  case fault => simpa using hf
  case running => simpa using hh
  case masked => simp [hi, hd]
  case pc => simp [hb]
  case sp | mem => simp

/-- The step after `EI`: no dispatch, and the enable fires in its fetch. -/
theorem State.Enabling.step_claimed {s : State} (h : s.Enabling) (hirq : s.begun.IrqReadable)
    (hr : s.begun.irqRead.canRead s.begun.irqRead.pc = true) :
    step s = exec (decodeOpcode (s.begun.irqRead.byteAt s.begun.irqRead.pc))
      { s.begun.irqRead.afterRead s.begun.irqRead.pc with
        opAddr := s.begun.irqRead.pc, pc := s.begun.irqRead.pc + 1, ime := true, deferredEnable := false } := by
  rw [step_running_claimed h.notFaulted hirq h.running (.inr h.masked) hr,
    State.fetched_of_armed (by simpa using h.noHaltBug) (by simpa using h.armed), State.afterRead_pc]

/-- Settles O50: the `EI` step arms the enable, which fires in the fetch of the next step; the instruction fetched there executes from
the state in which it has. -/
theorem eiTakesEffectAfterOneInstruction : Obligations.EiTakesEffectAfterOneInstruction := by
  intro s hf hh hb hi hd hirq u hr hei
  obtain ⟨t, hstep, ht, hpc, hsp, hmem⟩ :=
    step_ei hf (by simpa using hh) (by simpa using hb) (by simpa using hi) (by simpa using hd) hirq hr hei
  refine ⟨t, hstep, ht.masked, ht.armed, ht.running, ht.noHaltBug, hpc, hsp, hmem, fun hirq' => ?_⟩
  intro v w
  refine ⟨?pc, fun hr' => ?unclaimed, fun hr' => ?claimed⟩
  case pc => simpa [v, u] using hpc
  case unclaimed => exact step_running_unclaimed ht.notFaulted hirq' ht.running (.inr ht.masked) hr'
  case claimed =>
    have hnext : step t = exec (decodeOpcode (v.byteAt v.pc)) w := ht.step_claimed hirq' hr'
    refine ⟨hnext, fun hop => ?nop, fun hop => ?di, fun hop => ?ei, fun hop hirq'' => ?halt, fun hop hstack => ?ret⟩ <;>
      rw [hnext, hop]
    case nop | di | ei => rfl
    case halt => exact exec_halt_of_ime rfl hirq''
    case ret => exact exec_ret_readable hstack

end Sys2Proof.Machine
end

section
/-! Proofs of the family 40_step_engine.md: on a bus that answers, each operation completes if what follows it completes from every
state whose bus answers; so every instruction completes but those that raise. -/

namespace Sys2Proof.Machine

/-- Ends in a next state. -/
def Completes (x : Result) : Prop := ∃ t, x = .next t

/-! ### The bus answers by its ranges and its own state: plain memory always answers -/

theorem State.canRead_congr {s t : State} (hc : s.claims = t.claims) (hd : s.device = t.device) (x : Word) :
    s.canRead x = t.canRead x := by
  simp only [State.canRead, State.readAnswer, State.readRule, hc, hd]
  cases readRuleIn x t.claims <;> rfl

theorem State.canWrite_congr {s t : State} (hc : s.claims = t.claims) (hd : s.device = t.device) (x : Word) (v : Byte) :
    s.canWrite x v = t.canWrite x v := by
  simp only [State.canWrite, State.writeAnswer, State.writeRule, hc, hd]
  cases writeRuleIn x t.claims with
  | refused | memory | dropped => rfl
  | device => simp only [Option.isSome_map]

/-- Whatever becomes of the bus's own state and of plain memory, a bus that answers goes on answering. -/
theorem State.BusAnswers.of_claims {s t : State} (h : s.BusAnswers) (hc : t.claims = s.claims) : t.BusAnswers := by
  intro d x
  obtain ⟨hr, hw⟩ := h d x
  have hcd : ({ t with device := d } : State).claims = ({ s with device := d } : State).claims := hc
  exact ⟨(State.canRead_congr hcd rfl x).trans hr, fun v => (State.canWrite_congr hcd rfl x v).trans (hw v)⟩

section Answering

variable {s : State} (h : s.BusAnswers)
include h

theorem State.BusAnswers.canRead (x : Word) : s.canRead x = true := (h s.device x).1

theorem State.BusAnswers.canWrite (x : Word) (v : Byte) : s.canWrite x v = true := (h s.device x).2 v

theorem State.BusAnswers.afterRead (x : Word) : (s.afterRead x).BusAnswers := h.of_claims rfl

theorem State.BusAnswers.afterWrite (x : Word) (v : Byte) : (s.afterWrite x v).BusAnswers := h.of_claims rfl

/-! ### The shared operations -/

theorem busRead_completes {x : Word} {k : Byte → State → Result} (hk : ∀ b u, u.BusAnswers → Completes (k b u)) :
    Completes (busRead x s k) := by
  rw [busRead_claimed (h.canRead x)]
  exact hk _ _ (h.afterRead x)

theorem busWrite_completes {x : Word} {v : Byte} {k : State → Result} (hk : ∀ u, u.BusAnswers → Completes (k u)) :
    Completes (busWrite x v s k) := by
  rw [busWrite_claimed (h.canWrite x v)]
  exact hk _ (h.afterWrite x v)

theorem imm8_completes {k : Byte → State → Result} (hk : ∀ b u, u.BusAnswers → Completes (k b u)) : Completes (imm8 s k) :=
  busRead_completes h fun b u hu => hk b u.advancePc (hu.of_claims rfl)

theorem imm16_completes {k : Word → State → Result} (hk : ∀ w u, u.BusAnswers → Completes (k w u)) : Completes (imm16 s k) :=
  imm8_completes h fun _ _ hu => imm8_completes hu fun _ _ => hk _ _

theorem loadA_completes {x : Word} {k : State → Result} (hk : ∀ u, u.BusAnswers → Completes (k u)) :
    Completes (loadA x s k) :=
  busRead_completes h fun b u hu => hk { u with a := b } (hu.of_claims rfl)

theorem push16_completes {w : Word} {k : State → Result} (hk : ∀ u, u.BusAnswers → Completes (k u)) :
    Completes (push16 w s k) :=
  busWrite_completes (s := s.setSp (s.sp - 1)) (h.of_claims rfl) fun u hu =>
    busWrite_completes (s := u.setSp (u.sp - 1)) (hu.of_claims rfl) hk

theorem pop16_completes {k : Word → State → Result} (hk : ∀ w u, Completes (k w u)) : Completes (pop16 s k) :=
  busRead_completes h fun _ _ hu => busRead_completes hu fun _ _ _ => hk _ _

theorem readIrqRegs_completes {k : Byte → Byte → State → Result} (hk : ∀ ie iff u, Completes (k ie iff u)) :
    Completes (readIrqRegs s k) := by
  simp only [readIrqRegs, readIrqRegsIn, Config.irqReadOrder]
  exact busRead_completes h fun _ _ hu => busRead_completes hu fun _ _ _ => hk _ _ _

end Answering

theorem finish_completes (n : Nat) (s : State) : Completes (finish n s) := ⟨_, rfl⟩

theorem ite_completes {c : Bool} {x y : Result} (hx : Completes x) (hy : Completes y) :
    Completes (if c then x else y) := by
  cases c with
  | true => exact hx
  | false => exact hy

/-! ### The shapes several meanings share -/

section Shapes

variable {s : State} (h : s.BusAnswers)
include h

theorem aluHl_completes (op : Byte → State → State) : Completes (aluHl op s) :=
  busRead_completes h fun _ _ _ => finish_completes ..

theorem aluImm_completes (op : Byte → State → State) : Completes (aluImm op s) :=
  imm8_completes h fun _ _ _ => finish_completes ..

theorem stepHl_completes (op : Byte → Bool → Byte × Byte) : Completes (stepHl op s) :=
  busRead_completes h fun v u hu => busWrite_completes (s := u.setF (op v u.cf).2) (hu.of_claims rfl) fun _ _ =>
    finish_completes ..

theorem rotHl_completes (op : Byte → Bool → Byte × Bool) : Completes (rotHl op s) :=
  busRead_completes h fun v u hu => busWrite_completes (s := u.setF (rotFlags (op v u.cf))) (hu.of_claims rfl) fun _ _ =>
    finish_completes ..

theorem bitOpHl_completes (op : Byte → Byte) : Completes (bitOpHl op s) :=
  busRead_completes h fun _ _ hu => busWrite_completes hu fun _ _ => finish_completes ..

theorem callTo_completes (x : Word) (n : Nat) : Completes (callTo x n s) :=
  push16_completes h fun _ _ => finish_completes ..

theorem returnWith_completes (n : Nat) : Completes (returnWith n s) := pop16_completes h fun _ _ => finish_completes ..

/-! ### The instructions -/

theorem exec_row_completes {i : Instr} (hi : i ≠ .prefixCb) (hr : raises i = false) : Completes (exec i s) := by
  cases i <;> dsimp only [exec]
  case prefixCb => exact absurd rfl hi
  case stop | illegalD3 | illegalDB | illegalDD | illegalE3 | illegalE4 | illegalEB | illegalEC | illegalED | illegalF4 |
      illegalFC | illegalFD => cases hr
  case addAHl | adcAHl | subAHl | sbcAHl | andAHl | xorAHl | orAHl | cpAHl => exact aluHl_completes h _
  case addAD8 | adcAD8 | subAD8 | sbcAD8 | andAD8 | xorAD8 | orAD8 | cpAD8 => exact aluImm_completes h _
  case incHl | decHl => exact stepHl_completes h _
  case rlcHl | rrcHl | rlHl | rrHl | slaHl | sraHl | swapHl | srlHl => exact rotHl_completes h _
  case resHl | setHl => exact bitOpHl_completes h _
  case ldR8Hl | bitHl => exact busRead_completes h fun _ _ _ => finish_completes ..
  case ldBcA | ldDeA | ldHliA | ldHldA | ldhCA | ldHlR8 => exact busWrite_completes h fun _ _ => finish_completes ..
  case ldABc | ldADe | ldAHli | ldAHld | ldhAC => exact loadA_completes h fun _ _ => finish_completes ..
  case ldR8D8 | jrE8 | addSpE8 | ldHlSpE8 => exact imm8_completes h fun _ _ _ => finish_completes ..
  case ldHlD8 | ldhA8A => exact imm8_completes h fun _ _ hu => busWrite_completes hu fun _ _ => finish_completes ..
  case ldhAA8 => exact imm8_completes h fun _ _ hu => loadA_completes hu fun _ _ => finish_completes ..
  case ldR16D16 | jpA16 => exact imm16_completes h fun _ _ _ => finish_completes ..
  case ldA16A => exact imm16_completes h fun _ _ hu => busWrite_completes hu fun _ _ => finish_completes ..
  case ldAA16 => exact imm16_completes h fun _ _ hu => loadA_completes hu fun _ _ => finish_completes ..
  case ldA16Sp =>
    exact imm16_completes h fun _ _ hu => busWrite_completes hu fun _ hv => busWrite_completes hv fun _ _ => finish_completes ..
  case callA16 => exact imm16_completes h fun _ _ hu => callTo_completes hu _ _
  case rstT => exact callTo_completes h _ _
  case pushR16 => exact push16_completes h fun _ _ => finish_completes ..
  case ret => exact returnWith_completes h _
  case reti | popR16 | popAf => exact pop16_completes h fun _ _ => finish_completes ..
  case jrCcE8 => exact imm8_completes h fun _ _ _ => ite_completes (finish_completes ..) (finish_completes ..)
  case jpCcA16 => exact imm16_completes h fun _ _ _ => ite_completes (finish_completes ..) (finish_completes ..)
  case callCcA16 => exact imm16_completes h fun _ _ hu => ite_completes (callTo_completes hu _ _) (finish_completes ..)
  case retCc => exact ite_completes (returnWith_completes h _) (finish_completes ..)
  case halt => exact readIrqRegs_completes h fun _ _ _ => ite_completes (finish_completes ..) (finish_completes ..)
  -- The rows left make no bus operation.
  all_goals exact finish_completes ..

end Shapes

/-- No row of the 0xCB space raises. -/
theorem raises_toInstr (i : CbInstr) : raises i.toInstr = false := by
  obtain ⟨o, p⟩ := i
  cases o <;> cases p <;> rfl

theorem exec_completes {i : Instr} {s : State} (h : s.BusAnswers) (hr : raises i = false) : Completes (exec i s) := by
  by_cases hi : i = .prefixCb
  · subst hi
    rw [exec_prefixCb_claimed (h.canRead s.pc)]
    exact exec_row_completes (s := s.pastImm8) (h.of_claims rfl) (toInstr_ne_prefixCb _) (raises_toInstr _)
  · exact exec_row_completes h hi hr

/-- A completed instruction is none of the twelve that raise, whatever the bus does. -/
theorem raises_of_exec_eq_next {i : Instr} {s t : State} (h : exec i s = .next t) : raises i = false := by
  by_cases hi : i = .prefixCb
  · subst hi
    rfl
  · exact (exec_row_eq_next hi h).1

/-- Settles O58: on an answering bus an instruction that does not raise completes, operation by operation; the other direction is the
inversion of `exec`. -/
theorem everyInstructionCompletesOnAnAnsweringBus : Obligations.EveryInstructionCompletesOnAnAnsweringBus := fun _ _ h =>
  ⟨fun ⟨_, ht⟩ => raises_of_exec_eq_next ht, exec_completes h⟩

end Sys2Proof.Machine
end

section
/-! Proofs of the family 40_step_engine.md: `PUSH` and `POP`, from the laws of the stack operations. -/

namespace Sys2Proof.Machine

theorem exec_pushR16 (p : R16Stk) (s : State) : exec (.pushR16 p) s = push16 (s.regStk p) s (finish 4) := rfl

theorem exec_popR16 (p : R16Stk) (s : State) : exec (.popR16 p) s = pop16 s fun w u => finish 3 (u.setRegStk p w) := rfl

theorem State.pushed_memAt (s : State) (w y : Word) : (s.pushed w).memAt y =
    ((s.afterWrite (s.sp - 1) (hiByte w)).afterWrite (s.sp - 2) (loByte w)).memAt y := rfl

/-- A push into plain memory leaves both bytes there. -/
theorem State.pushed_memAt_of_memory {s : State} {w : Word} (h1 : s.writeRule (s.sp - 1) = .memory)
    (h2 : s.writeRule (s.sp - 2) = .memory) :
    (s.pushed w).memAt (s.sp - 1) = hiByte w ∧ (s.pushed w).memAt (s.sp - 2) = loByte w := by
  have hne : s.sp - 1 ≠ s.sp - 2 := by bv_omega
  rw [State.pushed_memAt, State.pushed_memAt]
  constructor
  · rw [State.memAt_afterWrite_ne _ hne, State.memAt_afterWrite_same h1]
  · exact State.memAt_afterWrite_same (by exact h2) _

/-- Settles O17: the encodings pair by pair, and the three outcomes of a push. -/
theorem pushStoresHighByteFirst : Obligations.PushStoresHighByteFirst := by
  refine ⟨fun p => ?encodings, fun s p h => ?writable, fun p => ⟨fun s _ h => ?first, fun s _ h h' => ?second⟩,
    fun _ _ => rfl, fun _ _ => State.pushed_memAt_of_memory⟩
  case encodings => cases p <;> rfl
  case writable => rw [exec_pushR16, push16_writable h]; rfl
  case first => exact push16_fails_first h
  case second => exact push16_fails_second h h'

/-- The pairs other than `AF` keep all sixteen bits written to them (R22). -/
theorem State.regStk_setRegStk_same (s : State) {p : R16Stk} (h : p ≠ .af) (w : Word) : (s.setRegStk p w).regStk p = w := by
  cases p with
  | af => exact absurd rfl h
  | bc | de | hl => exact word_hiByte_loByte w

/-- Settles O18: the encodings pair by pair, the three outcomes of a pop, and the pair read back. -/
theorem popReadsLowByteFirst : Obligations.PopReadsLowByteFirst := by
  refine ⟨fun p hp => ?encodings, fun s p h => ?readable, fun p => ⟨fun s _ h => ?first, fun s _ h h' => ?second⟩,
    fun s _ w hp => s.regStk_setRegStk_same hp w⟩
  case encodings =>
    cases p with
    | af => exact absurd rfl hp
    | bc | de | hl => rfl
  case readable => rw [exec_popR16, pop16_readable h]; rfl
  case first => rw [exec_popR16, pop16_fails_first h]
  case second => rw [exec_popR16, pop16_fails_second h h']

end Sys2Proof.Machine
end

section
/-! Proofs of the family 41_load8.md: loads and stores of one byte. A load of `A`, a store and an operand fetch are `loadA`,
`busWrite` and `imm16` with what follows them; the outcomes of each shape follow once from that. -/

namespace Sys2Proof.Machine

/-! ### The shapes, from their bus operation -/

/-- A load of `A`: the read after the operand bytes, then an update that does not depend on `A` and leaves it alone. -/
theorem LoadsA.of_loadA {i : Instr} {addr : State → Word} {ready : State → Prop} {pre upd : State → State} {n : Nat}
    (hexec : ∀ s, ready s → exec i s = loadA (addr s) (pre s) fun u => finish n (upd u))
    (hupd : ∀ (u : State) v, upd { u with a := v } = { upd u with a := v }) : LoadsA i addr ready pre upd n where
  loads s hs h := by
    rw [hexec s hs, loadA, busRead_claimed h, hupd]
    rfl
  fails s hs h := by rw [hexec s hs, loadA, busRead_unclaimed h]

/-- A store: the write after the operand bytes, then the update. -/
theorem StoresByte.of_busWrite {i : Instr} {addr : State → Word} {v : State → Byte} {ready : State → Prop}
    {pre upd : State → State} {n : Nat}
    (hexec : ∀ s, ready s → exec i s = busWrite (addr s) (v s) (pre s) fun u => finish n (upd u)) :
    StoresByte i addr v ready pre upd n where
  stores s hs h := by
    rw [hexec s hs, busWrite_claimed h]
    rfl
  fails s hs h := by rw [hexec s hs, busWrite_unclaimed h]

/-- An instruction that begins with `Imm16()` fails where that fails. -/
theorem Fetches16.of_imm16 {i : Instr} {k : Word → State → Result} (hexec : ∀ s, exec i s = imm16 s k) : Fetches16 i where
  failFirst s h := by rw [hexec s, imm16_fails_first h]
  failSecond s h h' := by rw [hexec s, imm16_fails_second h h']

/-! ### Loads of a register -/

/-- The fields `x y z` of an opcode byte as a sum (R91). -/
theorem opcodeXyz_eq_add : ∀ (x : BitVec 2) (y z : BitVec 3),
    opcodeXyz x y z = 64 * x.setWidth 8 + 8 * y.setWidth 8 + z.setWidth 8 := by decide

theorem exec_ldR8R8 (dst r : Reg8) (s : State) : exec (.ldR8R8 dst r) s = finish 1 (s.setReg dst (s.reg r)) := rfl

theorem exec_ldR8Hl (dst : Reg8) (s : State) :
    exec (.ldR8Hl dst) s = busRead s.hl s fun v u => finish 2 (u.setReg dst v) := rfl

theorem exec_ldR8D8_unclaimed (dst : Reg8) {s : State} (h : s.canRead s.pc = false) :
    exec (.ldR8D8 dst) s = .fault (.outOfRange s.pc .read) := by
  show execLdR8D8 dst s = _
  rw [execLdR8D8, imm8_unclaimed h]

/-- Settles O11: the encodings, the two outcomes of each read, and the register file read back. -/
theorem registerLoads : Obligations.RegisterLoads := by
  refine ⟨fun dst r => ?encodeReg, fun dst => ?encodeHl, fun dst => ?encodeImm, fun s dst r => exec_ldR8R8 dst r s,
    fun s dst h => ?hl, fun s dst h => exec_ldR8D8 dst h, fun s dst h => ?hlFails,
    fun s dst h => exec_ldR8D8_unclaimed dst h, fun s dst v => ⟨s.reg_setReg_same dst v, fun _ hr => s.reg_setReg_ne hr v⟩⟩
  case encodeReg => exact congrArg (fun b => [b]) (opcodeXyz_eq_add 1 dst.code r.code)
  case encodeHl | encodeImm => cases dst <;> rfl
  case hl =>
    rw [exec_ldR8Hl, busRead_claimed h]
    rfl
  case hlFails => rw [exec_ldR8Hl, busRead_unclaimed h]

/-! ### Stores through `HL` -/

theorem exec_ldHlD8 (s : State) : exec .ldHlD8 s = imm8 s fun v u => busWrite u.hl v u (finish 3) := rfl

/-- Settles O12: both forms are stores at `HL`, the second after its operand byte. -/
theorem storesThroughHl : Obligations.StoresThroughHl := by
  refine ⟨fun r => ?encodings, rfl, fun r => .of_busWrite fun _ _ => rfl, .of_busWrite fun s h => ?operand, fun s h => ?fails⟩
  case encodings => cases r <;> rfl
  case operand =>
    rw [exec_ldHlD8, imm8_claimed h]
    rfl
  case fails => rw [exec_ldHlD8, imm8_unclaimed h]

/-! ### `A` through a pair -/

/-- Settles O13: each form is one bus operation at the pair; the increment and decrement of `HL` leave `A` alone. -/
theorem accumulatorThroughPairs : Obligations.AccumulatorThroughPairs := by
  refine ⟨?encodings, ?bc, ?de, ?hli, ?hld, ?toBc, ?toDe, ?toHli, ?toHld⟩
  case encodings => decide
  case bc | de | hli | hld => exact .of_loadA (fun _ _ => rfl) fun _ _ => rfl
  case toBc | toDe | toHli | toHld => exact .of_busWrite fun _ _ => rfl

/-! ### `A` at an operand address and in the high page -/

theorem exec_ldAA16 (s : State) : exec .ldAA16 s = imm16 s fun x u => loadA x u (finish 4) := rfl

theorem exec_ldA16A (s : State) : exec .ldA16A s = imm16 s fun x u => busWrite x u.a u (finish 4) := rfl

theorem exec_ldhAA8 (s : State) : exec .ldhAA8 s = imm8 s fun x u => loadA (0xFF#8 ++ x) u (finish 3) := by
  simp only [append_eq_word, ← highPage_eq]
  rfl

theorem exec_ldhA8A (s : State) : exec .ldhA8A s = imm8 s fun x u => busWrite (0xFF#8 ++ x) u.a u (finish 3) := by
  simp only [append_eq_word, ← highPage_eq]
  rfl

theorem exec_ldhAC (s : State) : exec .ldhAC s = loadA (0xFF#8 ++ s.c) s (finish 2) := by
  rw [append_eq_word, ← highPage_eq]
  rfl

theorem exec_ldhCA (s : State) : exec .ldhCA s = busWrite (0xFF#8 ++ s.c) s.a s (finish 2) := by
  rw [append_eq_word, ← highPage_eq]
  rfl

/-- Settles O14: the operand fetch of each form, then one bus operation at the address it gives; the high page is the byte 0xFF
before the other (R71). -/
theorem accumulatorAtAddresses : Obligations.AccumulatorAtAddresses := by
  refine ⟨?encodings, .of_loadA (fun s h => ?fromA16) fun _ _ => rfl, .of_loadA (fun s h => ?fromA8) fun _ _ => rfl,
    .of_loadA (fun s _ => exec_ldhAC s) fun _ _ => rfl, .of_busWrite fun s h => ?toA16, .of_busWrite fun s h => ?toA8,
    .of_busWrite fun s _ => exec_ldhCA s, .of_imm16 exec_ldAA16, .of_imm16 exec_ldA16A, fun s h => ⟨?fromFails, ?toFails⟩,
    fun _ => ⟨rfl, rfl, rfl⟩⟩
  case encodings => decide
  case fromA16 => rw [exec_ldAA16, imm16_claimed h]; rfl
  case fromA8 => rw [exec_ldhAA8, imm8_claimed h]; rfl
  case toA16 => rw [exec_ldA16A, imm16_claimed h]; rfl
  case toA8 => rw [exec_ldhA8A, imm8_claimed h]; rfl
  case fromFails => rw [exec_ldhAA8, imm8_unclaimed h]
  case toFails => rw [exec_ldhA8A, imm8_unclaimed h]

end Sys2Proof.Machine
end

section
/-! Proofs of the family 42_load16_stack.md: the 16-bit loads, from the laws of the operand fetch, of the stack and of the carries. -/

namespace Sys2Proof.Machine

/-! ### 16-bit immediates, and `SP` from `HL` -/

theorem exec_ldR16D16 (r : R16) (s : State) :
    exec (.ldR16D16 r) s = imm16 s fun w u => finish 3 (u.setReg16 r w) := rfl

/-- All four codes, the three views and `SP`, keep the sixteen bits written to them (R22, R26). -/
theorem State.reg16_setReg16_same (s : State) (r : R16) (w : Word) : (s.setReg16 r w).reg16 r = w := by
  cases r with
  | bc | de | hl => exact word_hiByte_loByte w
  | sp => rfl

/-- Settles O15: the encodings code by code, the operand fetch and the write after it, and the register read back. -/
theorem sixteenBitLoads : Obligations.SixteenBitLoads := by
  refine ⟨fun r => ?encodings, rfl, fun s r h => ?loads, fun r => .of_imm16 (exec_ldR16D16 r), State.reg16_setReg16_same,
    fun _ => rfl⟩
  case encodings => cases r <;> rfl
  case loads => rw [exec_ldR16D16, imm16_claimed h]; rfl

/-! ### `LD [a16],SP` -/

theorem exec_ldA16Sp (s : State) : exec .ldA16Sp s =
    imm16 s fun x u => busWrite x (loByte u.sp) u fun v => busWrite (x + 1) (hiByte v.sp) v (finish 5) := rfl

/-- After the operand fetch there are two writes, of the halves of the old `SP`: neither bus operation changes it. -/
theorem exec_ldA16Sp_operands {s : State} (h : s.Operands16) : exec .ldA16Sp s =
    busWrite s.operand16 (loByte s.sp) s.pastImm16 fun v => busWrite (s.operand16 + 1) (hiByte v.sp) v (finish 5) := by
  rw [exec_ldA16Sp, imm16_claimed h, State.pastImm16_sp]

/-- Settles O16: the outcomes of the two writes, low byte first, after the operand fetch. -/
theorem storeStackPointer : Obligations.StoreStackPointer := by
  refine ⟨rfl, fun s h hlo hhi => ?stores, .of_imm16 exec_ldA16Sp, fun s h hlo => ?first, fun s h hlo hhi => ?second⟩
  case stores =>
    rw [exec_ldA16Sp_operands h, busWrite_claimed hlo, State.afterWrite_sp, State.pastImm16_sp, busWrite_claimed hhi]
    rfl
  case first => rw [exec_ldA16Sp_operands h, busWrite_unclaimed hlo]
  case second =>
    rw [exec_ldA16Sp_operands h, busWrite_claimed hlo, State.afterWrite_sp, State.pastImm16_sp, busWrite_unclaimed hhi]

/-! ### `POP AF` -/

/-- An instruction that begins with `Pop16()` fails where that fails. -/
theorem PopFails.of_pop16 {i : Instr} {ready : State → Prop} {k : Word → State → Result}
    (hexec : ∀ s, ready s → exec i s = pop16 s k) : PopFails i ready where
  failFirst s hs h := by rw [hexec s hs, pop16_fails_first h]
  failSecond s hs h h' := by rw [hexec s hs, pop16_fails_second h h']

theorem exec_popAf (s : State) : exec .popAf s = pop16 s fun w u => finish 3 (u.setRegStk .af w) := rfl

/-- A write to `AF`, by its two bytes: `F` takes bits 7..4 of the low one (R22). -/
theorem State.setRegStk_af_word (s : State) (hi lo : Byte) :
    s.setRegStk .af (word hi lo) = { s with a := hi, f := lo &&& 0xF0 } := by
  rw [State.setRegStk, hiByte_word, loByte_word]

theorem State.stackTop_eq_word (s : State) : s.stackTop = word ((s.afterRead s.sp).byteAt (s.sp + 1)) (s.byteAt s.sp) := rfl

/-- Settles O19: the pop, and the write of the popped word to `AF`. -/
theorem popAfDropsLowNibble : Obligations.PopAfDropsLowNibble := by
  refine ⟨rfl, fun s h => ?pops, .of_pop16 fun s _ => exec_popAf s⟩
  rw [exec_popAf, pop16_readable h, State.stackTop_eq_word, State.setRegStk_af_word]
  rfl

/-! ### `SP` plus a signed operand -/

/-- `SpRel` with `SPREL_FLAGS` = `doc` (R250, D11): the carries of the two 16-bit addends. -/
theorem spRel_doc (sp : Word) (e : Byte) : spRel .doc sp e = (sp + e.signExtend 16,
    flags false false (decide (sp.toNat % 4096 + (e.signExtend 16).toNat % 4096 > 4095))
      (decide (sp.toNat + (e.signExtend 16).toNat > 65535))) := by
  rw [spRel, sext16, carryOut_11, carryOut_15, Nat.add_zero, Nat.add_zero]

/-- `SpRel` with `SPREL_FLAGS` = `lr35902` (R250): the carries of the low byte and the unsigned operand. -/
theorem spRel_lr35902 (sp : Word) (e : Byte) : spRel .lr35902 sp e = (sp + e.signExtend 16,
    flags false false (decide (sp.toNat % 16 + e.toNat % 16 > 15)) (decide (sp.toNat % 256 + e.toNat > 255))) := by
  have hlow : sp.toNat % 256 % 16 = sp.toNat % 16 := Nat.mod_mod_of_dvd _ (by decide)
  rw [spRel, sext16, carryOut_3, carryOut_7, loByte_toNat, hlow, Nat.add_zero, Nat.add_zero]

theorem ldHlSpE8_claimed (p : Config.SprelFlags) {s : State} (h : s.canRead s.pc = true) : ldHlSpE8 p s =
    .next ({ s.pastImm8.setReg16 .hl (spRel p s.sp (s.byteAt s.pc)).1 with f := (spRel p s.sp (s.byteAt s.pc)).2 }.charge 3) := by
  rw [ldHlSpE8, imm8_claimed h]
  rfl

theorem addSpE8_claimed (p : Config.SprelFlags) {s : State} (h : s.canRead s.pc = true) : addSpE8 p s =
    .next ({ s.pastImm8 with sp := (spRel p s.sp (s.byteAt s.pc)).1, f := (spRel p s.sp (s.byteAt s.pc)).2 }.charge 4) := by
  rw [addSpE8, imm8_claimed h]
  rfl

theorem exec_ldHlSpE8 (s : State) : exec .ldHlSpE8 s = ldHlSpE8 .doc s := rfl

theorem exec_addSpE8 (s : State) : exec .addSpE8 s = addSpE8 .doc s := rfl

/-- Settles O20: `exec` takes the value `doc`; each form is the operand fetch, then `SpRel` with the value's own carries. -/
theorem stackPointerRelative : Obligations.StackPointerRelative := by
  refine ⟨rfl, rfl, fun s h => ⟨?hlDoc, ?spDoc, ?hlChip, ?spChip⟩, fun s h => ⟨?hlFails, ?spFails⟩⟩
  case hlDoc => rw [exec_ldHlSpE8, ldHlSpE8_claimed .doc h, spRel_doc]
  case spDoc => rw [exec_addSpE8, addSpE8_claimed .doc h, spRel_doc]
  case hlChip => rw [ldHlSpE8_claimed .lr35902 h, spRel_lr35902]
  case spChip => rw [addSpE8_claimed .lr35902 h, spRel_lr35902]
  case hlFails => rw [exec_ldHlSpE8, ldHlSpE8, imm8_unclaimed h]
  case spFails => rw [exec_addSpE8, addSpE8, imm8_unclaimed h]

end Sys2Proof.Machine
end

section
/-! Proofs of the family 43_alu8.md: each result with its flags said once in the integers of the rules; then the obligations, from
the laws of the operand forms. -/

namespace Sys2Proof.Machine

/-! ### The results of R212 to R231 with their flags, as the rules say them -/

/-- Two bytes are equal exactly if subtracting one from the other gives zero. -/
theorem sub_beq_zero (a x : Byte) : (a - x == 0) = (a == x) := by
  rw [Bool.eq_iff_iff, beq_iff_eq, beq_iff_eq]
  bv_omega

theorem ofNat_beq_zero (n : Nat) : (BitVec.ofNat 8 n == 0) = (n % 256 == 0) := by
  rw [Bool.eq_iff_iff, beq_iff_eq, beq_iff_eq, ← BitVec.toNat_inj, BitVec.toNat_ofNat]
  rfl

theorem addFlags_no_carry (a x : Byte) : addFlags a x false = (a + x,
    flags (a + x == 0) false (decide (a.toNat % 16 + x.toNat % 16 > 15)) (decide (a.toNat + x.toNat > 255))) := by
  simp [addFlags, carryOut_3, carryOut_7]

theorem addFlags_fst (a x : Byte) (c : Bool) : (addFlags a x c).1 = BitVec.ofNat 8 (a.toNat + x.toNat + c.toNat) := by
  cases c <;> simp [addFlags, BitVec.ofNat_add]

theorem addFlags_snd (a x : Byte) (c : Bool) : (addFlags a x c).2 =
    flags ((a.toNat + x.toNat + c.toNat) % 256 == 0) false (decide (a.toNat % 16 + x.toNat % 16 + c.toNat > 15))
      (decide (a.toNat + x.toNat + c.toNat > 255)) := by
  show flags ((addFlags a x c).1 == 0) _ _ _ = _
  rw [addFlags_fst, ofNat_beq_zero, carryOut_3, carryOut_7]

theorem subFlags_no_borrow (a x : Byte) : subFlags a x false = (a - x,
    flags (a == x) true (decide (a.toNat % 16 < x.toNat % 16)) (decide (a.toNat < x.toNat))) := by
  simp [subFlags, borrowOut_3, borrowOut_7, ← sub_beq_zero a x]

theorem subFlags_fst (a x : Byte) (c : Bool) :
    (subFlags a x c).1 = BitVec.ofInt 8 ((a.toNat : Int) - x.toNat - c.toNat) := by
  have hc : ((BitVec.ofBool c).setWidth 8 : Byte).toNat = c.toNat := by cases c <;> rfl
  refine BitVec.eq_of_toNat_eq ?_
  rw [subFlags, BitVec.toNat_ofInt, BitVec.toNat_sub, BitVec.toNat_sub, hc]
  omega

theorem subFlags_snd (a x : Byte) (c : Bool) : (subFlags a x c).2 =
    flags ((subFlags a x c).1 == 0) true (decide (a.toNat % 16 < x.toNat % 16 + c.toNat))
      (decide (a.toNat < x.toNat + c.toNat)) := by
  rw [← borrowOut_3, ← borrowOut_7]
  rfl

theorem extractLsb'_nibble_toNat (v : Byte) : (v.extractLsb' 0 4).toNat = v.toNat % 16 := by
  simp [BitVec.extractLsb'_toNat]

theorem incFlags_eq (v : Byte) (c : Bool) :
    incFlags v c = (v + 1, flags (v == 0xFF) false (v.extractLsb' 0 4 == 0xF#4) c) := by
  have hz : (v + 1 == 0) = (v == 0xFF) := by
    rw [Bool.eq_iff_iff, beq_iff_eq, beq_iff_eq]
    bv_omega
  have hh : carryOut 3 v.toNat 1 0 = (v.extractLsb' 0 4 == 0xF#4) := by
    rw [Bool.eq_iff_iff, carryOut_3, decide_eq_true_iff, beq_iff_eq, ← BitVec.toNat_inj, extractLsb'_nibble_toNat]
    show v.toNat % 16 + 1 + 0 > 15 ↔ v.toNat % 16 = 15
    omega
  rw [incFlags, hz, hh]

theorem decFlags_eq (v : Byte) (c : Bool) :
    decFlags v c = (v - 1, flags (v == 0x01) true (v.extractLsb' 0 4 == 0#4) c) := by
  have hh : borrowOut 3 v.toNat 1 0 = (v.extractLsb' 0 4 == 0#4) := by
    rw [Bool.eq_iff_iff, borrowOut_3, decide_eq_true_iff, beq_iff_eq, ← BitVec.toNat_inj, extractLsb'_nibble_toNat]
    show v.toNat % 16 < 1 + 0 ↔ v.toNat % 16 = 0
    omega
  rw [decFlags, sub_beq_zero, hh]

/-! ### The accumulator operations in their three forms -/

/-- The meaning of `ALU[o]` (R97) on an operand byte. -/
def aluOp : AluOp → Byte → State → State
  | .add => aluAdd
  | .adc => aluAdc
  | .sub => aluSub
  | .sbc => aluSbc
  | .and => aluAnd
  | .xor => aluXor
  | .or => aluOr
  | .cp => aluCp

theorem exec_aluRegRow (o : AluOp) (r : Reg8) (s : State) : exec (aluRegRow o r) s = aluReg (aluOp o) r s := by
  cases o <;> rfl

theorem exec_aluHlRow (o : AluOp) (s : State) : exec (aluHlRow o) s = aluHl (aluOp o) s := by cases o <;> rfl

theorem exec_aluImmRow (o : AluOp) (s : State) : exec (aluImmRow o) s = aluImm (aluOp o) s := by cases o <;> rfl

/-- The register code is in the low bits, on top of the row's opcode with the code 0, which is that of `B` (R25). -/
theorem encode_aluRegRow (o : AluOp) (r : Reg8) :
    encode (aluRegRow o r) = [opcodeByte (aluRegRow o .b) + r.code.setWidth 8] := by
  cases o <;> cases r <;> rfl

theorem encode_aluHlRow (o : AluOp) : encode (aluHlRow o) = [opcodeByte (aluRegRow o .b) + 6] := by cases o <;> rfl

theorem encode_aluImmRow (o : AluOp) : encode (aluImmRow o) = [opcodeByte (aluImmRow o)] := by cases o <;> rfl

/-- The encodings and outcomes of the three forms of an operation, from what it does with its operand. -/
theorem aluForms (o : AluOp) {eff : Byte → State → State} (heff : ∀ x s, aluOp o x s = eff x s) :
    AluForms (aluRegRow o) (aluHlRow o) (aluImmRow o) (opcodeByte (aluRegRow o .b)) (opcodeByte (aluImmRow o)) eff where
  encodeReg := encode_aluRegRow o
  encodeHl := encode_aluHlRow o
  encodeImm := encode_aluImmRow o
  onReg s r := by rw [exec_aluRegRow, aluReg_eq_next, heff]
  onHl s h := by rw [exec_aluHlRow, aluHl_eq_next, heff]; exact ⟨h, rfl⟩
  onImm s h := by rw [exec_aluImmRow, aluImm_eq_next, heff]; exact ⟨h, rfl⟩
  failHl s h := by rw [exec_aluHlRow, aluHl, busRead_unclaimed h]
  failImm s h := by rw [exec_aluImmRow, aluImm, imm8_unclaimed h]

/-- Settles O21: what `ADD` and `ADC` do with their operand, as integers. -/
theorem additionsWithFlags : Obligations.AdditionsWithFlags := by
  refine ⟨aluForms .add fun x s => ?add, aluForms .adc fun x s => ?adc⟩
  case add => rw [aluOp, aluAdd, addFlags_no_carry]; rfl
  case adc => rw [aluOp, aluAdc, State.setAF, addFlags_fst, addFlags_snd]

/-- Settles O22: what `SUB`, `SBC` and `CP` do with their operand, as integers. -/
theorem subtractionsWithFlags : Obligations.SubtractionsWithFlags := by
  refine ⟨aluForms .sub fun x s => ?sub, aluForms .sbc fun x s => ?sbc, aluForms .cp fun x s => ?cp⟩
  case sub => rw [aluOp, aluSub, subFlags_no_borrow]; rfl
  case sbc => rw [aluOp, aluSbc, State.setAF, subFlags_snd, subFlags_fst]
  case cp => rw [aluOp, aluCp, subFlags_no_borrow]; rfl

/-- Settles O23: the meanings compute result and flags as the rules name them. -/
theorem logicWithFlags : Obligations.LogicWithFlags :=
  ⟨aluForms .and fun _ _ => rfl, aluForms .xor fun _ _ => rfl, aluForms .or fun _ _ => rfl⟩

/-! ### Increment and decrement -/

theorem stepHl_unreadable {op : Byte → Bool → Byte × Byte} {s : State} (h : s.canRead s.hl = false) :
    stepHl op s = .fault (.outOfRange s.hl .read) := by
  rw [stepHl, busRead_unclaimed h]

theorem stepHl_unwritable {op : Byte → Bool → Byte × Byte} {s : State} (h : s.canRead s.hl = true)
    (hw : (s.afterRead s.hl).canWrite s.hl (op (s.byteAt s.hl) s.cf).1 = false) :
    stepHl op s = .fault (.outOfRange s.hl .write) := by
  rw [stepHl, busRead_claimed h]
  exact busWrite_unclaimed (s := (s.afterRead s.hl).setF _) hw

/-- Settles O24: the register form writes the result and flags of one operation, the `[HL]` form reads, then writes. -/
theorem incrementDecrementByte : Obligations.IncrementDecrementByte := by
  refine ⟨fun r => ?encodings, rfl, rfl, fun s r => ?incReg, fun s r => ?decReg, fun s h => ⟨fun hw => ?incHl, fun hw => ?decHl⟩,
    fun s h => ⟨stepHl_unreadable h, stepHl_unreadable h⟩,
    fun s h => ⟨fun hw => stepHl_unwritable (op := incFlags) h hw, fun hw => stepHl_unwritable (op := decFlags) h hw⟩⟩
  case encodings => cases r <;> exact ⟨rfl, rfl⟩
  case incReg => exact stepReg_eq_next.2 (by rw [incFlags_eq]; rfl)
  case decReg => exact stepReg_eq_next.2 (by rw [decFlags_eq]; rfl)
  case incHl => exact stepHl_eq_next.2 ⟨h, hw, by rw [incFlags_eq]; rfl⟩
  case decHl => exact stepHl_eq_next.2 ⟨h, hw, by rw [decFlags_eq]; rfl⟩

/-! ### `CPL`, `SCF`, `CCF` -/

/-- Settles O27: the complement of `A` is its difference from 0xFF; the rest is what the meanings write. -/
theorem complementAndCarryFlags : Obligations.ComplementAndCarryFlags := by
  refine ⟨rfl, rfl, rfl, fun s => ⟨?cpl, rfl, rfl⟩⟩
  have hnot : 0xFF - s.a = ~~~s.a := BitVec.allOnes_sub_eq_not s.a
  rw [hnot]
  rfl

/-! ### `DAA` -/

theorem exec_daa (s : State) : exec .daa s = .next ((s.setAF (daaFlags s.a s.nf s.hf s.cf)).charge 1) := rfl

theorem daaAddsSix_iff {a : Byte} {h : Bool} : daaAddsSix a h = true ↔ h = true ∨ a.toNat % 16 > 9 := by
  have hlow : (a &&& 0x0F).toNat = a.toNat % 16 := by
    rw [BitVec.toNat_and]
    exact Nat.and_two_pow_sub_one_eq_mod a.toNat 4
  rw [daaAddsSix, Bool.or_eq_true, decide_eq_true_iff, hlow]

theorem daaAddsSixty_iff {a : Byte} {c : Bool} : daaAddsSixty a c = true ↔ c = true ∨ a.toNat > 0x99 := by
  rw [daaAddsSixty, Bool.or_eq_true, decide_eq_true_iff]

theorem daaAdjust_toNat (six sixty : Bool) : (daaAdjust six sixty).toNat =
    (if six then 6 else 0) + (if sixty then 0x60 else 0) := by
  cases six <;> cases sixty <;> rfl

theorem daaFlags_subtraction (a : Byte) (h c : Bool) : daaFlags a true h c =
    (a - daaAdjust h c, flags (a - daaAdjust h c == 0) true false c) := rfl

theorem daaFlags_addition (a : Byte) (h c : Bool) : daaFlags a false h c =
    (a + daaAdjust (daaAddsSix a h) (daaAddsSixty a c),
      flags (a + daaAdjust (daaAddsSix a h) (daaAddsSixty a c) == 0) false false (daaAddsSixty a c)) := rfl

theorem sub_daaAdjust (a : Byte) (six sixty : Bool) :
    a - daaAdjust six sixty = a - (if six then 0x06 else 0) - (if sixty then 0x60 else 0) :=
  (BitVec.sub_sub ..).symm

/-- The four amounts an addition-mode `DAA` adds. -/
theorem eq_add_daaAdjust {a r : Byte} {six sixty : Bool} (h66 : six → sixty → r = a + 0x66) (h06 : six → ¬sixty → r = a + 0x06)
    (h60 : ¬six → sixty → r = a + 0x60) (h00 : ¬six → ¬sixty → r = a) : r = a + daaAdjust six sixty := by
  cases six <;> cases sixty
  · exact (h00 nofun nofun).trans (BitVec.add_zero a).symm
  · exact h60 nofun rfl
  · exact h06 rfl nofun
  · exact h66 rfl rfl

/-- Settles O25: in subtraction mode the two amounts are subtracted together; in addition mode `six` and `sixty` are the model's two
tests, which choose between four amounts. -/
theorem decimalAdjust : Obligations.DecimalAdjust := by
  refine ⟨rfl, fun s hn => ?subtraction, fun s hn => ?addition⟩
  case subtraction =>
    rw [exec_daa, hn, daaFlags_subtraction, sub_daaAdjust]
    rfl
  case addition =>
    intro six sixty r h66 h06 h60 h00 c hc
    have hsix : six = (daaAddsSix s.a s.hf = true) := propext daaAddsSix_iff.symm
    have hsixty : sixty = (daaAddsSixty s.a s.cf = true) := propext daaAddsSixty_iff.symm
    rw [hsixty] at hc
    rw [hsix, hsixty] at h66 h06 h60 h00
    rw [exec_daa, hn, daaFlags_addition, ← eq_add_daaAdjust h66 h06 h60 h00, ← Bool.eq_iff_iff.2 hc]
    rfl

/-! ### Packed decimals -/

/-- `DAA` on `A` and `F` as another operation leaves them. -/
def decimalAdjusted (p : Byte × Byte) : Byte × Byte := daaFlags p.1 (p.2.getLsbD 6) (p.2.getLsbD 5) (p.2.getLsbD 4)

theorem exec_daa_setAF {s u : State} {p : Byte × Byte} {n : Nat} (h : exec .daa ((s.setAF p).charge n) = .next u) :
    u = (s.setAF (decimalAdjusted p)).charge (n + 1) := by
  rw [exec_daa, Host.Outcome.next.injEq] at h
  rw [← h]
  rfl

theorem decide_toNat (p : Prop) [Decidable p] : (decide p).toNat = if p then 1 else 0 := apply_ite Bool.toNat p true false

section Decimals

variable {a x : Byte} (ha : isBcd a) (hx : isBcd x) (c : Bool)

include ha hx in
/-- After an addition, the test on the low nibble finds a decimal carry out of the low digits, by value or by `hf`; the test on the
value finds one out of the sum. -/
theorem decimalAdjusted_addFlags : (decimalAdjusted (addFlags a x c)).1.toNat =
      (a.toNat + x.toNat + c.toNat + ((if a.toNat % 16 + x.toNat % 16 + c.toNat > 9 then 6 else 0) +
        (if a.toNat + x.toNat + c.toNat > 0x99 then 0x60 else 0))) % 256 ∧
    (decimalAdjusted (addFlags a x c)).2.getLsbD 4 = decide (a.toNat + x.toNat + c.toNat > 0x99) := by
  obtain ⟨haHigh, haLow⟩ := ha
  obtain ⟨hxHigh, hxLow⟩ := hx
  have hc := c.toNat_le
  have hsix : daaAddsSix (BitVec.ofNat 8 (a.toNat + x.toNat + c.toNat)) (decide (a.toNat % 16 + x.toNat % 16 + c.toNat > 15)) =
      decide (a.toNat % 16 + x.toNat % 16 + c.toNat > 9) := by
    rw [Bool.eq_iff_iff, daaAddsSix_iff, decide_eq_true_iff, decide_eq_true_iff, BitVec.toNat_ofNat]
    omega
  have hsixty : daaAddsSixty (BitVec.ofNat 8 (a.toNat + x.toNat + c.toNat)) (decide (a.toNat + x.toNat + c.toNat > 255)) =
      decide (a.toNat + x.toNat + c.toNat > 0x99) := by
    rw [Bool.eq_iff_iff, daaAddsSixty_iff, decide_eq_true_iff, decide_eq_true_iff, BitVec.toNat_ofNat]
    omega
  rw [decimalAdjusted, addFlags_snd, addFlags_fst, flags_getLsbD_6, flags_getLsbD_5, flags_getLsbD_4, daaFlags_addition,
    hsix, hsixty, flags_getLsbD_4, BitVec.toNat_add, BitVec.toNat_ofNat, daaAdjust_toNat, Nat.mod_add_mod]
  simp only [decide_eq_true_eq, and_self]

/-- After a subtraction, the tests are the borrows, of the low nibble and of the byte. -/
theorem decimalAdjusted_subFlags : (decimalAdjusted (subFlags a x c)).1.toNat =
      (a.toNat + 512 - (x.toNat + c.toNat + ((if a.toNat % 16 < x.toNat % 16 + c.toNat then 6 else 0) +
        (if a.toNat < x.toNat + c.toNat then 0x60 else 0)))) % 256 ∧
    (decimalAdjusted (subFlags a x c)).2.getLsbD 4 = decide (a.toNat < x.toNat + c.toNat) := by
  rw [decimalAdjusted, subFlags_snd, flags_getLsbD_6, flags_getLsbD_5, flags_getLsbD_4, daaFlags_subtraction,
    flags_getLsbD_4, BitVec.toNat_sub, subFlags_fst, BitVec.toNat_ofInt, daaAdjust_toNat]
  simp only [decide_eq_true_eq, and_true]
  have hc := c.toNat_le
  split <;> split <;> omega

include ha hx

theorem decimalAdjusted_addFlags_bcd : isBcd (decimalAdjusted (addFlags a x c)).1 ∧
    bcdValue (decimalAdjusted (addFlags a x c)).1 + 100 * ((decimalAdjusted (addFlags a x c)).2.getLsbD 4).toNat =
      bcdValue a + bcdValue x + c.toNat := by
  obtain ⟨hvalue, hcf⟩ := decimalAdjusted_addFlags ha hx c
  obtain ⟨haHigh, haLow⟩ := ha
  obtain ⟨hxHigh, hxLow⟩ := hx
  have hc := c.toNat_le
  rw [hcf, decide_toNat, isBcd, bcdValue, bcdValue, bcdValue, hvalue]
  split <;> split <;> omega

theorem decimalAdjusted_subFlags_bcd : isBcd (decimalAdjusted (subFlags a x c)).1 ∧
    bcdValue (decimalAdjusted (subFlags a x c)).1 + bcdValue x + c.toNat =
      bcdValue a + 100 * ((decimalAdjusted (subFlags a x c)).2.getLsbD 4).toNat := by
  obtain ⟨hvalue, hcf⟩ := decimalAdjusted_subFlags (a := a) (x := x) c
  obtain ⟨haHigh, haLow⟩ := ha
  obtain ⟨hxHigh, hxLow⟩ := hx
  have hc := c.toNat_le
  rw [hcf, decide_toNat, isBcd, bcdValue, bcdValue, bcdValue, hvalue]
  split <;> split <;> omega

end Decimals

/-- Settles O26: the result of one operation and of `DAA` on it; `ADD` and `SUB` are the cases without an old `cf`. -/
theorem daaGivesPackedDecimals : Obligations.DaaGivesPackedDecimals := by
  intro s t u r ha hr hu
  refine ⟨fun h => ?add, fun h => ?adc, fun h => ?sub, fun h => ?sbc⟩ <;>
    obtain rfl := aluReg_eq_next.1 h <;> obtain rfl := exec_daa_setAF hu
  case add => exact decimalAdjusted_addFlags_bcd ha hr false
  case adc => exact decimalAdjusted_addFlags_bcd ha hr s.cf
  case sub => exact decimalAdjusted_subFlags_bcd ha hr false
  case sbc => exact decimalAdjusted_subFlags_bcd ha hr s.cf

end Sys2Proof.Machine
end

section
/-! Proofs of the family 44_alu16.md: the `F` of `ADD HL,r16` in the integers of R251, and the steps by one as sums modulo 65536. -/

namespace Sys2Proof.Machine

/-! ### `ADD HL,r16` -/

theorem exec_addHlR16 (r : R16) (s : State) : exec (.addHlR16 r) s =
    .next (((s.setReg16 .hl (s.hl + s.reg16 r)).setF (addHlFlags s.zf s.hl (s.reg16 r))).charge 2) := rfl

/-- `zf` is copied; no carry comes in (R210, R251). -/
theorem addHlFlags_eq (z : Bool) (a b : Word) : addHlFlags z a b =
    flags z false (decide (a.toNat % 4096 + b.toNat % 4096 > 4095)) (decide (a.toNat + b.toNat > 65535)) := by
  rw [addHlFlags, carryOut_11, carryOut_15, Nat.add_zero, Nat.add_zero]

/-- Settles O28: the encodings code by code, and the carries of bits 11 and 15 of the two old values. -/
theorem addToHl : Obligations.AddToHl := by
  refine ⟨fun r => ?encodings, fun s r => ?adds⟩
  case encodings => cases r <;> rfl
  case adds =>
    rw [exec_addHlR16, addHlFlags_eq]
    rfl

/-! ### `INC r16` and `DEC r16` -/

theorem exec_incR16 (r : R16) (s : State) : exec (.incR16 r) s = .next ((s.setReg16 r (s.reg16 r + 1)).charge 2) := rfl

theorem exec_decR16 (r : R16) (s : State) : exec (.decR16 r) s = .next ((s.setReg16 r (s.reg16 r - 1)).charge 2) := rfl

theorem word_add_one_eq_ofNat (w : Word) : w + 1 = BitVec.ofNat 16 (w.toNat + 1) := by bv_omega

/-- Modulo 65536, subtracting 1 is adding 65535. -/
theorem word_sub_one_eq_ofNat (w : Word) : w - 1 = BitVec.ofNat 16 (w.toNat + 65535) := by bv_omega

/-- Settles O29: the encodings code by code, and the value written to the register. -/
theorem incrementDecrementWord : Obligations.IncrementDecrementWord := by
  refine ⟨fun r => ?encodings, fun s r => ⟨?inc, ?dec⟩⟩
  case encodings => cases r <;> exact ⟨rfl, rfl⟩
  case inc => rw [exec_incR16, word_add_one_eq_ofNat]
  case dec => rw [exec_decR16, word_sub_one_eq_ofNat]

end Sys2Proof.Machine
end

section
/-! Proofs of the family 45_rotate_shift_bit.md: the second opcode byte as a sum, `RES` and `SET` as one assignment of a bit, the
rotates and shifts as those of bit vectors, and the two operand forms said once for all eight of them. -/

namespace Sys2Proof.Machine

/-! ### The second opcode byte (R91) -/

/-- With the field `x` at 0, that of the rotates and shifts. -/
theorem opcodeXyz_zero (y z : BitVec 3) : opcodeXyz 0 y z = 8 * y.setWidth 8 + z.setWidth 8 := by
  rw [opcodeXyz_eq_add]
  exact congrArg (· + z.setWidth 8) (BitVec.zero_add _)

/-- With the field `z` at 6, the code of `[HL]`. -/
theorem opcodeXyz_six (x : BitVec 2) (y : BitVec 3) :
    opcodeXyz x y 6 = 64 * x.setWidth 8 + 6 + 8 * y.setWidth 8 := by
  rw [opcodeXyz_eq_add]
  exact add_right_comm ..

/-! ### `RES` and `SET` -/

/-- `RES b` or `SET b`, by the value the bit takes. -/
def assignBit (on : Bool) (b : BitVec 3) : Byte → Byte := if on then setBit b else resBit b

theorem one_shiftLeft_getLsbD {j n : Nat} (hj : j < 8) : (1#8 <<< n).getLsbD j = decide (j = n) := by
  rw [← BitVec.twoPow_eq, BitVec.getLsbD_twoPow, ← Bool.decide_and, decide_eq_decide]
  omega

theorem setBit_getLsbD (b : BitVec 3) (v : Byte) {j : Nat} (hj : j < 8) :
    (setBit b v).getLsbD j = if j = b.toNat then true else v.getLsbD j := by
  rw [setBit, BitVec.getLsbD_or, one_shiftLeft_getLsbD hj]
  by_cases h : j = b.toNat <;> simp [h, hj]

theorem resBit_getLsbD (b : BitVec 3) (v : Byte) {j : Nat} (hj : j < 8) :
    (resBit b v).getLsbD j = if j = b.toNat then false else v.getLsbD j := by
  rw [resBit, BitVec.getLsbD_and, BitVec.getLsbD_not, one_shiftLeft_getLsbD hj]
  by_cases h : j = b.toNat <;> simp [h, hj]

theorem assignBit_getLsbD (on : Bool) (b : BitVec 3) (v : Byte) {j : Nat} (hj : j < 8) :
    (assignBit on b v).getLsbD j = if j = b.toNat then on else v.getLsbD j := by
  cases on with
  | true => exact setBit_getLsbD b v hj
  | false => exact resBit_getLsbD b v hj

/-- The eight bits determine the byte. -/
theorem eq_assignBit {on : Bool} {b : BitVec 3} {v w : Byte}
    (h : ∀ j, j < 8 → w.getLsbD j = if j = b.toNat then on else v.getLsbD j) : w = assignBit on b v :=
  BitVec.eq_of_getLsbD_eq fun j hj => (h j hj).trans (assignBit_getLsbD on b v hj).symm

theorem exec_assignBitReg (on : Bool) (b : BitVec 3) (r : Reg8) (s : State) :
    exec (if on then .setR8 b r else .resR8 b r) s = bitOpReg (assignBit on b) r s := by cases on <;> rfl

theorem exec_assignBitHl (on : Bool) (b : BitVec 3) (s : State) :
    exec (if on then .setHl b else .resHl b) s = bitOpHl (assignBit on b) s := by cases on <;> rfl

theorem bitOpHl_unreadable {op : Byte → Byte} {s : State} (h : s.canRead s.hl = false) :
    bitOpHl op s = .fault (.outOfRange s.hl .read) := by
  rw [bitOpHl, busRead_unclaimed h]

theorem bitOpHl_unwritable {op : Byte → Byte} {s : State} (h : s.canRead s.hl = true)
    (hw : (s.afterRead s.hl).canWrite s.hl (op (s.byteAt s.hl)) = false) :
    bitOpHl op s = .fault (.outOfRange s.hl .write) := by
  rw [bitOpHl, busRead_claimed h]
  exact busWrite_unclaimed hw

/-- Settles O34: both instructions assign one bit, and the byte with the described bits is what they write. -/
theorem bitResetAndSet : Obligations.BitResetAndSet := by
  refine ⟨fun b r => ⟨?encodeResReg, ?encodeSetReg⟩, fun b => ⟨?encodeResHl, ?encodeSetHl⟩,
    fun s b v on => ⟨fun r hv => ?onReg, fun hv h => ⟨fun hw => ?onHl, fun hw => ?failWrite⟩⟩,
    fun s b h => ⟨bitOpHl_unreadable (op := resBit b) h, bitOpHl_unreadable (op := setBit b) h⟩⟩
  case encodeResReg => exact congrArg ([0xCB, ·]) (opcodeXyz_eq_add 2 b r.code)
  case encodeSetReg => exact congrArg ([0xCB, ·]) (opcodeXyz_eq_add 3 b r.code)
  case encodeResHl => exact congrArg ([0xCB, ·]) (opcodeXyz_six 2 b)
  case encodeSetHl => exact congrArg ([0xCB, ·]) (opcodeXyz_six 3 b)
  case onReg =>
    obtain rfl := eq_assignBit hv
    rw [exec_assignBitReg, bitOpReg_eq_next]
  case onHl =>
    obtain rfl := eq_assignBit hv
    rw [exec_assignBitHl, bitOpHl_eq_next]
    exact ⟨h, hw, rfl⟩
  case failWrite =>
    obtain rfl := eq_assignBit hv
    rw [exec_assignBitHl, bitOpHl_unwritable h hw]

/-! ### `BIT` -/

theorem exec_bitR8 (b : BitVec 3) (r : Reg8) (s : State) :
    exec (.bitR8 b r) s = .next ((s.setF (bitFlags b (s.reg r) s.cf)).charge 2) := rfl

theorem exec_bitHl (b : BitVec 3) (s : State) :
    exec (.bitHl b) s = busRead s.hl s fun v u => finish 3 (u.setF (bitFlags b v u.cf)) := rfl

/-- Settles O33: one `F` in both forms; the `[HL]` form is one read. -/
theorem bitTests : Obligations.BitTests := by
  refine ⟨fun b r => ?encodeReg, fun b => ?encodeHl, fun s b r => exec_bitR8 b r s, fun s b h => ?onHl, fun s b h => ?failRead⟩
  case encodeReg => exact congrArg ([0xCB, ·]) (opcodeXyz_eq_add 1 b r.code)
  case encodeHl => exact congrArg ([0xCB, ·]) (opcodeXyz_six 1 b)
  case onHl =>
    rw [exec_bitHl, busRead_claimed h]
    rfl
  case failRead => rw [exec_bitHl, busRead_unclaimed h]

/-! ### The result and the bit moved out, in the operators of bit vectors

The meanings put a result together from the bits it keeps and the bit that comes in, at the low or at the high end. -/

theorem append_low_eq {x : BitVec 7} {y : BitVec 1} {w : Byte} (low : y[0] = w[0])
    (up : ∀ i (h : i < 7), x[i] = w[i + 1]) : x ++ y = w := by
  refine BitVec.eq_of_getElem_eq fun i hi => (BitVec.getElem_append hi).trans ?_
  cases i with
  | zero => exact low
  | succ i => exact up i (Nat.lt_of_succ_lt_succ hi)

theorem append_high_eq {x : BitVec 1} {y : BitVec 7} {w : Byte} (high : x[0] = w[7])
    (down : ∀ i (h : i < 7), y[i] = w[i]) : x ++ y = w := by
  refine BitVec.eq_of_getElem_eq fun i hi => (BitVec.getElem_append hi).trans ?_
  split
  next h => exact down i h
  next h =>
    obtain rfl : i = 7 := by omega
    exact high

theorem rotLeft_eq (v : Byte) (c : Bool) : rotLeft v c = (v.rotateLeft 1, v.getLsbD 7) := by
  refine Prod.ext (append_low_eq ?low fun i h => ?up) rfl
  case low | up => simp (disch := omega)

theorem rotRight_eq (v : Byte) (c : Bool) : rotRight v c = (v.rotateRight 1, v.getLsbD 0) := by
  refine Prod.ext (append_high_eq ?high fun i h => ?down) rfl
  case high => simp
  case down => simp (disch := omega) [h]

theorem rotLeftCarry_eq (v : Byte) (c : Bool) :
    rotLeftCarry v c = (v <<< 1 ||| (if c then 0x01 else 0), v.getLsbD 7) := by
  refine Prod.ext (append_low_eq ?low fun i h => ?up) rfl
  case low | up => cases c <;> simp (disch := omega)

theorem rotRightCarry_eq (v : Byte) (c : Bool) :
    rotRightCarry v c = (v >>> 1 ||| (if c then 0x80 else 0), v.getLsbD 0) := by
  refine Prod.ext (append_high_eq ?high fun i h => ?down) rfl
  case high => cases c <;> simp
  case down =>
    have h80 : (0x80#8)[i] = decide (i = 7) := one_shiftLeft_getLsbD (n := 7) (by omega)
    cases c <;> simp [h80, h.ne]

theorem shiftLeft_eq (v : Byte) (c : Bool) : shiftLeft v c = (v <<< 1, v.getLsbD 7) := by
  refine Prod.ext (append_low_eq ?low fun i h => ?up) rfl
  case low | up => simp (disch := omega)

theorem shiftRightArith_eq (v : Byte) (c : Bool) : shiftRightArith v c = (v.sshiftRight 1, v.getLsbD 0) := by
  refine Prod.ext (append_high_eq ?high fun i h => ?down) rfl
  case high => simp [BitVec.getElem_sshiftRight, BitVec.msb_eq_getLsbD_last]
  case down =>
    have h8 : 1 + i < 8 := by omega
    simp [BitVec.getElem_sshiftRight, h8]

/-- Exchanging the nibbles is rotating by four. -/
theorem swapNibbles_eq (v : Byte) (c : Bool) : swapNibbles v c = (v.rotateLeft 4, false) := by
  refine Prod.ext (BitVec.eq_of_getElem_eq fun i hi => (BitVec.getElem_append hi).trans ?_) rfl
  by_cases h : i < 4 <;> simp (disch := omega) [h]

theorem shiftRightLogic_eq (v : Byte) (c : Bool) : shiftRightLogic v c = (v >>> 1, v.getLsbD 0) := by
  refine Prod.ext (append_high_eq ?high fun i h => ?down) rfl
  case high | down => simp

/-! ### The accumulator rotates -/

/-- Settles O30: each is the rotate of `A` by its operation. -/
theorem accumulatorRotates : Obligations.AccumulatorRotates := by
  refine ⟨rfl, rfl, rfl, rfl, fun s => ⟨?rlca, ?rrca, ?rla, ?rra⟩⟩
  case rlca => exact rotAcc_eq_next.2 (by rw [rotLeft_eq]; rfl)
  case rrca => exact rotAcc_eq_next.2 (by rw [rotRight_eq]; rfl)
  case rla => exact rotAcc_eq_next.2 (by rw [rotLeftCarry_eq]; rfl)
  case rra => exact rotAcc_eq_next.2 (by rw [rotRightCarry_eq]; rfl)

/-! ### The prefixed rotates and shifts -/

theorem rotHl_unreadable {op : Byte → Bool → Byte × Bool} {s : State} (h : s.canRead s.hl = false) :
    rotHl op s = .fault (.outOfRange s.hl .read) := by
  rw [rotHl, busRead_unclaimed h]

theorem rotHl_unwritable {op : Byte → Bool → Byte × Bool} {s : State} (h : s.canRead s.hl = true)
    (hw : (s.afterRead s.hl).canWrite s.hl (op (s.byteAt s.hl) s.cf).1 = false) :
    rotHl op s = .fault (.outOfRange s.hl .write) := by
  rw [rotHl, busRead_claimed h]
  exact busWrite_unclaimed (s := (s.afterRead s.hl).setF _) hw

/-- Two rows of the 0xCB space with the field `y` that mean a rotate or shift `op` of a register and of `[HL]` (R106, R264). -/
structure RotRows (reg : Reg8 → Instr) (hl : Instr) (y : BitVec 3) (op : Byte → Bool → Byte × Bool) : Prop where
  encodeReg : ∀ r, encode (reg r) = [0xCB, opcodeXyz 0 y r.code]
  encodeHl : encode hl = [0xCB, opcodeXyz 0 y 6]
  execReg : ∀ r s, exec (reg r) s = rotReg op r s
  execHl : ∀ s, exec hl s = rotHl op s

/-- The encodings and outcomes of the two forms, from the result and the bit moved out. -/
theorem RotRows.forms {reg : Reg8 → Instr} {hl : Instr} {y : BitVec 3} {op : Byte → Bool → Byte × Bool}
    {res : Byte → Bool → Byte} {out : Byte → Bool → Bool} (rows : RotRows reg hl y op)
    (hop : ∀ v c, op v c = (res v c, out v c)) : RotForms reg hl (8 * y.setWidth 8) res out where
  encodeReg r := by rw [rows.encodeReg, opcodeXyz_zero]
  encodeHl := by rw [rows.encodeHl, opcodeXyz_zero]; rfl
  onReg s r := by rw [rows.execReg, rotReg_eq_next, hop]; rfl
  onHl s h hw := by rw [rows.execHl, rotHl_eq_next, hop]; exact ⟨h, hw, rfl⟩
  failRead s h := by rw [rows.execHl, rotHl_unreadable h]
  failWrite s h hw := by rw [rows.execHl, rotHl_unwritable h (by rw [hop]; exact hw)]

/-- Settles O31: the four rows of each operation, and its result in the operators of bit vectors. -/
theorem prefixedRotates : Obligations.PrefixedRotates := by
  refine ⟨RotRows.forms (y := 0) ?rlc rotLeft_eq, RotRows.forms (y := 1) ?rrc rotRight_eq,
    RotRows.forms (y := 2) ?rl rotLeftCarry_eq, RotRows.forms (y := 3) ?rr rotRightCarry_eq⟩
  case rlc | rrc | rl | rr => exact ⟨fun _ => rfl, rfl, fun _ _ => rfl, fun _ => rfl⟩

/-- Settles O32: likewise, with `SWAP` as the rotate by four. -/
theorem prefixedShiftsAndSwap : Obligations.PrefixedShiftsAndSwap := by
  refine ⟨RotRows.forms (y := 4) ?sla shiftLeft_eq, RotRows.forms (y := 5) ?sra shiftRightArith_eq,
    RotRows.forms (y := 6) ?swap swapNibbles_eq, RotRows.forms (y := 7) ?srl shiftRightLogic_eq⟩
  case sla | sra | swap | srl => exact ⟨fun _ => rfl, rfl, fun _ _ => rfl, fun _ => rfl⟩

end Sys2Proof.Machine
end

section
/-! Proofs of the family 46_control_flow.md: a jump is an operand fetch, a call a push of `PC` (`callTo`), a return a pop
(`returnWith`); the outcomes of a call and of a return are said once, for all their forms. The conditional jumps (O37) stand with
the family 10_state.md. -/

namespace Sys2Proof.Machine

/-! ### Jumps -/

theorem exec_jpA16 (s : State) : exec .jpA16 s = imm16 s fun a u => finish 4 (u.jump a) := rfl

theorem exec_jpHl (s : State) : exec .jpHl s = finish 1 (s.jump s.hl) := rfl

theorem exec_jrE8 (s : State) : exec .jrE8 s = imm8 s fun e u => finish 3 (u.jump (u.pc + sext16 e)) := rfl

/-- Settles O36: the operand fetch and its failures, and the target of `JR` as a sum of words. -/
theorem unconditionalJumps : Obligations.UnconditionalJumps := by
  refine ⟨rfl, rfl, rfl, fun s h => ?jp, .of_imm16 exec_jpA16, exec_jpHl, fun s h => ?jr, fun s h => ?jrFails⟩
  case jp => rw [exec_jpA16, imm16_claimed h]; rfl
  case jr => rw [exec_jrE8, imm8_claimed h, ofInt_relative]; rfl
  case jrFails => rw [exec_jrE8, imm8_unclaimed h]

/-! ### Calls -/

theorem callTo_writable {s : State} (x : Word) (n : Nat) (h : s.StackWritable s.pc) :
    callTo x n s = .next ({ s.pushed s.pc with pc := x }.charge n) := callTo_eq_next.2 ⟨h, rfl⟩

/-- An instruction that calls, after what leaves `SP` alone, fails where the push of `PC` fails. -/
theorem PushFails.of_callTo {i : Instr} {ready : State → Prop} {pre : State → State} {target : State → Word} {n : Nat}
    (hsp : ∀ s, (pre s).sp = s.sp) (hexec : ∀ s, ready s → exec i s = callTo (target s) n (pre s)) :
    PushFails i ready pre fun s => (pre s).pc where
  failFirst s hs h := by
    rw [← hsp s] at h ⊢
    rw [hexec s hs, callTo, push16_fails_first h]
  failSecond s hs h h' := by
    rw [← hsp s] at h h' ⊢
    rw [hexec s hs, callTo, push16_fails_second h h']

theorem exec_callA16 (s : State) : exec .callA16 s = imm16 s fun a u => callTo a 6 u := rfl

theorem exec_callA16_operands {s : State} (h : s.Operands16) : exec .callA16 s = callTo s.operand16 6 s.pastImm16 := by
  rw [exec_callA16, imm16_claimed h]

/-- The address of a restart vector (R301). -/
theorem rst_target (t : BitVec 3) : t.setWidth 16 * 8 = BitVec.ofNat 16 (8 * t.toNat) := by bv_omega

theorem exec_rstT (t : BitVec 3) (s : State) : exec (.rstT t) s = callTo (BitVec.ofNat 16 (8 * t.toNat)) 4 s := by
  rw [← rst_target]
  rfl

/-- Settles O38: `CALL` is a call after its operand fetch, with `PC` past the operand bytes; `RST` is one at once. -/
theorem callsAndRestarts : Obligations.CallsAndRestarts := by
  refine ⟨rfl, fun t => ?encodeRst, fun s h hw => ?call, .of_imm16 exec_callA16,
    .of_callTo State.pastImm16_sp fun s h => exec_callA16_operands h, fun s t hw => ?rst,
    fun t => .of_callTo (fun _ => rfl) fun s _ => exec_rstT t s⟩
  case encodeRst => exact congrArg (fun b => [b]) ((opcodeXyz_eq_add 3 t 7).trans (add_right_comm ..))
  case call => exact (exec_callA16_operands h).trans (callTo_writable _ _ hw)
  case rst => exact (exec_rstT t s).trans (callTo_writable _ _ hw)

theorem exec_callCcA16 (cc : Cond) (s : State) : exec (.callCcA16 cc) s =
    imm16 s fun a u => if condHolds cc s then callTo a 6 u else finish 3 u := rfl

theorem exec_callCcA16_taken {cc : Cond} {s : State} (h : s.Operands16) (hc : condHolds cc s = true) :
    exec (.callCcA16 cc) s = callTo s.operand16 6 s.pastImm16 := by
  rw [exec_callCcA16, imm16_claimed h, if_pos hc]

theorem exec_callCcA16_not_taken {cc : Cond} {s : State} (h : s.Operands16) (hc : condHolds cc s = false) :
    exec (.callCcA16 cc) s = .next (s.pastImm16.charge 3) := by
  rw [exec_callCcA16, imm16_claimed h, hc]
  rfl

/-- Settles O39: the operand fetch in both cases (D13), then the call or nothing. -/
theorem conditionalCalls : Obligations.ConditionalCalls := by
  refine ⟨fun cc => ?encodings, fun s cc h hw hc => ?taken, fun s cc h hc => exec_callCcA16_not_taken h hc,
    fun cc => ⟨fun s h => ?fetchFirst, fun s h h' => ?fetchSecond⟩,
    fun cc => .of_callTo State.pastImm16_sp fun s ⟨h, hc⟩ => exec_callCcA16_taken h hc⟩
  case encodings => cases cc <;> rfl
  case taken => exact (exec_callCcA16_taken h hc).trans (callTo_writable _ _ hw)
  case fetchFirst => rw [exec_callCcA16, imm16_fails_first h]
  case fetchSecond => rw [exec_callCcA16, imm16_fails_second h h']

/-! ### Returns -/

theorem returnWith_readable {s : State} (n : Nat) (h : s.StackReadable) :
    returnWith n s = .next ({ s.popped with pc := s.stackTop }.charge n) := returnWith_eq_next.2 ⟨h, rfl⟩

theorem exec_ret (s : State) : exec .ret s = returnWith 4 s := rfl

theorem exec_retCc (cc : Cond) (s : State) :
    exec (.retCc cc) s = if condHolds cc s then returnWith 5 s else finish 2 s := rfl

theorem exec_retCc_taken {cc : Cond} {s : State} (hc : condHolds cc s = true) : exec (.retCc cc) s = returnWith 5 s := by
  rw [exec_retCc, if_pos hc]

theorem exec_retCc_not_taken {cc : Cond} {s : State} (hc : condHolds cc s = false) :
    exec (.retCc cc) s = .next (s.charge 2) := by
  rw [exec_retCc, hc]
  rfl

/-- Settles O40: both are the pop, `RET cc` under its condition alone. -/
theorem returns : Obligations.Returns := by
  refine ⟨rfl, fun cc => ?encodings, fun s h => exec_ret_readable h, .of_pop16 fun s _ => exec_ret s,
    fun s cc h hc => ?taken, fun s cc hc => exec_retCc_not_taken hc, fun cc => .of_pop16 fun s hc => exec_retCc_taken hc⟩
  case encodings => cases cc <;> rfl
  case taken => exact (exec_retCc_taken hc).trans (returnWith_readable 5 h)

theorem exec_reti (s : State) : exec .reti s = returnFromInterrupt s := rfl

/-- Settles O41: `RETI` is the return from an interrupt (R343), whose outcomes are those of its pop. -/
theorem returnFromInterruptSetsIme : Obligations.ReturnFromInterruptSetsIme :=
  ⟨rfl, fun s h => (exec_reti s).trans (returnFromInterrupt_readable h), .of_pop16 fun s _ => exec_reti s⟩

end Sys2Proof.Machine
end

section
/-! Proofs of the family 47_cpu_control.md: `NOP`, `DI`, `EI`, `HALT` and `STOP`, and that no other instruction but `RETI` moves the
run state (R344), from the state a completed instruction leaves. -/

namespace Sys2Proof.Machine

/-- Settles O42: each is one update of the run state, or none, and one cycle. -/
theorem nopDiEi : Obligations.NopDiEi := ⟨rfl, rfl, rfl, fun s => ⟨rfl, rfl, exec_ei s⟩⟩

/-- Settles O44: the row raises with the address of its fetch. -/
theorem stopRaisesInvalidOpcode : Obligations.StopRaisesInvalidOpcode := ⟨rfl, fun s => exec_raises (b := 0x10) rfl s⟩

/-! ### `HALT` -/

theorem exec_halt (s : State) : exec .halt s = execHalt s := rfl

/-- With `IME` = 0 and a request pending, `HALT` arms the halt bug. -/
theorem exec_halt_of_masked {s : State} (h : s.IrqReadable) (hp : s.pending ≠ 0) (hi : s.ime = false) :
    exec .halt s = .next ({ s.irqRead with haltBugArmed := true }.charge 1) := by
  have hbug : (s.pending != 0 && !s.ime) = true := by simpa [hi] using hp
  rw [exec_halt_readable h, if_pos hbug]

theorem exec_halt_of_not_pending {s : State} (h : s.IrqReadable) (hp : s.pending = 0) :
    exec .halt s = .next ({ s.irqRead with halted := true }.charge 1) := by
  rw [exec_halt_readable h, hp]
  rfl

/-- Settles O43: the two outcomes of the decision, and the two failures of the reads before it. -/
theorem haltEntersHaltedOrArmsTheBug : Obligations.HaltEntersHaltedOrArmsTheBug := by
  refine ⟨rfl, fun s h => ⟨fun ⟨hp, hi⟩ => exec_halt_of_masked h hp hi, fun hq => ?halted⟩,
    fun s h => ?ieFails, fun s h h' => ?ifFails, fun s => ⟨rfl, rfl⟩⟩
  case halted => exact hq.elim (exec_halt_of_not_pending h) (exec_halt_of_ime · h)
  case ieFails => rw [exec_halt, execHalt, readIrqRegs_fails_first h]
  case ifFails => rw [exec_halt, execHalt, readIrqRegs_fails_second h h']

/-! ### The run state (R344) -/

theorem movesRunState_toInstr (i : CbInstr) : movesRunState i.toInstr = false := by
  obtain ⟨o, p⟩ := i
  cases o <;> cases p <;> rfl

theorem exec_keeps_runState {i : Instr} {s t : State} (h : exec i s = .next t) (hm : movesRunState i = false) :
    t.halted = s.halted ∧ t.ime = s.ime ∧ t.deferredEnable = s.deferredEnable ∧ t.haltBugArmed = s.haltBugArmed := by
  obtain ⟨-, -, rfl⟩ := exec_eq_next h
  by_cases hi : i = .prefixCb
  · subst hi
    exact completed_runState (movesRunState_toInstr _) s.pastImm8
  · rw [effective_of_ne hi, s.atRow_of_ne hi]
    exact completed_runState hm s

/-- Settles O55: what does not move the run state keeps all four fields; of the four that do, each writes the fields of its rule. -/
theorem onlyFourInstructionsMoveTheRunState : Obligations.OnlyFourInstructionsMoveTheRunState := by
  intro i s t h
  refine ⟨exec_keeps_runState h, ?_⟩
  by_cases hm : movesRunState i = false
  · obtain ⟨hh, hi, hd, hb⟩ := exec_keeps_runState h hm
    exact ⟨fun hne => absurd hh hne, fun hne => absurd hb hne, fun hne => absurd hd hne, fun hne => absurd hi hne⟩
  have hrow : i ≠ .prefixCb := by
    rintro rfl
    exact hm rfl
  obtain ⟨-, rfl⟩ := exec_row_eq_next hrow h
  cases i <;> simp only [movesRunState, not_true_eq_false] at hm
  case halt =>
    rw [completed]
    split
    · next hbug =>
      obtain ⟨-, hi⟩ : s.pending ≠ 0 ∧ s.ime = false := by simpa using hbug
      simp [hi]
    · simp
  case di | ei | reti => simp [completed]

end Sys2Proof.Machine
end

section
/-! Proofs of the family 60_exceptions.md: what a step does before an instruction executes. The Halted step, the dispatch and the
order of the errors, from the laws of the step. -/

namespace Sys2Proof.Machine

/-! ### The fetch of a Halted machine that wakes (R339) -/

/-- With `IME` = 0 the fetch sets `IME` only where the deferred enable is armed. -/
theorem State.fetched_of_masked {s : State} (hi : s.ime = false) : s.fetched =
    { s with
      opAddr := s.pc
      pc := if s.haltBugArmed then s.pc else s.pc + 1
      haltBugArmed := false
      ime := s.deferredEnable
      deferredEnable := false } := by
  simp [State.fetched, hi]

section Wake

variable {s : State} (hf : s.fault = none) (h : s.begun.IrqReadable)
  (hp : s.begun.pending = 0 ∧ s.halted = false ∨ s.begun.pending ≠ 0 ∧ s.ime = false)
include hf h hp

theorem step_fetches_claimed (hr : s.begun.irqRead.canRead s.begun.irqRead.pc = true) :
    step s = exec (decodeOpcode (s.begun.irqRead.byteAt s.begun.irqRead.pc))
      (s.begun.irqRead.wake.afterRead s.begun.irqRead.pc).fetched := by
  rw [step_fetches hf h hp]
  exact fetchExecute_claimed hr

theorem step_fetches_unclaimed (hr : s.begun.irqRead.canRead s.begun.irqRead.pc = false) :
    step s = .fault (.outOfRange s.begun.irqRead.pc .read) := by
  rw [step_fetches hf h hp]
  exact fetchExecute_unclaimed hr

end Wake

/-- Settles O47: the three decisions of a Halted step, and the two outcomes of the fetch in the third. -/
theorem haltedStep : Obligations.HaltedStep := by
  intro s hf hh hirq u
  rw [State.begun_halted] at hh
  have himeu : u.ime = s.ime := s.begun_ime
  rw [himeu]
  refine ⟨fun hp => step_idles hf hirq hp hh, fun hp hi => step_dispatches hf hirq hp hi, fun hp hi hr => ?wakes,
    fun hp hi hr => step_fetches_unclaimed hf hirq (.inr ⟨hp, hi⟩) hr⟩
  case wakes =>
    have hmasked : (u.wake.afterRead u.pc).ime = false := himeu.trans hi
    rw [step_fetches_claimed hf hirq (.inr ⟨hp, hi⟩) hr, State.fetched_of_masked hmasked]
    rfl

/-! ### The dispatch (R340) -/

/-- The lowest set bit, described from outside, is the one the model finds. -/
theorem lowestBit_eq {v : Byte} {k : Nat} (hk : k < 5) (hset : v.getLsbD k = true) (hlow : ∀ j, j < k → v.getLsbD j = false) :
    lowestBit v = k := by
  interval_cases k <;> simp only [lowestBit, hset, hlow, Nat.reduceLT, Bool.false_eq_true, if_true, if_false]

theorem State.lt_five_of_pending {s : State} {k : Nat} (h : s.pending.getLsbD k = true) : k < 5 := by
  have hmask : (0x1F : Byte).getLsbD k = decide (k < 5) := Nat.testBit_two_pow_sub_one 5 k
  rw [State.pending, BitVec.getLsbD_and, hmask, Bool.and_eq_true] at h
  exact of_decide_eq_true h.2

theorem vectorOf_eq (k : Nat) : vectorOf k = BitVec.ofNat 16 (0x40 + 8 * k) := by
  rw [vectorOf, BitVec.ofNat_add, BitVec.ofNat_mul]
  rfl

theorem clearRequest_getLsbD (v : Byte) (k : Nat) {j : Nat} (hj : j < 8) :
    (clearRequest v k).getLsbD j = (v.getLsbD j && !decide (j = k)) := by
  rw [clearRequest, BitVec.getLsbD_and, BitVec.getLsbD_not, one_shiftLeft_getLsbD hj]
  simp [hj]

section Dispatch

variable {iff v : Byte} {s : State}

theorem takeInterrupt_fails_request (h : s.canWrite 0xFF0F (clearRequest iff (lowestBit v)) = false) :
    takeInterrupt iff v s = .fault (.outOfRange 0xFF0F .write) := busWrite_unclaimed h

theorem takeInterrupt_claimed (h : s.canWrite 0xFF0F (clearRequest iff (lowestBit v)) = true) : takeInterrupt iff v s =
    push16 s.pc (s.afterWrite 0xFF0F (clearRequest iff (lowestBit v))) fun u =>
      finish 5 { u with pc := vectorOf (lowestBit v), ime := false } := busWrite_claimed h

end Dispatch

/-- Settles O48: the described bit is the one the model takes, the described byte the one it writes; then the outcomes of the three
writes, from the state that no longer is Halted. -/
theorem dispatchTakesTheLowestPendingInterrupt : Obligations.DispatchTakesTheLowestPendingInterrupt := by
  intro s k hf hi hirq hset hlow iff' hiff' u w
  have hbit : lowestBit s.begun.pending = k := lowestBit_eq (State.lt_five_of_pending hset) hset hlow
  have hbyte : clearRequest s.begun.ifRead (lowestBit s.begun.pending) = iff' := by
    rw [hbit]
    exact BitVec.eq_of_getLsbD_eq fun j hj => (clearRequest_getLsbD _ k hj).trans (hiff' j hj).symm
  have hp : s.begun.pending ≠ 0 := fun h0 => by simp [h0] at hset
  rw [State.begun_ime] at hi
  rw [step_dispatches hf hirq hp hi]
  refine ⟨fun hw hs => ?taken, fun hw => ?request, fun hw h1 => ?high, fun hw h1 h2 => ?low⟩
  case taken =>
    rw [takeInterrupt_writable (by rwa [hbyte]) (by rwa [hbyte]), hbyte, hbit, vectorOf_eq]
    rfl
  case request => exact takeInterrupt_fails_request (by rwa [hbyte])
  case high =>
    rw [takeInterrupt_claimed (by rwa [hbyte]), hbyte]
    exact push16_fails_first h1
  case low =>
    rw [takeInterrupt_claimed (by rwa [hbyte]), hbyte]
    exact push16_fails_second h1 h2

/-! ### The order of the errors (R345) -/

theorem step_faulted {s : State} {e : Fault} (h : s.fault = some e) : step s = .fault e := by
  simp only [step, engine, h]

theorem step_eq_readIrqRegs {s : State} (h : s.fault = none) : step s = readIrqRegs s.begun (afterIrqRead exec) := by
  simp only [step, engine, h, stepBody]

/-- Settles O51: the latch, the two reads, the fetch, and the rows that raise, in the order of a step. -/
theorem stepReportsTheFirstError : Obligations.StepReportsTheFirstError := by
  refine ⟨fun s e => step_faulted, fun s hf h => ?ieFails, fun s hf h h' => ?ifFails, fun s hf hirq hdec => ?fetch⟩
  case ieFails => rw [step_eq_readIrqRegs hf, readIrqRegs_fails_first h]
  case ifFails => rw [step_eq_readIrqRegs hf, readIrqRegs_fails_second h h']
  case fetch =>
    intro u
    rw [State.begun_halted, State.begun_ime, and_comm (b := s.begun.pending = 0)] at hdec
    refine ⟨step_fetches_unclaimed hf hirq hdec, fun hr hraises => ?raises⟩
    case raises =>
      rw [step_fetches_claimed hf hirq hdec hr, exec_raises hraises]
      rfl

/-! ### The snapshot (R352) -/

section Seeded

variable (mem : Memory) (device : Nat) (claims : List Region) (r : Snapshot)

theorem State.createWithState_af : (State.createWithState mem device claims r).af = r.af &&& 0xFFF0 :=
  word_clearing_low_nibble r.af

theorem State.createWithState_bc : (State.createWithState mem device claims r).bc = r.bc := word_hiByte_loByte r.bc

theorem State.createWithState_de : (State.createWithState mem device claims r).de = r.de := word_hiByte_loByte r.de

theorem State.createWithState_hl : (State.createWithState mem device claims r).hl = r.hl := word_hiByte_loByte r.hl

end Seeded

/-- Settles O60: the pairs read back as seeded, `AF` without its low nibble; the rest is what reset or the bus given has. -/
theorem seedingASnapshotGivesItBack : Obligations.SeedingASnapshotGivesItBack := by
  refine ⟨fun _ => rfl, fun mem device claims r => ⟨?snapshot, rfl, rfl, rfl, rfl, rfl, rfl, rfl, rfl⟩⟩
  case snapshot =>
    rw [State.snapshot, State.createWithState_af, State.createWithState_bc, State.createWithState_de,
      State.createWithState_hl]
    rfl

end Sys2Proof.Machine
end

section
/-! Proofs of the family 70_reset_and_hazards.md: the cost of an instruction against the table of R378 and against the bus
operations it makes, the second byte of a 0xCB row included. -/

namespace Sys2Proof.Machine

theorem conditionOf_toInstr (i : CbInstr) : conditionOf i.toInstr = none := by
  obtain ⟨o, p⟩ := i
  cases o <;> cases p <;> rfl

/-- The row that runs is taken where the instruction is: no row of the 0xCB space has a condition. -/
theorem takenIn_effective (i : Instr) (s : State) : takenIn (effective i s) (s.atRow i) = takenIn i s := by
  by_cases hi : i = .prefixCb
  · subst hi
    rw [takenIn, effective, conditionOf_toInstr]
    rfl
  · rw [effective_of_ne hi, s.atRow_of_ne hi]

theorem exec_cost {i : Instr} {s t : State} (h : exec i s = .next t) :
    t.ticks = s.ticks + cycles (effective i s) (takenIn i s) := by
  obtain ⟨-, -, rfl⟩ := exec_eq_next h
  rw [completed_ticks, State.atRow_ticks, takenIn_effective]

/-- Settles O56, by the cost of the state a row leaves. -/
theorem costsAreThoseOfTheCycleTable : Obligations.CostsAreThoseOfTheCycleTable := fun _ _ _ => exec_cost

/-! ### One cycle per bus operation -/

/-- The regularity of the table of R378, row by row. -/
theorem cycles_eq_busOps {i : Instr} {s : State} (hp : i ≠ .prefixCb) (hr : raises i = false)
    (hd : hasInternalDelay i (takenIn i s) = false) : cycles i (takenIn i s) = (busOps i s).length + (encode i).length := by
  cases i
  case prefixCb => exact absurd rfl hp
  case stop | illegalD3 | illegalDB | illegalDD | illegalE3 | illegalE4 | illegalEB | illegalEC | illegalED | illegalF4 |
      illegalFC | illegalFD => cases hr
  case addHlR16 | incR16 | decR16 | ldSpHl | addSpE8 | ldHlSpE8 | pushR16 | rstT | ret | reti | retCc | halt | jpA16 | jrE8 |
      callA16 => cases hd
  case jpCcA16 cc | jrCcE8 cc | callCcA16 cc =>
    have hc : condHolds cc s = false := hd
    simp only [takenIn, conditionOf, hc, busOps]
    rfl
  all_goals rfl

theorem hasInternalDelay_toInstr (i : CbInstr) (taken : Bool) : hasInternalDelay i.toInstr taken = false := by
  obtain ⟨o, p⟩ := i
  cases o <;> cases p <;> rfl

theorem hasInternalDelay_effective {i : Instr} {s : State} {taken : Bool} (h : hasInternalDelay i taken = false) :
    hasInternalDelay (effective i s) taken = false := by
  by_cases hi : i = .prefixCb
  · subst hi
    exact hasInternalDelay_toInstr ..
  · rwa [effective_of_ne hi]

/-- The second byte of a 0xCB row counts once: as an operation of the instruction, or as an opcode byte of the row that runs. -/
theorem execOps_length (i : Instr) (s : State) : (execOps i s).length + (encode i).length =
    (busOps (effective i s) (s.atRow i)).length + (encode (effective i s)).length := by
  by_cases hi : i = .prefixCb
  · subst hi
    rw [execOps, List.length_append, effective, encode_decodePrefixed]
    show 1 + (busOps _ s.pastImm8).length + 1 = (busOps _ s.pastImm8).length + 2
    omega
  · rw [execOps_of_ne hi, effective_of_ne hi, s.atRow_of_ne hi]

/-- Settles O57: the operations are those of `execOps`; their number and the opcode bytes give the cost of the row that runs. -/
theorem regularCostsCountBusOperations : Obligations.RegularCostsCountBusOperations := by
  intro i s t h hd
  obtain ⟨hp, hr, -⟩ := exec_eq_next h
  have hcost : cycles (effective i s) (takenIn i s) = (execOps i s).length + (encode i).length := by
    rw [execOps_length, ← takenIn_effective]
    exact cycles_eq_busOps hp hr (hasInternalDelay_effective (by rwa [takenIn_effective]))
  refine ⟨(execOps i s).reverse, (exec_did h).log, ?_⟩
  rw [exec_cost h, hcost, List.length_reverse, Nat.add_assoc]

end Sys2Proof.Machine
end
